-- ==== Sys2Proof/Word.lean ====
section
/-! DEFINITION. The words of the block: bytes, Symbols, command words, handles and the register that holds a Code. -/

namespace Sys2Proof

/-- A byte of an output stream (`spec/20_memory.md` R64). Bit 0 is the least significant bit (R7). -/
abbrev Byte := BitVec 8

/-- "a single byte value (0–255)" (`spec/00_scope.md` R5, R12). -/
abbrev Symbol := BitVec 8

/-- A command word `cmd[39:0]` (`spec/30_encoding.md` R90). -/
abbrev CmdWord := BitVec 40

/-- The index of a node in the arena, H_W = 16 bits (`spec/00_scope.md` R5). -/
abbrev Handle := BitVec 16

/-- A register of MAXLEN bits that holds the value V of a Code (`spec/00_scope.md` R8). MAXLEN is at most 255
(R5), and the register is held in 255 bits whatever MAXLEN is. -/
abbrev CodeReg := BitVec 255

/-- A bit sequence, its first bit first (`spec/00_scope.md` R7). -/
abbrev Bits := List Bool

end Sys2Proof
end

