-- ==== Sys2Proof/Config.lean ====
section
/-! DEFINITION. The implementation parameters of `spec/00_scope.md` R5 that a block fixes: MAXLEN and NNODES.
The block has no free value: no rule reads an unspecified value (`spec/93_implementation_defined.md` section 2). -/

namespace Sys2Proof

/-- The two open parameters (`spec/00_scope.md` R5; `spec/93_implementation_defined.md` P1, P2). -/
structure Config where
  /-- MAXLEN, the greatest number of bits in a Code the block accepts -/
  maxLen : Nat
  /-- NNODES, the number of nodes in the arena, root included -/
  nNodes : Nat
  deriving DecidableEq, Repr

/-- The default values of R5. -/
def Config.standard : Config := { maxLen := 255, nNodes := 65536 }

/-- The allowed ranges of R5: MAXLEN from 1 to 255, NNODES from 2 to 65536. -/
abbrev Config.wf (c : Config) : Prop :=
  1 ≤ c.maxLen ∧ c.maxLen ≤ 255 ∧ 2 ≤ c.nNodes ∧ c.nNodes ≤ 65536

end Sys2Proof
end

