-- ==== Sys2Proof/Syntax.lean ====
section
/-! DEFINITION. The twelve commands, one constructor per row of `spec/opcode_table.json` (`spec/30_encoding.md` R98). -/

namespace Sys2Proof

/-- The commands of R98. Each operand has exactly the width of its field (R93 to R96), so every value of the type is
an operand the format allows. -/
inductive Instr where
  /-- NOP: no operation (R120) -/
  | nop
  /-- CCLR: clear the staging register (R121) -/
  | cclr
  /-- CBIT b: append one bit to the staged code (R122) -/
  | cbit (b : Bool)
  /-- PKCLR: empty the code table and drop pending bits (R140) -/
  | pkclr
  /-- PKDEF s: give Symbol s the staged Code (R141) -/
  | pkdef (s : Symbol)
  /-- PKSYM s: pack one Symbol (R143) -/
  | pksym (s : Symbol)
  /-- PKFLUSH: end the stream, padding the last byte with zeros (R144) -/
  | pkflush
  /-- UPCLR: empty the decode tree (R161) -/
  | upclr
  /-- UPINS s: insert the staged Code as a root-to-leaf path ending in Symbol s (R162) -/
  | upins (s : Symbol)
  /-- UPSTART n: begin a decode run expecting n symbols (R164) -/
  | upstart (n : BitVec 32)
  /-- UPBYTE s: feed one payload byte to the walk (R167) -/
  | upbyte (s : Byte)
  /-- UPEND: the payload is exhausted (R170) -/
  | upend
  deriving DecidableEq, Repr

end Sys2Proof
end

