-- ==== Sys2Proof/WellFormed.lean ====
section
/-! DEFINITION. Script lines (`spec/30_encoding.md` R104, R105) and the operand checks a script reader makes before it
encodes one. An `Instr` needs no check: its operand types are the fields' widths (R96). -/

namespace Sys2Proof

/-- One line of a script: a command with its operand as written, not yet held against the format's range (R104), or a
pseudo-command (R105). -/
inductive ScriptLine where
  | nop
  | cclr
  | cbit (b : Nat)
  | pkclr
  | pkdef (s : Nat)
  | pksym (s : Nat)
  | pkflush
  | upclr
  | upins (s : Nat)
  | upstart (n : Nat)
  | upbyte (s : Nat)
  | upend
  /-- `DEFCODE s, "c(0)...c(L-1)"` -/
  | defcode (s : Nat) (code : List Char)
  /-- `INSCODE s, "c(0)...c(L-1)"` -/
  | inscode (s : Nat) (code : List Char)
  /-- `PACK b(0) ... b(k-1)` -/
  | pack (bytes : List Nat)
  /-- `PACKSTR "text"` -/
  | packstr (text : List Char)
  /-- `UNPACK b(0) ... b(k-1)` -/
  | unpack (bytes : List Nat)
  deriving DecidableEq, Repr

/-- CBIT takes 0 or 1 (R104). -/
def bitOperandOk (b : Nat) : Bool := decide (b ≤ 1)

/-- PKDEF, PKSYM, UPINS and UPBYTE take 0 to 255 (R104). -/
def byteOperandOk (s : Nat) : Bool := decide (s ≤ 255)

/-- UPSTART takes 0 to 4294967295 (R104). -/
def countOperandOk (n : Nat) : Bool := decide (n ≤ 4294967295)

/-- A code string is made of '0' and '1', and is 1 to MAXLEN characters long (R105). -/
def codeStringOk (c : Config) (code : List Char) : Bool :=
  decide (1 ≤ code.length) && decide (code.length ≤ c.maxLen) && code.all fun x => x == '0' || x == '1'

/-- A printable ASCII character (R104); that these are the characters 0x20 to 0x7E is the model's reading. DESIGN CHOICE
(log 11). -/
def printableAscii (x : Char) : Bool := decide (0x20 ≤ x.toNat) && decide (x.toNat ≤ 0x7E)

/-- The checks of R104 and R105 on one line. "A script with an out-of-range operand is rejected by the script reader
and is never encoded". R105 gives PACKSTR "each character's ASCII value" and does not say which characters its text may
hold: here 0x20 to 0x7E only, and the text may be empty. DESIGN CHOICE (log 11). -/
def ScriptLine.wf (c : Config) : ScriptLine → Bool
  | .nop => true
  | .cclr => true
  | .cbit b => bitOperandOk b
  | .pkclr => true
  | .pkdef s => byteOperandOk s
  | .pksym s => byteOperandOk s
  | .pkflush => true
  | .upclr => true
  | .upins s => byteOperandOk s
  | .upstart n => countOperandOk n
  | .upbyte s => byteOperandOk s
  | .upend => true
  | .defcode s code => byteOperandOk s && codeStringOk c code
  | .inscode s code => byteOperandOk s && codeStringOk c code
  | .pack bytes => bytes.all byteOperandOk
  | .packstr text => text.all printableAscii
  | .unpack bytes => bytes.all byteOperandOk

end Sys2Proof
end

