-- ==== Sys2Proof/Decode.lean ====
section
/-! DEFINITION. Decoding a command word, steps 2 and 3 of `spec/30_encoding.md` R92, total and rejecting by name; then
the encoder, and the reading of a word numbered as `spec/opcode_table.json` numbers it. -/

namespace Sys2Proof

/-- `op = cmd[39:32]` (R90). -/
def opField (w : CmdWord) : BitVec 8 := w.extractLsb' 32 8

/-- `arg = cmd[31:0]` (R90). -/
def argField (w : CmdWord) : BitVec 32 := w.extractLsb' 0 32

/-- Why a word is illegal (R99). -/
inductive IllegalWord where
  /-- the op is none of the twelve assigned opcodes (R92 step 2) -/
  | unassignedOp
  /-- a bit the opcode's format marks reserved is 1 (R92 step 3) -/
  | reservedBits
  deriving DecidableEq, Repr

/-- "every one of the 2^40 words is either one of the twelve commands with a well-formed argument or illegal" (R92). -/
inductive Decoded where
  | cmd (i : Instr)
  | illegal (why : IllegalWord)
  deriving DecidableEq, Repr

/-- Format Z: no operand, arg[31:0] reserved (R91). -/
def formatZ (arg : BitVec 32) (i : Instr) : Decoded :=
  if arg = 0 then .cmd i else .illegal .reservedBits

/-- Format B: b = arg[0], arg[31:1] reserved (R93). -/
def formatB (arg : BitVec 32) (mk : Bool → Instr) : Decoded :=
  if arg.extractLsb' 1 31 = 0 then .cmd (mk (arg.getLsbD 0)) else .illegal .reservedBits

/-- Format S: s = arg[7:0], arg[31:8] reserved (R94). -/
def formatS (arg : BitVec 32) (mk : BitVec 8 → Instr) : Decoded :=
  if arg.extractLsb' 8 24 = 0 then .cmd (mk (arg.extractLsb' 0 8)) else .illegal .reservedBits

/-- Format N: n = arg[31:0], every value is legal (R95). -/
def formatN (arg : BitVec 32) (mk : BitVec 32 → Instr) : Decoded := .cmd (mk arg)

/-- Decoding, in the order of R92: the opcode first, then the reserved bits of its format. -/
def decode (w : CmdWord) : Decoded :=
  match (opField w).toNat with
  | 0x00 => formatZ (argField w) .nop
  | 0x01 => formatZ (argField w) .cclr
  | 0x02 => formatB (argField w) .cbit
  | 0x10 => formatZ (argField w) .pkclr
  | 0x11 => formatS (argField w) .pkdef
  | 0x12 => formatS (argField w) .pksym
  | 0x13 => formatZ (argField w) .pkflush
  | 0x20 => formatZ (argField w) .upclr
  | 0x21 => formatS (argField w) .upins
  | 0x22 => formatN (argField w) .upstart
  | 0x23 => formatS (argField w) .upbyte
  | 0x24 => formatZ (argField w) .upend
  | _ => .illegal .unassignedOp

/-- The two fields of a word put together (R90). -/
def cmdWord (op : BitVec 8) (arg : BitVec 32) : CmdWord := op ++ arg

/-- The word of a command, from R91 to R98: "reserved bits are always encoded as 0" (R104). -/
def encode : Instr → CmdWord
  | .nop => cmdWord 0x00 0
  | .cclr => cmdWord 0x01 0
  | .cbit b => cmdWord 0x02 ((BitVec.ofBool b).setWidth 32)
  | .pkclr => cmdWord 0x10 0
  | .pkdef s => cmdWord 0x11 (s.setWidth 32)
  | .pksym s => cmdWord 0x12 (s.setWidth 32)
  | .pkflush => cmdWord 0x13 0
  | .upclr => cmdWord 0x20 0
  | .upins s => cmdWord 0x21 (s.setWidth 32)
  | .upstart n => cmdWord 0x22 n
  | .upbyte s => cmdWord 0x23 (s.setWidth 32)
  | .upend => cmdWord 0x24 0

/-- The instruction of a decoded word, none where the decoder refuses it. -/
def Decoded.instr? : Decoded → Option Instr
  | .cmd i => some i
  | .illegal _ => none

/-- A 40-bit word is the whole instruction, presented in one transfer (R90), and `spec/opcode_table.json` numbers its
bits as R90 does; the bits from nbits up are 0. -/
def tableWord (nbits w : Nat) : CmdWord := BitVec.ofNat 40 (w % 2 ^ nbits)

/-- What the decoder reads from an instruction whose bits are w. -/
def decodeTableWord (nbits w : Nat) : Option Instr := (decode (tableWord nbits w)).instr?

end Sys2Proof
end

