-- ==== Sys2Proof/Machine/State.lean ====
section
/-! DEFINITION. The state of the block: every row of the table of `spec/10_state.md` section 1, the parameters and the
events presented at the port; the reasons a step can stop; the state after reset (`spec/70_reset_and_hazards.md` R221). -/

namespace Sys2Proof.Machine

/-- An entry of the code table, the triple of `spec/10_state.md` R25. -/
structure CodeEntry where
  valid : Bool
  len : BitVec 8
  bits : CodeReg
  deriving DecidableEq, Repr

/-- A node of the arena, the four fields of `spec/20_memory.md` R63. -/
structure Node where
  leaf : Bool
  sym : Symbol
  c1 : Handle
  c0 : Handle
  deriving DecidableEq, Repr

/-- The node arena as (handle, node) pairs, handles strictly rising, no entry equal to `Node.blank`. -/
abbrev Memory := List (Nat × Node)

/-- UP_STATE (`spec/10_state.md` R36): five values, 5 to 7 are never taken. -/
inductive UpState where
  | idle
  | run
  | complete
  | truncated
  | invalid
  deriving DecidableEq, Repr

/-- What the HOST presents at the port: a command word (`spec/30_encoding.md` R106), or the reset event, "not a command
word" (`spec/70_reset_and_hazards.md` R220). -/
inductive PortEvent where
  | word (w : CmdWord)
  | reset
  deriving DecidableEq, Repr

/-- Why the machine stops. Nothing of the spec stops this block: a refused command sets a bit of ERR and the block goes
on (`spec/60_exceptions.md` R202). -/
inductive Fault where
  /-- Raised by UPINS and UPBYTE when they read an arena entry h with h ≥ NNODES, which does not exist
  (`spec/20_memory.md` R63). Safe: the model stops where no state that meets R45 can come (log 6). -/
  | nodeOutOfRange (h : Handle)
  deriving DecidableEq, Repr

/-- Why the model gives no meaning. -/
inductive Refusal where
  /-- Raised by an arm of `exec` whose instruction has no meaning yet. Safe. No arm raises it. -/
  | notModelled (mnemonic : String)
  deriving DecidableEq, Repr

/-- The state of the block. The names are those of `spec/10_state.md` section 1. -/
structure State where
  /-- the parameters MAXLEN and NNODES, fixed for the block (R47); the model's own field (log 3) -/
  cfg : Config
  /-- what the HOST has presented and the block has not taken yet, first first; the model's own field (log 1) -/
  port : List PortEvent
  /-- STG (R20) -/
  stg : CodeReg
  /-- STGLEN (R21) -/
  stglen : BitVec 8
  /-- STGOVF (R22) -/
  stgovf : Bool
  /-- ERR, status register S0 (R34, R35) -/
  err : BitVec 8
  /-- ACC (R23) -/
  acc : BitVec 8
  /-- NBITS (R24), also status register S5, PK_NBITS (R40) -/
  nbits : BitVec 3
  /-- CODE, one entry per Symbol value (R25) -/
  code : Vector CodeEntry 256
  /-- NODE (R28) -/
  node : Memory
  /-- NEXT_FREE (R27) -/
  nextFree : BitVec 17
  /-- POS (R26) -/
  pos : Handle
  /-- UP_STATE, status register S1 (R36) -/
  upState : UpState
  /-- EXPECTED, status register S2 (R37) -/
  expected : BitVec 32
  /-- DECODED, status register S3 (R38) -/
  decoded : BitVec 32
  /-- BITPOS, status register S4 (R39) -/
  bitpos : BitVec 40
  /-- PK_OUT, every byte emitted since reset, first first (`spec/20_memory.md` R64) -/
  pkOut : List Byte
  /-- UP_OUT, every byte emitted since reset, first first (`spec/20_memory.md` R64) -/
  upOut : List Byte
  deriving DecidableEq, Repr

/-- NIL: the handle value 0 in a child field means "no such child" (`spec/20_memory.md` R63). -/
def nil : Handle := 0

/-- The root of the tree is handle 0 (`spec/20_memory.md` R63, R71). -/
def root : Handle := 0

/-- What an arena entry reads as that nothing has written: no leaf, no children; the sym and, for every handle but the
root, the whole entry are unspecified (R221) and this is the model's choice. DESIGN CHOICE (log 5), unsafe. -/
def Node.blank : Node := { leaf := false, sym := 0, c1 := nil, c0 := nil }

/-- A code table entry after reset: valid is 0 (R221); len and bits are unspecified there and 0 here.
DESIGN CHOICE (log 4), unsafe. -/
def CodeEntry.blank : CodeEntry := { valid := false, len := 0, bits := 0 }

/-- The reset state of R221 for a block with the given parameters, with these events still to come at its port. -/
def State.resetWith (c : Config) (port : List PortEvent) : State where
  cfg := c
  port := port
  stg := 0
  stglen := 0
  stgovf := false
  err := 0x00
  acc := 0
  nbits := 0
  code := Vector.replicate 256 CodeEntry.blank
  node := []
  nextFree := 1
  pos := root
  upState := .idle
  expected := 0
  decoded := 0
  bitpos := 0
  pkOut := []
  upOut := []

/-- The machine right after reset, with the default parameters of R5 and nothing presented yet. -/
def State.reset : State := State.resetWith Config.standard []

end Sys2Proof.Machine
end

