-- ==== Sys2Proof/Machine/Flags.lean ====
section
/-! DEFINITION. The flags: the seven bits of ERR (`spec/10_state.md` R35) and the codes of UP_STATE (R36). The block has
no arithmetic condition codes (R33). -/

namespace Sys2Proof.Machine

/-- The seven causes of R35; the cause code is the bit number (`spec/60_exceptions.md` R191 to R197). -/
inductive ErrCause where
  /-- E_ILLCMD, bit 0 (R191) -/
  | illcmd
  /-- E_LONG, bit 1 (R192) -/
  | long
  /-- E_EMPTY, bit 2 (R193) -/
  | empty
  /-- E_CONFLICT, bit 3 (R194) -/
  | conflict
  /-- E_BUSY, bit 4 (R195) -/
  | busy
  /-- E_NOCODE, bit 5 (R196) -/
  | nocode
  /-- E_ALLOC, bit 6, fatal (R197) -/
  | alloc
  deriving DecidableEq, Repr

/-- The bit of ERR a cause sets (R35). -/
def errBit : ErrCause → Nat
  | .illcmd => 0
  | .long => 1
  | .empty => 2
  | .conflict => 3
  | .busy => 4
  | .nocode => 5
  | .alloc => 6

/-- The mask of a cause's bit (R35). -/
def errMask (c : ErrCause) : BitVec 8 := 1#8 <<< errBit c

/-- ERR with the bit of a cause set; the others keep their values (`spec/60_exceptions.md` R203). -/
def setErr (err : BitVec 8) (c : ErrCause) : BitVec 8 := err ||| errMask c

/-- Whether ERR holds a cause. -/
def hasErr (err : BitVec 8) (c : ErrCause) : Bool := err.getLsbD (errBit c)

/-- The value of UP_STATE on the status port (R36). -/
def upStateCode : UpState → BitVec 3
  | .idle => 0
  | .run => 1
  | .complete => 2
  | .truncated => 3
  | .invalid => 4

end Sys2Proof.Machine
end

