-- ==== Sys2Proof/Machine/Operands.lean ====
section
/-! DEFINITION. The Code operand, which is assembled across several commands and read from a register pair (L, V)
(`spec/30_encoding.md` R97, `spec/00_scope.md` R8), and the bits of a payload byte. The other operands are single fields
of the command word (R96), taken in `Sys2Proof/Decode.lean`. -/

namespace Sys2Proof.Machine

/-- The bits of the Code (L, V), first bit first: bit k is V[L-1-k] (`spec/00_scope.md` R8). -/
def codeBits : Nat → CodeReg → Bits
  | 0, _ => []
  | n + 1, v => v.getLsbD n :: codeBits n v

/-- The value V = Σ c(k) · 2^(L-1-k) of a Code (`spec/00_scope.md` R8). -/
def codeValue (c : Bits) : Nat := c.foldl (fun v b => 2 * v + b.toNat) 0

/-- "a result assigned to an N-bit register keeps its low N bits" (`spec/00_scope.md` R7): here N = MAXLEN. -/
def fitCode (c : Config) (v : CodeReg) : CodeReg := BitVec.ofNat 255 (v.toNat % 2 ^ c.maxLen)

/-- `(STG << 1) | b` in a MAXLEN-bit register (`spec/40_common_loader.md` R122). -/
def shiftInCode (c : Config) (v : CodeReg) (b : Bool) : CodeReg :=
  fitCode c ((v <<< 1) ||| (BitVec.ofBool b).setWidth 255)

/-- The bits of a byte "from most-significant to least-significant" (`spec/20_memory.md` R66). -/
def byteBits (s : Byte) : Bits :=
  [s.getLsbD 7, s.getLsbD 6, s.getLsbD 5, s.getLsbD 4, s.getLsbD 3, s.getLsbD 2, s.getLsbD 1, s.getLsbD 0]

end Sys2Proof.Machine
end

