-- ==== Sys2Proof/Machine/Ops.lean ====
section
/-! DEFINITION. The named operations over the registers, the code table, the node arena, the output streams and ERR. -/

namespace Sys2Proof.Machine

/-! ## The node arena as a store (`spec/20_memory.md` R63) -/

/-- The entry of handle h; one that is not listed reads as `Node.blank`. -/
def Memory.read : Memory → Nat → Node
  | [], _ => Node.blank
  | (k, v) :: m, h => if k = h then v else Memory.read m h

/-- The arena with entry h written: the handles stay in rising order, and an entry that becomes `Node.blank` is not
listed. -/
def Memory.write : Memory → Nat → Node → Memory
  | [], h, x => if x = Node.blank then [] else [(h, x)]
  | (k, v) :: m, h, x =>
    if h < k then (if x = Node.blank then (k, v) :: m else (h, x) :: (k, v) :: m)
    else if h = k then (if x = Node.blank then m else (h, x) :: m)
    else (k, v) :: Memory.write m h x

/-- Every handle listed is at least lo, the handles rise strictly, and no entry is `Node.blank`. -/
def Memory.wfFrom : Nat → Memory → Bool
  | _, [] => true
  | lo, (k, v) :: m => decide (lo ≤ k) && decide (v ≠ Node.blank) && Memory.wfFrom (k + 1) m

/-- The canonical form: strictly rising handles, no entry equal to what an unlisted handle reads as. -/
def Memory.wf (m : Memory) : Bool := Memory.wfFrom 0 m

/-- The 41 bits of a node: leaf at 40, sym at 39:32, c1 at 31:16, c0 at 15:0 (R63). -/
def Node.pack (nd : Node) : BitVec 41 := BitVec.ofBool nd.leaf ++ nd.sym ++ nd.c1 ++ nd.c0

/-- The node that 41 bits stand for (R63). -/
def Node.unpack (v : BitVec 41) : Node where
  leaf := v.getLsbD 40
  sym := v.extractLsb' 32 8
  c1 := v.extractLsb' 16 16
  c0 := v.extractLsb' 0 16

/-- The left child on bit 0, the right child on bit 1 (R63). -/
def Node.child (nd : Node) (b : Bool) : Handle := if b then nd.c1 else nd.c0

/-- The node with one child field written. -/
def Node.setChild (nd : Node) (b : Bool) (h : Handle) : Node :=
  if b then { nd with c1 := h } else { nd with c0 := h }

/-- `NODE[h].leaf <- 0 ; NODE[h].c0 <- NIL ; NODE[h].c1 <- NIL` (`spec/42_unpack.md` R161, R162); sym is not written. -/
def Node.cleared (nd : Node) : Node := { nd with leaf := false, c0 := nil, c1 := nil }

/-- Node h of the arena as it stands. -/
def State.nodeAt (s : State) (h : Nat) : Node := s.node.read h

/-- A read of `NODE[h]`; entries from NNODES up do not exist (R63). -/
def nodeRead (s : State) (h : Handle) : Option Node :=
  if h.toNat < s.cfg.nNodes then some (s.nodeAt h.toNat) else none

/-- A write of `NODE[h]`. -/
def nodeWrite (h : Handle) (nd : Node) (s : State) : State := { s with node := s.node.write h.toNat nd }

/-- A write of some fields of `NODE[h]`; the others keep their values. -/
def nodeModify (h : Handle) (f : Node → Node) (s : State) : State := nodeWrite h (f (s.nodeAt h.toNat)) s

/-! ## The code table (`spec/20_memory.md` R62) -/

/-- `CODE[s]`. -/
def codeRead (s : State) (y : Symbol) : CodeEntry := s.code[y.toNat]'y.isLt

/-- `CODE[s] <- e`: the whole entry is replaced. -/
def codeWrite (y : Symbol) (e : CodeEntry) (s : State) : State := { s with code := s.code.set y.toNat e y.isLt }

/-- valid <- 0 in all 256 entries at once; len and bits are not written (R62, `spec/41_pack.md` R140). -/
def codeInvalidateAll (s : State) : State := { s with code := s.code.map fun e => { e with valid := false } }

/-! ## The staging register (`spec/10_state.md` R20 to R22) -/

/-- `STG <- 0 ; STGLEN <- 0 ; STGOVF <- 0`. -/
def clearStaging (s : State) : State := { s with stg := 0, stglen := 0, stgovf := false }

/-- The bits of the staged code, first bit first: the content of (STGLEN, STG) (`spec/30_encoding.md` R97). -/
def stagedBits (s : State) : Bits := codeBits s.stglen.toNat s.stg

/-! ## The output streams (`spec/20_memory.md` R64) -/

/-- `emit PK_OUT(b)`. -/
def emitPk (b : Byte) (s : State) : State := { s with pkOut := s.pkOut ++ [b] }

/-- `emit UP_OUT(b)`. -/
def emitUp (b : Byte) (s : State) : State := { s with upOut := s.upOut ++ [b] }

/-! ## Errors (`spec/60_exceptions.md` R202, R203) -/

/-- `raise E_X`: "sets the one bit of ERR and ends the command. Nothing is saved, no mode changes, no control is
transferred, no stack or vector is involved" (R202). There is no return beside it: "There is no return from an error,
because nothing was entered" (R203). -/
def raise (c : ErrCause) (s : State) : State := { s with err := setErr s.err c }

/-- The fatal condition: ERR bit 6 (`spec/30_encoding.md` R100). -/
def fatal (s : State) : Bool := hasErr s.err .alloc

/-! ## Reset and status -/

/-- The reset event at the port: the reset state whatever the state before (`spec/70_reset_and_hazards.md` R220, R222).
The parameters are the block's own (R47) and stay; what the HOST presents after the reset is still to come (log 9). -/
def portReset (s : State) : State := State.resetWith s.cfg s.port

/-- The status outputs S0 to S5 (`spec/10_state.md` R34 to R41). -/
structure Status where
  err : BitVec 8
  upState : BitVec 3
  expected : BitVec 32
  decoded : BitVec 32
  bitpos : BitVec 40
  pkNbits : BitVec 3
  deriving DecidableEq, Repr

/-- The status port between two commands (`spec/10_state.md` R41). -/
def State.status (s : State) : Status where
  err := s.err
  upState := upStateCode s.upState
  expected := s.expected
  decoded := s.decoded
  bitpos := s.bitpos
  pkNbits := s.nbits

/-- All that can be observed of the block: the two streams and the status registers (`spec/00_scope.md` R10). -/
structure Observation where
  pkOut : List Byte
  upOut : List Byte
  status : Status
  deriving DecidableEq, Repr

/-- The observation of a state (`spec/00_scope.md` R10). -/
def State.observe (s : State) : Observation where
  pkOut := s.pkOut
  upOut := s.upOut
  status := s.status

/-- One effect after another: the second starts from the next state of the first. -/
def andThen (o : Host.Outcome State Fault Refusal) (f : State → Host.Outcome State Fault Refusal) :
    Host.Outcome State Fault Refusal :=
  match o with
  | .next s => f s
  | .fault r => .fault r
  | .refused r => .refused r

end Sys2Proof.Machine
end

