-- ==== Sys2Proof/Machine/Common.lean ====
section
/-! DEFINITION. The commands of the front end: NOP, CCLR, CBIT (`spec/40_common_loader.md`). -/

namespace Sys2Proof.Machine

/-- NOP (R120): done. -/
def execNop (s : State) : Host.Outcome State Fault Refusal := .next s

/-- CCLR (R121). -/
def execCclr (s : State) : Host.Outcome State Fault Refusal := .next (clearStaging s)

/-- Append one bit to the staged code, or note that the code is too long (R122). -/
def stageBit (b : Bool) (s : State) : State :=
  if s.stglen.toNat = s.cfg.maxLen then { s with stgovf := true }
  else { s with stg := shiftInCode s.cfg s.stg b, stglen := s.stglen + 1 }

/-- CBIT b (R122). -/
def execCbit (b : Bool) (s : State) : Host.Outcome State Fault Refusal := .next (stageBit b s)

end Sys2Proof.Machine
end

