-- ==== Sys2Proof/Machine/Pack.lean ====
section
/-! DEFINITION. The commands of the PACK unit: PKCLR, PKDEF, PKSYM, PKFLUSH (`spec/41_pack.md`). -/

namespace Sys2Proof.Machine

/-- PKCLR (R140). -/
def execPkclr (s : State) : Host.Outcome State Fault Refusal :=
  .next (codeInvalidateAll { s with acc := 0, nbits := 0 })

/-- PKDEF s (R141): the staging register is consumed before the checks. -/
def execPkdef (y : Symbol) (s : State) : Host.Outcome State Fault Refusal :=
  if s.stgovf then .next (raise .long (clearStaging s))
  else if s.stglen = 0 then .next (raise .empty (clearStaging s))
  else .next (codeWrite y { valid := true, len := s.stglen, bits := s.stg } (clearStaging s))

/-- The body of PKSYM's loop (R143): one code bit into the accumulator, a byte out when eight have gathered. -/
def packBit (b : Bool) (s : State) : State :=
  let a : BitVec 8 := (s.acc <<< 1) ||| (BitVec.ofBool b).setWidth 8
  if s.nbits = 7 then emitPk a { s with acc := 0, nbits := 0 } else { s with acc := a, nbits := s.nbits + 1 }

/-- PKSYM's loop over the bits of a Code, first bit first (R143). -/
def packBits (bs : Bits) (s : State) : State :=
  match bs with
  | [] => s
  | b :: bs => packBits bs (packBit b s)

/-- PKSYM s (R143). -/
def execPksym (y : Symbol) (s : State) : Host.Outcome State Fault Refusal :=
  let e := codeRead s y
  if e.valid then .next (packBits (codeBits e.len.toNat e.bits) s) else .next (raise .nocode s)

/-- PKFLUSH (R144). -/
def execPkflush (s : State) : Host.Outcome State Fault Refusal :=
  if s.nbits = 0 then .next s
  else .next (emitPk (s.acc <<< (8 - s.nbits.toNat)) { s with acc := 0, nbits := 0 })

end Sys2Proof.Machine
end

