-- ==== Sys2Proof/Machine/Unpack.lean ====
section
/-! DEFINITION. The commands of the UNPACK unit: UPCLR, UPINS, UPSTART, UPBYTE, UPEND (`spec/42_unpack.md`). -/

namespace Sys2Proof.Machine

/-- UPCLR (R161). -/
def execUpclr (s : State) : Host.Outcome State Fault Refusal :=
  if s.upState = .run then .next (raise .busy s)
  else .next (nodeModify root Node.cleared { s with nextFree := 1, pos := root })

/-- Where phase 1 of UPINS ends (R162). -/
inductive Descent where
  /-- a node of the path does not exist in the arena -/
  | outside (h : Handle)
  /-- check 4a or 4b: an existing code is a prefix of the new one, or the whole path exists already -/
  | conflict
  /-- node p is no leaf and its child for the first of the remaining bits is absent -/
  | absent (p : Handle) (rest : Bits)
  deriving DecidableEq, Repr

/-- Phase 1 of UPINS (R162): follow the part of the path that already exists; nothing is written. -/
def descend (s : State) (p : Handle) : Bits → Descent
  | [] => .conflict
  | b :: bs =>
    match nodeRead s p with
    | none => .outside p
    | some nd =>
      if nd.leaf then .conflict
      else if nd.child b = nil then .absent p (b :: bs)
      else descend s (nd.child b) bs

/-- One round of phase 2 of UPINS (R162): a new node h = NEXT_FREE, made the child of p for bit b. -/
def growOne (p : Handle) (b : Bool) (s : State) : State :=
  let h := s.nextFree.setWidth 16
  let s := { s with nextFree := s.nextFree + 1 }
  let s := nodeModify h Node.cleared s
  nodeModify p (fun nd => nd.setChild b h) s

/-- Phase 2 of UPINS (R162): create the missing nodes, root side first; the last one created is the leaf. -/
def growPath (y : Symbol) (p : Handle) : Bits → State → State
  | [], s => nodeModify p (fun nd => { nd with leaf := true, sym := y }) s
  | b :: bs, s => growPath y (s.nextFree.setWidth 16) bs (growOne p b s)

/-- UPINS after checks 1 to 3, on a state whose staging register is already cleared: checks 4 and 5 and the insertion of
the code c (R162). -/
def insertCode (y : Symbol) (c : Bits) (s : State) : Host.Outcome State Fault Refusal :=
  match descend s root c with
  | .outside h => .fault (.nodeOutOfRange h)
  | .conflict => .next (raise .conflict s)
  | .absent p rest =>
    if s.nextFree.toNat + rest.length > s.cfg.nNodes then .next (raise .alloc s)
    else .next (growPath y p rest s)

/-- UPINS s (R162): the staging register is consumed before the checks, which come in the order of
`spec/60_exceptions.md` R200. -/
def execUpins (y : Symbol) (s : State) : Host.Outcome State Fault Refusal :=
  if s.upState = .run then .next (raise .busy (clearStaging s))
  else if s.stgovf then .next (raise .long (clearStaging s))
  else if s.stglen = 0 then .next (raise .empty (clearStaging s))
  else insertCode y (stagedBits s) (clearStaging s)

/-- UPSTART n (R164). -/
def execUpstart (n : BitVec 32) (s : State) : Host.Outcome State Fault Refusal :=
  .next { s with
    expected := n
    decoded := 0
    bitpos := 0
    pos := root
    upState := if n = 0 then .complete else .run }

/-- A leaf is reached: emit its Symbol, count it, return to the root, test the count (R166). -/
def emitLeaf (y : Symbol) (s : State) : State :=
  let s := emitUp y { s with decoded := s.decoded + 1, pos := root }
  if s.decoded = s.expected then { s with upState := .complete } else s

/-- The step of the walk on one payload bit (R166). -/
def walkBit (x : Bool) (s : State) : Host.Outcome State Fault Refusal :=
  match nodeRead s s.pos with
  | none => .fault (.nodeOutOfRange s.pos)
  | some nd =>
    if nd.child x = nil then .next { s with upState := .invalid }
    else
      match nodeRead s (nd.child x) with
      | none => .fault (.nodeOutOfRange (nd.child x))
      | some ch =>
        let s := { s with bitpos := s.bitpos + 1, pos := nd.child x }
        if ch.leaf then .next (emitLeaf ch.sym s) else .next s

/-- UPBYTE's loop (R167): it breaks as soon as the state is not RUN. -/
def walkBits : Bits → State → Host.Outcome State Fault Refusal
  | [], s => .next s
  | x :: xs, s => if s.upState = .run then andThen (walkBit x s) (walkBits xs) else .next s

/-- UPBYTE s (R167): the bits of s from bit 7 down to bit 0. -/
def execUpbyte (b : Byte) (s : State) : Host.Outcome State Fault Refusal := walkBits (byteBits b) s

/-- UPEND (R170). -/
def execUpend (s : State) : Host.Outcome State Fault Refusal :=
  .next (if s.upState = .run then { s with upState := .truncated } else s)

end Sys2Proof.Machine
end

