-- ==== Sys2Proof/Machine/Dispatch.lean ====
section
/-! DEFINITION. What each command does once it is executed, step 4 of `spec/30_encoding.md` R92: one arm per command. -/

namespace Sys2Proof.Machine

def exec (i : Instr) (s : State) : Host.Outcome State Fault Refusal :=
  match i with
  | .nop => Sys2Proof.Machine.execNop s
  | .cclr => Sys2Proof.Machine.execCclr s
  | .cbit b => Sys2Proof.Machine.execCbit b s
  | .pkclr => Sys2Proof.Machine.execPkclr s
  | .pkdef y => Sys2Proof.Machine.execPkdef y s
  | .pksym y => Sys2Proof.Machine.execPksym y s
  | .pkflush => Sys2Proof.Machine.execPkflush s
  | .upclr => Sys2Proof.Machine.execUpclr s
  | .upins y => Sys2Proof.Machine.execUpins y s
  | .upstart n => Sys2Proof.Machine.execUpstart n s
  | .upbyte b => Sys2Proof.Machine.execUpbyte b s
  | .upend => Sys2Proof.Machine.execUpend s

end Sys2Proof.Machine
end

