-- ==== Sys2Proof/Machine/Frontend.lean ====
section
/-! DEFINITION. The command front end: accepting one word (`spec/30_encoding.md` R92), taking the next event at the port,
and runs of words (`spec/00_scope.md` R10). -/

namespace Sys2Proof.Machine

/-- One command word accepted: the four steps of R92, in their order. -/
def accept (w : CmdWord) (s : State) : Host.Outcome State Fault Refusal :=
  if fatal s then .next s
  else
    match decode w with
    | .illegal _ => .next (raise .illcmd s)
    | .cmd i => exec i s

/-- The next event at the port. "the block does nothing until the first command word" (`spec/70_reset_and_hazards.md`
R223): with nothing presented the state stays. -/
def serve (s : State) : Host.Outcome State Fault Refusal :=
  match s.port with
  | [] => .next s
  | .reset :: rest => .next (portReset { s with port := rest })
  | .word w :: rest => accept w { s with port := rest }

/-- A run of command words, one after another (`spec/00_scope.md` R10, `spec/20_memory.md` R72). -/
def runWords : List CmdWord → State → Host.Outcome State Fault Refusal
  | [], s => .next s
  | w :: ws, s => andThen (accept w s) (runWords ws)

/-- A run of the words of some commands. -/
def runCmds (is : List Instr) (s : State) : Host.Outcome State Fault Refusal := runWords (is.map encode) s

/-- The HOST presents one more word, to be taken before all that is already presented. -/
def presentFirst (w : CmdWord) (s : State) : State := { s with port := .word w :: s.port }

end Sys2Proof.Machine
end

