-- ==== Sys2Proof/Machine/Step.lean ====
section
/-! DEFINITION. One step of the machine, and the placing of a word where the next step takes it. -/

namespace Sys2Proof.Machine

/-- One step: the next event at the port, or nothing when none is presented. -/
def step (s : State) : Host.Outcome State Fault Refusal := serve s

/-- s with one command word at the head of its port, so that the next step accepts exactly it (log 2). -/
def State.withFetchWord (s : State) (nbits w : Nat) : State := presentFirst (tableWord nbits w) s

end Sys2Proof.Machine
end

