-- ==== Sys2Proof/Machine/Script.lean ====
section
/-! DEFINITION. The script syntax of `spec/30_encoding.md` R104 and R105: reading a line of text, expanding it to commands,
and encoding them. -/

namespace Sys2Proof.Machine

/-! ## Expansion (R105) -/

/-- CCLR and then one CBIT per bit, first bit first: how a Code is staged whatever was staged before (R97, R105). -/
def stageCode (c : Bits) : List Instr := .cclr :: c.map .cbit

/-- `DEFCODE s, "c"` (R105). -/
def defCode (y : Symbol) (c : Bits) : List Instr := stageCode c ++ [.pkdef y]

/-- `INSCODE s, "c"` (R105). -/
def insCode (y : Symbol) (c : Bits) : List Instr := stageCode c ++ [.upins y]

/-- The characters of a code string, left to right, '0' for bit 0 and '1' for bit 1 (R97). -/
def codeOfString (code : List Char) : Bits := code.map fun x => x == '1'

/-- The commands of a script line whose operands are in range (R104, R105). -/
def expandLine : ScriptLine → List Instr
  | .nop => [.nop]
  | .cclr => [.cclr]
  | .cbit b => [.cbit (b == 1)]
  | .pkclr => [.pkclr]
  | .pkdef s => [.pkdef (BitVec.ofNat 8 s)]
  | .pksym s => [.pksym (BitVec.ofNat 8 s)]
  | .pkflush => [.pkflush]
  | .upclr => [.upclr]
  | .upins s => [.upins (BitVec.ofNat 8 s)]
  | .upstart n => [.upstart (BitVec.ofNat 32 n)]
  | .upbyte s => [.upbyte (BitVec.ofNat 8 s)]
  | .upend => [.upend]
  | .defcode s code => defCode (BitVec.ofNat 8 s) (codeOfString code)
  | .inscode s code => insCode (BitVec.ofNat 8 s) (codeOfString code)
  | .pack bytes => bytes.map fun b => .pksym (BitVec.ofNat 8 b)
  | .packstr text => text.map fun x => .pksym (BitVec.ofNat 8 x.toNat)
  | .unpack bytes => bytes.map fun b => .upbyte (BitVec.ofNat 8 b)

/-- The words of a line; a line that fails a check is never encoded (R104). -/
def assembleLine (c : Config) (l : ScriptLine) : Option (List CmdWord) :=
  if l.wf c then some ((expandLine l).map encode) else none

/-- The words of a whole script; one line that fails rejects it. -/
def assemble (c : Config) : List ScriptLine → Option (List CmdWord)
  | [] => some []
  | l :: ls =>
    match assembleLine c l, assemble c ls with
    | some ws, some rest => some (ws ++ rest)
    | _, _ => none

/-! ## Reading a line of text (R104). What R104 leaves open here is in log 11. -/

/-- The pieces of a line. -/
inductive Token where
  /-- a mnemonic or a number -/
  | word (t : List Char)
  /-- a character in single quotes -/
  | chr (x : Char)
  /-- a string in double quotes -/
  | str (t : List Char)
  | comma
  deriving DecidableEq, Repr

/-- Where the reader of a line stands. -/
inductive LexMode where
  | gap
  | inWord (t : List Char)
  | inStr (t : List Char)
  | chrOpen
  | chrClose (x : Char)
  deriving DecidableEq, Repr

/-- The double quote character. -/
def dquote : Char := Char.ofNat 34

/-- The single quote character. -/
def squote : Char := Char.ofNat 39

/-- The tokens of a line, up to its comment. R104 and R105 put a space between operands; after a closing quote the next
operand may also follow at once, and a quote that follows a mnemonic or a number at once rejects the line. DESIGN CHOICE
(log 11). -/
def lexLine : LexMode → List Char → Option (List Token)
  | .gap, [] => some []
  | .inWord t, [] => some [.word t]
  | .inStr _, [] => none
  | .chrOpen, [] => none
  | .chrClose _, [] => none
  | .gap, x :: xs =>
    if x = ';' then some []
    else if x = ' ' then lexLine .gap xs
    else if x = ',' then (lexLine .gap xs).map (Token.comma :: ·)
    else if x = dquote then lexLine (.inStr []) xs
    else if x = squote then lexLine .chrOpen xs
    else lexLine (.inWord [x]) xs
  | .inWord t, x :: xs =>
    if x = ';' then some [.word t]
    else if x = ' ' then (lexLine .gap xs).map (Token.word t :: ·)
    else if x = ',' then (lexLine .gap xs).map fun ts => .word t :: .comma :: ts
    else if x = dquote ∨ x = squote then none
    else lexLine (.inWord (t ++ [x])) xs
  | .inStr t, x :: xs =>
    if x = dquote then (lexLine .gap xs).map (Token.str t :: ·) else lexLine (.inStr (t ++ [x])) xs
  | .chrOpen, x :: xs => lexLine (.chrClose x) xs
  | .chrClose x, y :: xs =>
    if y = squote then (lexLine .gap xs).map (Token.chr x :: ·) else none

/-- The value of a digit in the given base. -/
def digit? (base : Nat) (x : Char) : Option Nat :=
  let v := if '0' ≤ x ∧ x ≤ '9' then some (x.toNat - 48)
    else if 'a' ≤ x ∧ x ≤ 'f' then some (x.toNat - 87)
    else if 'A' ≤ x ∧ x ≤ 'F' then some (x.toNat - 55)
    else none
  match v with
  | some d => if d < base then some d else none
  | none => none

/-- A number from its digits, most significant first. -/
def digits? (base : Nat) : Nat → List Char → Option Nat
  | v, [] => some v
  | v, x :: xs =>
    match digit? base x with
    | some d => digits? base (base * v + d) xs
    | none => none

/-- "a decimal number, a hexadecimal number with `0x`" (R104). -/
def number? : List Char → Option Nat
  | [] => none
  | ['0', 'x'] => none
  | '0' :: 'x' :: xs => digits? 16 0 xs
  | xs => digits? 10 0 xs

/-- A number operand. -/
def numOperand? : Token → Option Nat
  | .word t => number? t
  | .chr _ => none
  | .str _ => none
  | .comma => none

/-- An operand that is a Symbol or byte: a number, or "a printable ASCII character in single quotes" (R104). -/
def byteOperand? : Token → Option Nat
  | .word t => number? t
  | .chr x => if printableAscii x then some x.toNat else none
  | .str _ => none
  | .comma => none

/-- All the operands of a list, or none. -/
def byteOperands? : List Token → Option (List Nat)
  | [] => some []
  | t :: ts =>
    match byteOperand? t, byteOperands? ts with
    | some b, some bs => some (b :: bs)
    | _, _ => none

/-- The operands of DEFCODE and INSCODE: a Symbol, a comma and a code string (R105). -/
def codeOperands? : List Token → Option (Nat × List Char)
  | [t, .comma, .str code] =>
    match byteOperand? t with
    | some b => some (b, code)
    | none => none
  | _ => none

/-- The line of a mnemonic and its operands (R104, R105). -/
def lineOf? (m : List Char) (ts : List Token) : Option ScriptLine :=
  if m = ['N', 'O', 'P'] ∧ ts = [] then some .nop
  else if m = ['C', 'C', 'L', 'R'] ∧ ts = [] then some .cclr
  else if m = ['P', 'K', 'C', 'L', 'R'] ∧ ts = [] then some .pkclr
  else if m = ['P', 'K', 'F', 'L', 'U', 'S', 'H'] ∧ ts = [] then some .pkflush
  else if m = ['U', 'P', 'C', 'L', 'R'] ∧ ts = [] then some .upclr
  else if m = ['U', 'P', 'E', 'N', 'D'] ∧ ts = [] then some .upend
  else if m = ['P', 'A', 'C', 'K'] then (byteOperands? ts).map .pack
  else if m = ['U', 'N', 'P', 'A', 'C', 'K'] then (byteOperands? ts).map .unpack
  else if m = ['D', 'E', 'F', 'C', 'O', 'D', 'E'] then (codeOperands? ts).map fun o => .defcode o.1 o.2
  else if m = ['I', 'N', 'S', 'C', 'O', 'D', 'E'] then (codeOperands? ts).map fun o => .inscode o.1 o.2
  else
    match ts with
    | [t] =>
      if m = ['C', 'B', 'I', 'T'] then (numOperand? t).map .cbit
      else if m = ['U', 'P', 'S', 'T', 'A', 'R', 'T'] then (numOperand? t).map .upstart
      else if m = ['P', 'K', 'D', 'E', 'F'] then (byteOperand? t).map .pkdef
      else if m = ['P', 'K', 'S', 'Y', 'M'] then (byteOperand? t).map .pksym
      else if m = ['U', 'P', 'I', 'N', 'S'] then (byteOperand? t).map .upins
      else if m = ['U', 'P', 'B', 'Y', 'T', 'E'] then (byteOperand? t).map .upbyte
      else if m = ['P', 'A', 'C', 'K', 'S', 'T', 'R'] then
        match t with
        | .str text => some (.packstr text)
        | .word _ => none
        | .chr _ => none
        | .comma => none
      else none
    | _ => none

/-- A line of text: no command, one command or pseudo-command, or a line the reader rejects (R104). -/
def readLine? (text : List Char) : Option (Option ScriptLine) :=
  match lexLine .gap text with
  | some [] => some none
  | some (.word m :: ts) => (lineOf? m ts).map some
  | _ => none

end Sys2Proof.Machine
end

