-- ==== Sys2Proof/Safety.lean ====
section
/-! DEFINITION. The terms the statements use: a safe outcome, the abstract tree of `spec/42_unpack.md` R160, the greedy
parse of R169, the invariants of `spec/10_state.md` R43 to R46, and what is unspecified (`spec/70_reset_and_hazards.md`
R221). -/

namespace Sys2Proof.Machine

/-- A safe outcome: the machine goes on. A safe run is one whose every step is safe. -/
def Safe (o : Host.Outcome State Fault Refusal) : Prop := ∃ t, o = .next t

/-- k steps, one after another, stopping where a step stops. -/
def runSteps : Nat → State → Host.Outcome State Fault Refusal
  | 0, s => .next s
  | k + 1, s => andThen (step s) (runSteps k)

/-! ## Bits in the accumulator and in a stream -/

/-- The bits gathered in ACC and not emitted yet, first accumulated bit first (`spec/10_state.md` R23). -/
def pendingBits (s : State) : Bits := codeBits s.nbits.toNat (s.acc.setWidth 255)

/-- The bits of a byte stream in the order of `spec/20_memory.md` R65 and R66. -/
def streamBits (bytes : List Byte) : Bits := bytes.flatMap byteBits

/-! ## The abstract tree (`spec/42_unpack.md` R160) -/

/-- The handle in the child field of node h for bit b; 0 is NIL. -/
def State.childAt (s : State) (h : Nat) (b : Bool) : Nat := ((s.nodeAt h).child b).toNat

/-- The node that a bit sequence leads to from node h, if there is one. -/
def follow (s : State) (h : Nat) : Bits → Option Nat
  | [] => some h
  | b :: bs => if s.childAt h b = 0 then none else follow s (s.childAt h b) bs

/-- (c, y) is in the set K of R160: the path c from the root ends in a leaf with Symbol y. -/
def HasCode (s : State) (c : Bits) (y : Symbol) : Prop :=
  ∃ h, follow s 0 c = some h ∧ (s.nodeAt h).leaf = true ∧ (s.nodeAt h).sym = y

/-- p is a prefix, proper or not, of some code of K. -/
def IsCodePrefix (K : Bits → Symbol → Prop) (p : Bits) : Prop := ∃ c y, K c y ∧ p <+: c

/-- No code of K is a prefix of another, and no code has two Symbols. -/
def PrefixFree (K : Bits → Symbol → Prop) : Prop :=
  ∀ c y c' y', K c y → K c' y' → c <+: c' → c = c' ∧ y = y'

/-- The greedy parse of R169: `Parse K n xs ys p v` says that, with n symbols still expected, the bits xs give the
Symbols ys, p bits are consumed, and the run then stands in state v. -/
inductive Parse (K : Bits → Symbol → Prop) : Nat → Bits → List Symbol → Nat → UpState → Prop
  /-- "when DECODED reaches n the run is COMPLETE" -/
  | count (xs : Bits) : Parse K 0 xs [] 0 .complete
  /-- "the unique code of K that is a prefix of the remaining bits": emit its Symbol, advance by its length -/
  | code (n : Nat) (c : Bits) (y : Symbol) (xs : Bits) (ys : List Symbol) (p : Nat) (v : UpState) :
      K c y → Parse K n xs ys p v → Parse K (n + 1) (c ++ xs) (y :: ys) (c.length + p) v
  /-- "before any code of K matches, a bit that leads outside the set of prefixes of K": b is that bit -/
  | invalid (n : Nat) (q : Bits) (b : Bool) (xs : Bits) :
      (q = [] ∨ IsCodePrefix K q) → (∀ y, ¬ K q y) → ¬ IsCodePrefix K (q ++ [b]) →
      Parse K (n + 1) (q ++ b :: xs) [] q.length .invalid
  /-- "the bits fed so far end inside a codeword or between codewords" -/
  | more (n : Nat) (xs : Bits) :
      (xs = [] ∨ IsCodePrefix K xs) → (∀ y, ¬ K xs y) → Parse K (n + 1) xs [] xs.length .run

/-! ## The invariants (`spec/10_state.md` section 9) -/

/-- The front end (R43). -/
structure FrontInv (s : State) : Prop where
  stglen_le : s.stglen.toNat ≤ s.cfg.maxLen
  stg_lt : s.stg.toNat < 2 ^ s.stglen.toNat
  stgovf_full : s.stgovf = true → s.stglen.toNat = s.cfg.maxLen

/-- The PACK unit (R44, R25). -/
structure PackInv (s : State) : Prop where
  acc_lt : s.acc.toNat < 2 ^ s.nbits.toNat
  len_pos : ∀ y, (codeRead s y).valid = true → 1 ≤ (codeRead s y).len.toNat
  len_le : ∀ y, (codeRead s y).valid = true → (codeRead s y).len.toNat ≤ s.cfg.maxLen
  bits_lt : ∀ y, (codeRead s y).valid = true → (codeRead s y).bits.toNat < 2 ^ (codeRead s y).len.toNat

/-- The tree (R45). `child_above` is not in R45: new nodes get rising handles (R71, R162), so a child's handle is above
its parent's. -/
structure TreeInv (s : State) : Prop where
  canonical : s.node.wf = true
  one_le_nextFree : 1 ≤ s.nextFree.toNat
  nextFree_le : s.nextFree.toNat ≤ s.cfg.nNodes
  child_lt : ∀ h, h < s.nextFree.toNat → ∀ b, s.childAt h b < s.nextFree.toNat
  child_above : ∀ h, h < s.nextFree.toNat → ∀ b, s.childAt h b ≠ 0 → h < s.childAt h b
  has_parent : ∀ h, 1 ≤ h → h < s.nextFree.toNat → ∃ p b, p < s.nextFree.toNat ∧ s.childAt p b = h
  one_parent : ∀ p p' b b', p < s.nextFree.toNat → p' < s.nextFree.toNat → s.childAt p b ≠ 0 →
    s.childAt p b = s.childAt p' b' → p = p' ∧ b = b'
  root_inner : (s.nodeAt 0).leaf = false
  leaf_bare : ∀ h, h < s.nextFree.toNat → (s.nodeAt h).leaf = true → ∀ b, s.childAt h b = 0
  inner_parent : ∀ h, 1 ≤ h → h < s.nextFree.toNat → (s.nodeAt h).leaf = false → ∃ b, s.childAt h b ≠ 0
  depth_le : ∀ c h, follow s 0 c = some h → c.length ≤ s.cfg.maxLen
  pos_lt : s.pos.toNat < s.nextFree.toNat
  pos_inner : (s.nodeAt s.pos.toNat).leaf = false

/-- The counters of the UNPACK unit (R46). -/
structure CountInv (s : State) : Prop where
  idle_zero : s.upState = .idle → s.expected = 0 ∧ s.decoded = 0 ∧ s.bitpos = 0
  decoded_le : s.decoded.toNat ≤ s.expected.toNat
  run_lt : s.upState = .run → s.decoded.toNat < s.expected.toNat
  complete_iff : s.upState = .complete ↔ s.upState ≠ .idle ∧ s.decoded = s.expected
  decoded_le_bitpos : s.decoded.toNat ≤ s.bitpos.toNat
  bitpos_le : s.bitpos.toNat ≤ s.decoded.toNat * s.cfg.maxLen + (s.cfg.maxLen - 1)

/-- In a run, the payload bits not yet accounted for by whole codewords are those of the path to POS. -/
def WalkInv (s : State) : Prop :=
  s.upState = .run →
    ∃ q, follow s 0 q = some s.pos.toNat ∧ s.bitpos.toNat ≤ s.decoded.toNat * s.cfg.maxLen + q.length

/-- All the invariants together: the parameters in their ranges (R5), R43 to R46, and ERR bit 7 (R35). -/
structure BlockInv (s : State) : Prop where
  cfg : s.cfg.wf
  front : FrontInv s
  pack : PackInv s
  tree : TreeInv s
  count : CountInv s
  walk : WalkInv s
  err7 : s.err.getLsbD 7 = false

/-! ## What a block holds that is unspecified (`spec/70_reset_and_hazards.md` R221) -/

/-- Two states that differ at most in what R221 calls unspecified: len and bits of entries that are not valid, nodes
that are not allocated, the sym of nodes that are no leaf. -/
structure SameButUnspecified (s t : State) : Prop where
  rest : t = { s with code := t.code, node := t.node }
  valid : ∀ y, (codeRead s y).valid = (codeRead t y).valid
  entry : ∀ y, (codeRead s y).valid = true → codeRead s y = codeRead t y
  leaf : ∀ h, h < s.nextFree.toNat → (s.nodeAt h).leaf = (t.nodeAt h).leaf
  child : ∀ h, h < s.nextFree.toNat → ∀ b, (s.nodeAt h).child b = (t.nodeAt h).child b
  sym : ∀ h, h < s.nextFree.toNat → (s.nodeAt h).leaf = true → (s.nodeAt h).sym = (t.nodeAt h).sym

/-! ## The two units (`spec/20_memory.md` R73) -/

/-- The commands of the PACK family. -/
def isPackCommand : Instr → Bool
  | .pkclr => true
  | .pkdef _ => true
  | .pksym _ => true
  | .pkflush => true
  | .nop => false
  | .cclr => false
  | .cbit _ => false
  | .upclr => false
  | .upins _ => false
  | .upstart _ => false
  | .upbyte _ => false
  | .upend => false

/-- The commands of the UNPACK family. -/
def isUnpackCommand : Instr → Bool
  | .upclr => true
  | .upins _ => true
  | .upstart _ => true
  | .upbyte _ => true
  | .upend => true
  | .nop => false
  | .cclr => false
  | .cbit _ => false
  | .pkclr => false
  | .pkdef _ => false
  | .pksym _ => false
  | .pkflush => false

/-- The commands that read or write the staging register. -/
def usesStaging : Instr → Bool
  | .cclr => true
  | .cbit _ => true
  | .pkdef _ => true
  | .upins _ => true
  | .nop => false
  | .pkclr => false
  | .pksym _ => false
  | .pkflush => false
  | .upclr => false
  | .upstart _ => false
  | .upbyte _ => false
  | .upend => false

/-- s with the UNPACK state of u. -/
def withUnpackOf (u s : State) : State :=
  { s with
    node := u.node
    nextFree := u.nextFree
    pos := u.pos
    upState := u.upState
    expected := u.expected
    decoded := u.decoded
    bitpos := u.bitpos
    upOut := u.upOut }

/-- s with the PACK state of u. -/
def withPackOf (u s : State) : State :=
  { s with code := u.code, acc := u.acc, nbits := u.nbits, pkOut := u.pkOut }

/-! ## The opcode table (`spec/30_encoding.md` R98) -/

/-- The rows of R98, each its match and its mask. -/
def opcodeRows : List (CmdWord × CmdWord) :=
  [(0x0000000000, 0xFFFFFFFFFF), (0x0100000000, 0xFFFFFFFFFF), (0x0200000000, 0xFFFFFFFFFE),
   (0x1000000000, 0xFFFFFFFFFF), (0x1100000000, 0xFFFFFFFF00), (0x1200000000, 0xFFFFFFFF00),
   (0x1300000000, 0xFFFFFFFFFF), (0x2000000000, 0xFFFFFFFFFF), (0x2100000000, 0xFFFFFFFF00),
   (0x2200000000, 0xFF00000000), (0x2300000000, 0xFFFFFFFF00), (0x2400000000, 0xFFFFFFFFFF)]

/-- A word that matches some row of R98. -/
abbrev MatchesRow (w : CmdWord) : Prop := ∃ r ∈ opcodeRows, w &&& r.2 = r.1

/-- The words that leave the staging register alone: illegal words and the commands of R123's list. -/
def keepsStaging (w : CmdWord) : Bool :=
  match decode w with
  | .illegal _ => true
  | .cmd i => !usesStaging i

/-- The bit a word stages, if it is a CBIT. -/
def stagedBit? (w : CmdWord) : Option Bool :=
  match decode w with
  | .cmd (.cbit b) => some b
  | _ => none

/-- The word is a PKDEF of y that the block executes in state s and that passes its checks (R141). -/
def pkdefSucceeds (w : CmdWord) (s : State) (y : Symbol) : Prop :=
  decode w = .cmd (.pkdef y) ∧ s.err.getLsbD 6 = false ∧ s.stgovf = false ∧ s.stglen ≠ 0

/-- The Symbol a word packs, if it is a PKSYM. -/
def packedSymbol? (w : CmdWord) : Option Symbol :=
  match decode w with
  | .cmd (.pksym y) => some y
  | _ => none

end Sys2Proof.Machine
end

