-- ==== Sys2Proof/Certificates/Slice0/Obligations.lean ====
section
/-! DEFINITION. The statements for the provers, one definition each; OBLIGATIONS.json lists them. -/

open Sys2Proof Sys2Proof.Machine

/-! ## Encoding -/

/-- `spec/30_encoding.md` R90 to R98: decoding the word of a command gives the command, at every operand. -/
def Obligations.DecodeOfEncodeIsTheCommand : Prop :=
  ∀ i : Instr, decode (encode i) = .cmd i

/-- `spec/30_encoding.md` R98, R99: each command has one word; there are no aliases. -/
def Obligations.EncodeOfDecodeIsTheWord : Prop :=
  ∀ (w : CmdWord) (i : Instr), decode w = .cmd i → encode i = w

/-- `spec/30_encoding.md` R98, R96: a word is a command if and only if it agrees with the row's match under the row's
mask, and its operand is the field the format names. -/
def Obligations.WordIsCommandIffMaskMatches : Prop :=
  ∀ w : CmdWord,
    (decode w = .cmd .nop ↔ w &&& 0xFFFFFFFFFF = 0x0000000000) ∧
    (decode w = .cmd .cclr ↔ w &&& 0xFFFFFFFFFF = 0x0100000000) ∧
    ((∃ b, decode w = .cmd (.cbit b)) ↔ w &&& 0xFFFFFFFFFE = 0x0200000000) ∧
    (decode w = .cmd .pkclr ↔ w &&& 0xFFFFFFFFFF = 0x1000000000) ∧
    ((∃ y, decode w = .cmd (.pkdef y)) ↔ w &&& 0xFFFFFFFF00 = 0x1100000000) ∧
    ((∃ y, decode w = .cmd (.pksym y)) ↔ w &&& 0xFFFFFFFF00 = 0x1200000000) ∧
    (decode w = .cmd .pkflush ↔ w &&& 0xFFFFFFFFFF = 0x1300000000) ∧
    (decode w = .cmd .upclr ↔ w &&& 0xFFFFFFFFFF = 0x2000000000) ∧
    ((∃ y, decode w = .cmd (.upins y)) ↔ w &&& 0xFFFFFFFF00 = 0x2100000000) ∧
    ((∃ n, decode w = .cmd (.upstart n)) ↔ w &&& 0xFF00000000 = 0x2200000000) ∧
    ((∃ b, decode w = .cmd (.upbyte b)) ↔ w &&& 0xFFFFFFFF00 = 0x2300000000) ∧
    (decode w = .cmd .upend ↔ w &&& 0xFFFFFFFFFF = 0x2400000000) ∧
    (∀ b, decode w = .cmd (.cbit b) → b = w.getLsbD 0) ∧
    (∀ y, decode w = .cmd (.pkdef y) ∨ decode w = .cmd (.pksym y) ∨ decode w = .cmd (.upins y) ∨
      decode w = .cmd (.upbyte y) → y.toNat = w.toNat % 256) ∧
    (∀ n, decode w = .cmd (.upstart n) → n.toNat = w.toNat % 4294967296)

/-- `spec/30_encoding.md` R99, `spec/60_exceptions.md` R191: a word that matches no row sets ERR bit 0 and does nothing
else. -/
def Obligations.IllegalWordSetsOnlyIllcmd : Prop :=
  ∀ (w : CmdWord) (s : State), ¬ MatchesRow w → s.err.getLsbD 6 = false →
    accept w s = .next { s with err := s.err ||| 0x01 }

/-- `spec/30_encoding.md` R92 steps 2 and 3: the opcode is looked at first, the reserved bits after it. -/
def Obligations.DecodeChecksOpcodeThenReservedBits : Prop :=
  ∀ w : CmdWord,
    (decode w = .illegal .unassignedOp ↔
      ∀ r ∈ opcodeRows, w.extractLsb' 32 8 ≠ r.1.extractLsb' 32 8) ∧
    (decode w = .illegal .reservedBits ↔
      ¬ MatchesRow w ∧ ∃ r ∈ opcodeRows, w.extractLsb' 32 8 = r.1.extractLsb' 32 8)

/-- `spec/30_encoding.md` R92: the four steps of accepting a word, in order; every word falls under one of them. -/
def Obligations.AcceptTakesTheFourSteps : Prop :=
  ∀ (w : CmdWord) (s : State),
    (s.err.getLsbD 6 = true → accept w s = .next s) ∧
    (s.err.getLsbD 6 = false → (∀ r ∈ opcodeRows, w.extractLsb' 32 8 ≠ r.1.extractLsb' 32 8) →
      accept w s = .next { s with err := s.err ||| 0x01 }) ∧
    (s.err.getLsbD 6 = false →
      (∃ r ∈ opcodeRows, w.extractLsb' 32 8 = r.1.extractLsb' 32 8 ∧ w &&& r.2 ≠ r.1) →
      accept w s = .next { s with err := s.err ||| 0x01 }) ∧
    (s.err.getLsbD 6 = false → MatchesRow w →
      ∃ i, decode w = .cmd i ∧ encode i = w ∧ accept w s = exec i s)

/-- `spec/30_encoding.md` R90, R97 to R99, `spec/95_test_vectors.md` section 2.2: words written out in the spec. -/
def Obligations.ListedWordsDecode : Prop :=
  decode 0x1200000061 = .cmd (.pksym 0x61) ∧
  decode 0x0200000001 = .cmd (.cbit true) ∧
  decode 0x0200000000 = .cmd (.cbit false) ∧
  decode 0x2100000062 = .cmd (.upins 0x62) ∧
  decode 0x22FFFFFFFF = .cmd (.upstart 4294967295) ∧
  decode 0x2400000000 = .cmd .upend ∧
  decode 0x0000000001 = .illegal .reservedBits ∧
  decode 0x0200000002 = .illegal .reservedBits ∧
  decode 0x1200000161 = .illegal .reservedBits ∧
  decode 0xFF00000000 = .illegal .unassignedOp

/-! ## The step, the port and reset -/

/-- A step runs the decoded command: the word at the head of the port is taken off it and executed (the port is the
model's, log 1). -/
def Obligations.StepRunsTheWordAtThePort : Prop :=
  ∀ (s : State) (w : CmdWord) (rest : List PortEvent) (i : Instr),
    s.port = .word w :: rest → s.err.getLsbD 6 = false → decode w = .cmd i →
    step s = exec i { s with port := rest }

/-- `spec/70_reset_and_hazards.md` R223: with nothing presented, nothing changes (the port is the model's, log 1). -/
def Obligations.StepWithNothingPresentedStays : Prop :=
  ∀ s : State, s.port = [] → step s = .next s

/-- `spec/70_reset_and_hazards.md` R221, R222: the reset event leaves the reset state, whatever the state before. The
clauses on cfg and port are the model's (log 3, log 9). -/
def Obligations.ResetEventGivesTheResetState : Prop :=
  ∀ (s : State) (rest : List PortEvent), s.port = .reset :: rest →
    ∃ t, step s = .next t ∧
      t.stg = 0 ∧ t.stglen = 0 ∧ t.stgovf = false ∧ t.acc = 0 ∧ t.nbits = 0 ∧
      (∀ y, (codeRead t y).valid = false) ∧
      (t.nodeAt 0).leaf = false ∧ (t.nodeAt 0).c0 = 0 ∧ (t.nodeAt 0).c1 = 0 ∧
      t.nextFree = 1 ∧ t.pos = 0 ∧ t.upState = .idle ∧ t.expected = 0 ∧ t.decoded = 0 ∧ t.bitpos = 0 ∧
      t.err = 0x00 ∧ t.pkOut = [] ∧ t.upOut = [] ∧
      t.cfg = s.cfg ∧ t.port = rest

/-- `spec/70_reset_and_hazards.md` R221 for the state the machine starts in. The last two clauses are the model's choice:
the default parameters of `spec/00_scope.md` R5 stand in the state it starts in (log 3, DESIGN CHOICE). -/
def Obligations.ResetStateHoldsTheSpecValues : Prop :=
  let t := State.reset
  t.stg = 0 ∧ t.stglen = 0 ∧ t.stgovf = false ∧ t.acc = 0 ∧ t.nbits = 0 ∧
    (∀ y, (codeRead t y).valid = false) ∧
    (t.nodeAt 0).leaf = false ∧ (t.nodeAt 0).c0 = 0 ∧ (t.nodeAt 0).c1 = 0 ∧
    t.nextFree = 1 ∧ t.pos = 0 ∧ t.upState = .idle ∧ t.expected = 0 ∧ t.decoded = 0 ∧ t.bitpos = 0 ∧
    t.err = 0x00 ∧ t.pkOut = [] ∧ t.upOut = [] ∧
    t.cfg.maxLen = 255 ∧ t.cfg.nNodes = 65536

/-- `spec/10_state.md` R34 to R41, `spec/00_scope.md` R10: the observation of a state is the two streams and the status
port, on which S0 is ERR, S1 the value of UP_STATE in R36's table, S2 EXPECTED, S3 DECODED, S4 BITPOS and S5 NBITS. -/
def Obligations.StatusPortShowsTheRegisters : Prop :=
  ∀ s : State,
    s.observe.pkOut = s.pkOut ∧ s.observe.upOut = s.upOut ∧ s.observe.status = s.status ∧
    s.status.err = s.err ∧
    (s.upState = .idle → s.status.upState.toNat = 0) ∧
    (s.upState = .run → s.status.upState.toNat = 1) ∧
    (s.upState = .complete → s.status.upState.toNat = 2) ∧
    (s.upState = .truncated → s.status.upState.toNat = 3) ∧
    (s.upState = .invalid → s.status.upState.toNat = 4) ∧
    s.status.expected = s.expected ∧ s.status.decoded = s.decoded ∧ s.status.bitpos = s.bitpos ∧
    s.status.pkNbits = s.nbits

/-- `spec/00_scope.md` R10, `spec/20_memory.md` R72: running the words presented at the port, one a step, is accepting
them one after another; what is presented after them plays no part (the port is the model's, log 1). -/
def Obligations.StepsOverThePortAreTheRunOfItsWords : Prop :=
  ∀ (ws : List CmdWord) (rest : List PortEvent) (s : State),
    runSteps ws.length { s with port := ws.map .word ++ rest } =
      runWords ws { s with port := rest }

/-! ## The front end -/

/-- `spec/40_common_loader.md` R120; a word with op 0x00 and any other argument is illegal. -/
def Obligations.NopChangesNothing : Prop :=
  decode 0x0000000000 = .cmd .nop ∧
  (∀ w : CmdWord, w.extractLsb' 32 8 = 0x00 → w ≠ 0 → decode w = .illegal .reservedBits) ∧
  ∀ s : State, exec .nop s = .next s

/-- `spec/40_common_loader.md` R121. -/
def Obligations.CclrClearsTheStagingRegister : Prop :=
  decode 0x0100000000 = .cmd .cclr ∧
  ∀ s : State, exec .cclr s = .next { s with stg := 0, stglen := 0, stgovf := false }

/-- `spec/40_common_loader.md` R122; a word with op 0x02 and any of arg[31:1] set is illegal. That the new value of STG is
(2·STG + b) cut to MAXLEN bits, in states that do not meet R43 too, is read from `spec/00_scope.md` R7 (log 12, DEDUCED). -/
def Obligations.CbitAppendsOneBit : Prop :=
  decode 0x0200000000 = .cmd (.cbit false) ∧ decode 0x0200000001 = .cmd (.cbit true) ∧
  (∀ w : CmdWord, w.extractLsb' 32 8 = 0x02 → w.extractLsb' 1 31 ≠ 0 → decode w = .illegal .reservedBits) ∧
  ∀ (s : State) (b : Bool), s.cfg.wf →
    (s.stglen.toNat = s.cfg.maxLen → exec (.cbit b) s = .next { s with stgovf := true }) ∧
    (s.stglen.toNat ≠ s.cfg.maxLen →
      ∃ v : CodeReg, v.toNat = (2 * s.stg.toNat + b.toNat) % 2 ^ s.cfg.maxLen ∧
        exec (.cbit b) s = .next { s with stg := v, stglen := s.stglen + 1 })

/-- `spec/10_state.md` R20, `spec/30_encoding.md` R97: while there is room, CBIT b adds b at the end of the staged code. -/
def Obligations.CbitExtendsTheStagedCode : Prop :=
  ∀ (s : State) (b : Bool), s.cfg.wf → FrontInv s → s.stglen.toNat < s.cfg.maxLen →
    ∃ t, exec (.cbit b) s = .next t ∧ stagedBits t = stagedBits s ++ [b] ∧
      t = { s with stg := t.stg, stglen := t.stglen }

/-- `spec/40_common_loader.md` R123, the law of the loader. The words may be any mixture of CBITs, illegal words and the
commands that do not use the staging register. -/
def Obligations.LoaderStagesTheBitsInOrder : Prop :=
  ∀ (ws : List CmdWord) (s t : State) (c : Bits), s.cfg.wf → FrontInv s →
    s.stglen = 0 → s.stgovf = false → s.err.getLsbD 6 = false →
    (∀ w ∈ ws, keepsStaging w = true ∨ ∃ b, decode w = .cmd (.cbit b)) →
    c = ws.filterMap stagedBit? → runWords ws s = .next t →
    (c.length ≤ s.cfg.maxLen →
      t.stgovf = false ∧ t.stglen.toNat = c.length ∧
        t.stg.toNat = ∑ k ∈ Finset.range c.length, (c.getD k false).toNat * 2 ^ (c.length - 1 - k)) ∧
    (s.cfg.maxLen < c.length →
      t.stgovf = true ∧ t.stglen.toNat = s.cfg.maxLen ∧
        t.stg.toNat = ∑ k ∈ Finset.range s.cfg.maxLen, (c.getD k false).toNat * 2 ^ (s.cfg.maxLen - 1 - k))

/-- `spec/00_scope.md` R8: bit k of a Code (L, V) is V[L-1-k], V is the sum of c(k)·2^(L-1-k), and the pair of a code
gives the code back. -/
def Obligations.CodeRegisterHoldsFirstBitHighest : Prop :=
  (∀ (l : Nat) (v : CodeReg), (codeBits l v).length = l ∧
    ∀ k, k < l → (codeBits l v)[k]? = some (v.getLsbD (l - 1 - k))) ∧
  ∀ c : Bits, c.length ≤ 255 →
    codeValue c = ∑ k ∈ Finset.range c.length, (c.getD k false).toNat * 2 ^ (c.length - 1 - k) ∧
    codeBits c.length (BitVec.ofNat 255 (codeValue c)) = c

/-! ## The PACK unit -/

/-- `spec/41_pack.md` R140: it writes the 256 valid bits, ACC and NBITS, and nothing else. -/
def Obligations.PkclrEmptiesTheTable : Prop :=
  decode 0x1000000000 = .cmd .pkclr ∧
  ∀ s : State, ∃ t, exec .pkclr s = .next t ∧
    (∀ y, codeRead t y = { valid := false, len := (codeRead s y).len, bits := (codeRead s y).bits }) ∧
    t = { s with code := t.code, acc := 0, nbits := 0 }

/-- `spec/41_pack.md` R141, `spec/60_exceptions.md` R192, R193: the staging register is consumed; an overflowed or empty
code is refused; else the entry of s, and no other, holds the staged code. -/
def Obligations.PkdefDefinesTheStagedCode : Prop :=
  (∀ y : Symbol, decode (0x11#8 ++ (0#24 ++ y)) = .cmd (.pkdef y)) ∧
  ∀ (s : State) (y : Symbol),
    (s.stgovf = true →
      exec (.pkdef y) s = .next { s with stg := 0, stglen := 0, stgovf := false, err := s.err ||| 0x02 }) ∧
    (s.stgovf = false → s.stglen = 0 →
      exec (.pkdef y) s = .next { s with stg := 0, stglen := 0, stgovf := false, err := s.err ||| 0x04 }) ∧
    (s.stgovf = false → s.stglen ≠ 0 →
      ∃ t, exec (.pkdef y) s = .next t ∧
        codeRead t y = { valid := true, len := s.stglen, bits := s.stg } ∧
        (∀ z, z ≠ y → codeRead t z = codeRead s z) ∧
        t = { s with stg := 0, stglen := 0, stgovf := false, code := t.code })

/-- `spec/41_pack.md` R142. One word changes the code table only if it is a PKCLR, or a PKDEF that succeeds. Over a run
that starts with an empty table and executes no PKCLR, an entry is valid if and only if a PKDEF of its Symbol succeeded,
and then it holds what was staged at the last one: u is the state just before it, and no PKDEF of that Symbol in the rest
of the run succeeds. -/
def Obligations.CodeTableHoldsTheLastDefinition : Prop :=
  (∀ (w : CmdWord) (s t : State) (y : Symbol), accept w s = .next t → codeRead t y ≠ codeRead s y →
    (decode w = .cmd .pkclr ∧ (codeRead t y).valid = false) ∨
    (pkdefSucceeds w s y ∧ codeRead t y = { valid := true, len := s.stglen, bits := s.stg })) ∧
  ∀ (ws : List CmdWord) (s t : State) (y : Symbol), (codeRead s y).valid = false →
    (∀ w ∈ ws, decode w ≠ .cmd .pkclr) → runWords ws s = .next t →
    ((codeRead t y).valid = true ↔
      ∃ pre w post u, ws = pre ++ w :: post ∧ runWords pre s = .next u ∧ pkdefSucceeds w u y) ∧
    (∀ pre w post u, ws = pre ++ w :: post → runWords pre s = .next u → pkdefSucceeds w u y →
      (∀ pre' w' post' u', ws = pre' ++ w' :: post' → pre.length < pre'.length → runWords pre' s = .next u' →
        ¬ pkdefSucceeds w' u' y) →
      codeRead t y = { valid := true, len := u.stglen, bits := u.stg })

/-- `spec/41_pack.md` R143, `spec/60_exceptions.md` R196: a Symbol without a code sets E_NOCODE only; a Symbol with one
appends its code's bits after the pending bits, whole bytes go to PK_OUT, and the rest stays pending. -/
def Obligations.PksymAppendsTheCode : Prop :=
  (∀ y : Symbol, decode (0x12#8 ++ (0#24 ++ y)) = .cmd (.pksym y)) ∧
  ∀ (s : State) (y : Symbol),
    ((codeRead s y).valid = false → exec (.pksym y) s = .next { s with err := s.err ||| 0x20 }) ∧
    ((codeRead s y).valid = true →
      ∃ t out, exec (.pksym y) s = .next t ∧
        t = { s with acc := t.acc, nbits := t.nbits, pkOut := s.pkOut ++ out } ∧
        streamBits out ++ pendingBits t =
          pendingBits s ++ codeBits (codeRead s y).len.toNat (codeRead s y).bits ∧
        out.length = (s.nbits.toNat + (codeRead s y).len.toNat) / 8 ∧
        t.nbits.toNat = (s.nbits.toNat + (codeRead s y).len.toNat) % 8 ∧
        (s.acc.toNat < 2 ^ s.nbits.toNat → t.acc.toNat < 2 ^ t.nbits.toNat))

/-- `spec/41_pack.md` R144: nothing pending, nothing emitted; else one byte, the pending bits in its high-order
positions and zeros below. -/
def Obligations.PkflushPadsTheLastByte : Prop :=
  decode 0x1300000000 = .cmd .pkflush ∧
  ∀ s : State,
    (s.nbits = 0 → exec .pkflush s = .next s) ∧
    (s.nbits ≠ 0 → ∃ b : Byte,
      exec .pkflush s = .next { s with acc := 0, nbits := 0, pkOut := s.pkOut ++ [b] } ∧
      byteBits b = pendingBits s ++ List.replicate (8 - s.nbits.toNat) false)

/-- `spec/41_pack.md` R145, the packing function, with `spec/20_memory.md` R65. The words before the PKFLUSH are PKSYMs
of symbols that have codes, and any words of the other families and illegal words among them; the run of PKSYMs alone
always completes. -/
def Obligations.PackingFunction : Prop :=
  ∀ (s : State) (ws : List CmdWord) (syms : List Symbol) (B : Bits), s.nbits = 0 → s.err.getLsbD 6 = false →
    (∀ w ∈ ws, ∀ i, decode w = .cmd i → isPackCommand i = true → ∃ y, i = .pksym y) →
    syms = ws.filterMap packedSymbol? →
    (∀ y ∈ syms, (codeRead s y).valid = true) →
    B = syms.flatMap (fun y => codeBits (codeRead s y).len.toNat (codeRead s y).bits) →
    (∀ t u, runWords ws s = .next t → t.err.getLsbD 6 = false → runCmds [.pkflush] t = .next u →
      ∃ out, u.pkOut = s.pkOut ++ out ∧ out.length = (B.length + 7) / 8 ∧
        (∀ (j : Nat) (b : Byte), out[j]? = some b →
          ∀ m, m < 8 → b.getLsbD (7 - m) = B.getD (8 * j + m) false) ∧
        t.pkOut = s.pkOut ++ out.take (B.length / 8)) ∧
    (ws = syms.map (fun y => encode (.pksym y)) →
      ∃ t u, runWords ws s = .next t ∧ t.err.getLsbD 6 = false ∧ runCmds [.pkflush] t = .next u)

/-- `spec/41_pack.md` R147 items 1, 2 and 4: n copies of a Symbol whose code is "0" pack to ceil(n/8) zero bytes; for
n = 0 to none. -/
def Obligations.SingleSymbolStreamPacksToZeros : Prop :=
  ∀ (s : State) (y : Symbol) (n : Nat), s.nbits = 0 → s.err.getLsbD 6 = false →
    codeRead s y = { valid := true, len := 1, bits := 0 } →
    ∃ t, runCmds (List.replicate n (.pksym y) ++ [.pkflush]) s = .next t ∧
      t.pkOut = s.pkOut ++ List.replicate ((n + 7) / 8) 0x00

/-! ## The UNPACK unit -/

/-- `spec/42_unpack.md` R161, `spec/60_exceptions.md` R195: refused during a run; else the tree is the empty tree of
reset, and the result of a finished run stays readable. That the root's sym is as before is the model's choice (log 5,
DESIGN CHOICE): R161 does not write it and `spec/70_reset_and_hazards.md` R221 leaves it unspecified. -/
def Obligations.UpclrEmptiesTheTree : Prop :=
  decode 0x2000000000 = .cmd .upclr ∧
  ∀ s : State,
    (s.upState = .run → exec .upclr s = .next { s with err := s.err ||| 0x10 }) ∧
    (s.upState ≠ .run → s.node.wf = true →
      ∃ t, exec .upclr s = .next t ∧
        (t.nodeAt 0).leaf = false ∧ (t.nodeAt 0).c0 = 0 ∧ (t.nodeAt 0).c1 = 0 ∧
        (t.nodeAt 0).sym = (s.nodeAt 0).sym ∧ (∀ h, h ≠ 0 → t.nodeAt h = s.nodeAt h) ∧ (∀ c y, ¬ HasCode t c y) ∧
        t = { s with node := t.node, nextFree := 1, pos := 0 })

/-- `spec/42_unpack.md` R162 checks 1 to 3 in the order of `spec/60_exceptions.md` R200: the staging register is consumed
and one bit of ERR is set. -/
def Obligations.UpinsRefusesInTheFixedOrder : Prop :=
  (∀ y : Symbol, decode (0x21#8 ++ (0#24 ++ y)) = .cmd (.upins y)) ∧
  ∀ (s : State) (y : Symbol),
    (s.upState = .run →
      exec (.upins y) s = .next { s with stg := 0, stglen := 0, stgovf := false, err := s.err ||| 0x10 }) ∧
    (s.upState ≠ .run → s.stgovf = true →
      exec (.upins y) s = .next { s with stg := 0, stglen := 0, stgovf := false, err := s.err ||| 0x02 }) ∧
    (s.upState ≠ .run → s.stgovf = false → s.stglen = 0 →
      exec (.upins y) s = .next { s with stg := 0, stglen := 0, stgovf := false, err := s.err ||| 0x04 })

/-- `spec/42_unpack.md` R163: UPINS in terms of the abstract tree K of R160. -/
def Obligations.UpinsInsertsTheCodeInTheAbstractTree : Prop :=
  ∀ (s : State) (y : Symbol) (c : Bits) (m : Nat), BlockInv s → s.upState ≠ .run → s.stgovf = false → s.stglen ≠ 0 →
    c = stagedBits s →
    m = Set.ncard { p : Bits | p ≠ [] ∧ p <+: c ∧ ¬ IsCodePrefix (HasCode s) p } →
    ((∃ c' y', HasCode s c' y' ∧ (c' <+: c ∨ c <+: c')) →
      exec (.upins y) s = .next { s with stg := 0, stglen := 0, stgovf := false, err := s.err ||| 0x08 }) ∧
    ((¬ ∃ c' y', HasCode s c' y' ∧ (c' <+: c ∨ c <+: c')) → 1 ≤ m ∧ m ≤ c.length) ∧
    ((¬ ∃ c' y', HasCode s c' y' ∧ (c' <+: c ∨ c <+: c')) → s.cfg.nNodes < s.nextFree.toNat + m →
      exec (.upins y) s = .next { s with stg := 0, stglen := 0, stgovf := false, err := s.err ||| 0x40 }) ∧
    ((¬ ∃ c' y', HasCode s c' y' ∧ (c' <+: c ∨ c <+: c')) → s.nextFree.toNat + m ≤ s.cfg.nNodes →
      ∃ t, exec (.upins y) s = .next t ∧
        (∀ c' y', HasCode t c' y' ↔ HasCode s c' y' ∨ c' = c ∧ y' = y) ∧
        t.nextFree.toNat = s.nextFree.toNat + m ∧
        t = { s with stg := 0, stglen := 0, stgovf := false, node := t.node, nextFree := t.nextFree })

/-- `spec/42_unpack.md` R162, the insertion: where the descent ends at node p with the bits `rest` of the code left, the
new nodes get the handles from NEXT_FREE on, root side first, the last one is the leaf, p gains one child, and every
other node of the arena is as before. -/
def Obligations.UpinsWritesOnlyTheNewPath : Prop :=
  ∀ (s : State) (y : Symbol) (p : Handle) (b : Bool) (bs : Bits), BlockInv s →
    s.upState ≠ .run → s.stgovf = false → s.stglen ≠ 0 →
    descend (clearStaging s) root (stagedBits s) = .absent p (b :: bs) →
    s.nextFree.toNat + (b :: bs).length ≤ s.cfg.nNodes →
    ∃ t, exec (.upins y) s = .next t ∧
      t = { s with stg := 0, stglen := 0, stgovf := false, node := t.node, nextFree := t.nextFree } ∧
      t.nextFree.toNat = s.nextFree.toNat + (b :: bs).length ∧
      (∀ h, h ≠ p.toNat → (h < s.nextFree.toNat ∨ t.nextFree.toNat ≤ h) → t.nodeAt h = s.nodeAt h) ∧
      ((t.nodeAt p.toNat).child b).toNat = s.nextFree.toNat ∧
      (t.nodeAt p.toNat).child (!b) = (s.nodeAt p.toNat).child (!b) ∧
      (t.nodeAt p.toNat).leaf = (s.nodeAt p.toNat).leaf ∧
      (t.nodeAt p.toNat).sym = (s.nodeAt p.toNat).sym ∧
      ∀ i, i < (b :: bs).length →
        ((t.nodeAt (s.nextFree.toNat + i)).leaf = true ↔ i + 1 = (b :: bs).length) ∧
        ((t.nodeAt (s.nextFree.toNat + i)).leaf = true → (t.nodeAt (s.nextFree.toNat + i)).sym = y) ∧
        ∀ b', ((t.nodeAt (s.nextFree.toNat + i)).child b').toNat =
          if (b :: bs)[i + 1]? = some b' then s.nextFree.toNat + i + 1 else 0

/-- `spec/42_unpack.md` R164: every n is accepted in every UP_STATE, and UP_OUT is not cleared. -/
def Obligations.UpstartBeginsARun : Prop :=
  (∀ n : BitVec 32, decode (0x22#8 ++ n) = .cmd (.upstart n)) ∧
  ∀ (s : State) (n : BitVec 32),
    (n = 0 → exec (.upstart n) s =
      .next { s with expected := 0, decoded := 0, bitpos := 0, pos := 0, upState := .complete }) ∧
    (n ≠ 0 → exec (.upstart n) s =
      .next { s with expected := n, decoded := 0, bitpos := 0, pos := 0, upState := .run })

/-- `spec/42_unpack.md` R167 with the step of R166. Outside RUN, UPBYTE does nothing at all. In RUN, standing at the end
of path q, it goes on with the greedy parse of R169 over q followed by the bits of b, most significant first; the bits
then consumed are the codes cs of the emitted Symbols and the path to POS. -/
def Obligations.UpbyteParsesTheNextByte : Prop :=
  (∀ b : Byte, decode (0x23#8 ++ (0#24 ++ b)) = .cmd (.upbyte b)) ∧
  (∀ (s : State) (b : Byte), s.upState ≠ .run → exec (.upbyte b) s = .next s) ∧
  ∀ (s : State) (b : Byte) (q xs : Bits), BlockInv s → s.upState = .run → follow s 0 q = some s.pos.toNat →
    xs = q ++ (List.range 8).map (fun k => b.getLsbD (7 - k)) →
    ∃ t ys p cs q', exec (.upbyte b) s = .next t ∧
      Parse (HasCode s) (s.expected.toNat - s.decoded.toNat) xs ys p t.upState ∧
      t.upOut = s.upOut ++ ys ∧
      t.decoded.toNat = s.decoded.toNat + ys.length ∧
      t.bitpos.toNat + q.length = s.bitpos.toNat + p ∧
      List.Forall₂ (HasCode s) cs ys ∧ xs.take p = cs.flatten ++ q' ∧ follow s 0 q' = some t.pos.toNat ∧
      (t.upState = .complete → t.pos = 0) ∧
      t = { s with
        pos := t.pos, bitpos := t.bitpos, decoded := t.decoded, upState := t.upState, upOut := t.upOut }

/-- `spec/42_unpack.md` R170. -/
def Obligations.UpendTruncatesARun : Prop :=
  decode 0x2400000000 = .cmd .upend ∧
  ∀ s : State,
    (s.upState = .run → exec .upend s = .next { s with upState := .truncated }) ∧
    (s.upState ≠ .run → exec .upend s = .next s)

/-- `spec/42_unpack.md` R169, the decoding function: a run begun with UPSTART n and fed the bytes bs gives the Symbols,
the state and the bit position of the greedy parse of their bits, and of no other parse; a UPEND in RUN makes it TRUNCATED
with BITPOS 8 times the number of bytes. -/
def Obligations.DecodingFunction : Prop :=
  ∀ (s : State) (n : BitVec 32) (bs : List Byte), BlockInv s → s.err.getLsbD 6 = false →
    ∃ t ys, runCmds (.upstart n :: bs.map .upbyte) s = .next t ∧
      t.upOut = s.upOut ++ ys ∧ t.decoded.toNat = ys.length ∧
      (∀ ys' p v, Parse (HasCode s) n.toNat (streamBits bs) ys' p v ↔
        ys' = ys ∧ p = t.bitpos.toNat ∧ v = t.upState) ∧
      (t.upState = .run →
        runCmds [.upend] t = .next { t with upState := .truncated } ∧ t.bitpos.toNat = 8 * bs.length)

/-! ## Both units -/

/-- `spec/42_unpack.md` R173, the round trip. s is the block when it begins to pack, its table loaded with the pairs; u is
the block when it begins to decode, its tree loaded with them: the state s' after the packing, or a later one, as in program
P3 of `spec/95_test_vectors.md`, which loads the tree after the packing. How the loading was done plays no part here;
`LoadingLinesFillBothUnits` says what any order of loading leaves. -/
def Obligations.RoundTrip : Prop :=
  ∀ (s u : State) (pairs : List (Symbol × Bits)) (syms : List Symbol) (T : Nat),
    s.nbits = 0 → s.err.getLsbD 6 = false →
    (∀ x ∈ pairs, (codeRead s x.1).valid = true ∧
      codeBits (codeRead s x.1).len.toNat (codeRead s x.1).bits = x.2) →
    BlockInv u → u.err.getLsbD 6 = false → (∀ x ∈ pairs, HasCode u x.2 x.1) →
    (∀ y ∈ syms, y ∈ pairs.map Prod.fst) → syms.length < 2 ^ 32 →
    T = (syms.map fun y => (codeRead s y).len.toNat).sum →
    ∃ s' u' bytes,
      runCmds (syms.map .pksym ++ [.pkflush]) s = .next s' ∧
      s'.pkOut = s.pkOut ++ bytes ∧ bytes.length = (T + 7) / 8 ∧
      s' = { s with acc := s'.acc, nbits := s'.nbits, pkOut := s'.pkOut } ∧
      runCmds (.upstart (BitVec.ofNat 32 syms.length) :: bytes.map .upbyte) u = .next u' ∧
      u'.upOut = u.upOut ++ syms ∧ u'.upState = .complete ∧ u'.err = u.err ∧
      u'.decoded.toNat = syms.length ∧ u'.bitpos.toNat = T ∧
      runCmds [.upend] u' = .next u'

/-- `spec/42_unpack.md` R173, the loading, with `spec/30_encoding.md` R105. The blocks are DEFCODE and INSCODE lines of the
pairs, in any order and number, and among them any runs of commands that use no staging register and clear no table; ERR
is 0 at the end. Then the table gives every pair whose DEFCODE is among them its code, and the tree holds exactly the pairs
whose INSCODE is among them. -/
def Obligations.LoadingLinesFillBothUnits : Prop :=
  ∀ (s t : State) (pairs : List (Symbol × Bits)) (blocks : List (List Instr)),
    BlockInv s → s.nextFree = 1 → (pairs.map Prod.fst).Nodup →
    (∀ x ∈ pairs, 1 ≤ x.2.length ∧ x.2.length ≤ s.cfg.maxLen) →
    (∀ b ∈ blocks, (∃ x ∈ pairs, b = defCode x.1 x.2 ∨ b = insCode x.1 x.2) ∨
      ∀ i ∈ b, usesStaging i = false ∧ i ≠ .pkclr ∧ i ≠ .upclr) →
    runCmds blocks.flatten s = .next t → t.err = 0 →
    BlockInv t ∧
    (∀ x ∈ pairs, defCode x.1 x.2 ∈ blocks → (codeRead t x.1).valid = true ∧
      codeBits (codeRead t x.1).len.toNat (codeRead t x.1).bits = x.2) ∧
    ∀ c y, HasCode t c y ↔ (y, c) ∈ pairs ∧ insCode y c ∈ blocks

/-- `spec/00_scope.md` R5: with NNODES = 65536, loading one prefix-free code for each of any symbols into an empty tree
never exhausts the arena; and then the tree holds exactly those codes. -/
def Obligations.DefaultArenaHoldsAnyPrefixFreeCode : Prop :=
  ∀ (s : State) (pairs : List (Symbol × Bits)),
    BlockInv s → s.err = 0 → s.upState ≠ .run → s.nextFree = 1 → s.cfg.nNodes = 65536 →
    (pairs.map Prod.fst).Nodup →
    (∀ x ∈ pairs, 1 ≤ x.2.length ∧ x.2.length ≤ s.cfg.maxLen) →
    (∀ x ∈ pairs, ∀ z ∈ pairs, x ≠ z → ¬ x.2 <+: z.2) →
    ∃ t, runCmds (pairs.flatMap fun x => insCode x.1 x.2) s = .next t ∧ t.err = 0 ∧
      ∀ c y, HasCode t c y ↔ (y, c) ∈ pairs

/-- `spec/20_memory.md` R61, R73: a PACK command neither reads nor writes UNPACK state, and an UNPACK command neither
reads nor writes PACK state. -/
def Obligations.UnitsNeitherReadNorWriteEachOther : Prop :=
  ∀ (i : Instr) (s u : State),
    (isPackCommand i = true →
      exec i (withUnpackOf u s) = andThen (exec i s) fun t => .next (withUnpackOf u t)) ∧
    (isUnpackCommand i = true →
      exec i (withPackOf u s) = andThen (exec i s) fun t => .next (withPackOf u t)) ∧
    (isPackCommand i = true → ∀ t, exec i s = .next t → t = withUnpackOf s t) ∧
    (isUnpackCommand i = true → ∀ t, exec i s = .next t → t = withPackOf s t)

/-- `spec/20_memory.md` R73, the consequence: a packing sequence without PKDEF interleaved with other commands gives the
same streams as running it first, when no arena exhaustion comes about. -/
def Obligations.InterleavingGivesTheSameStreams : Prop :=
  ∀ (is : List Instr) (s t : State),
    (∀ i ∈ is, ∀ y, i ≠ .pkdef y) → runCmds is s = .next t → t.err.getLsbD 6 = false →
    ∃ t', runCmds (is.filter isPackCommand ++ is.filter (fun i => !isPackCommand i)) s = .next t' ∧
      t'.pkOut = t.pkOut ∧ t'.upOut = t.upOut

/-- `spec/20_memory.md` R64: no command changes or removes an emitted byte; one command appends at most 32 bytes to
PK_OUT (a PKFLUSH at most 1) and at most 8 to UP_OUT, and only the commands named append any. -/
def Obligations.StreamsOnlyGrow : Prop :=
  ∀ (w : CmdWord) (s t : State), accept w s = .next t →
    ∃ ps us, t.pkOut = s.pkOut ++ ps ∧ t.upOut = s.upOut ++ us ∧ ps.length ≤ 32 ∧ us.length ≤ 8 ∧
      (ps ≠ [] → (∃ y, decode w = .cmd (.pksym y)) ∨ decode w = .cmd .pkflush ∧ ps.length = 1) ∧
      (us ≠ [] → ∃ b, decode w = .cmd (.upbyte b))

/-- `spec/00_scope.md` R47: no command changes the parameters; nor does it change what is presented at the port (the
model's, log 1 and log 3). -/
def Obligations.CommandsKeepParametersAndPort : Prop :=
  ∀ (w : CmdWord) (s t : State), accept w s = .next t → t.cfg = s.cfg ∧ t.port = s.port

/-- `spec/40_common_loader.md` R123: the commands that do not consume the staging register neither write it nor read
it. -/
def Obligations.OtherCommandsIgnoreTheStagingRegister : Prop :=
  ∀ (i : Instr) (s : State) (v : CodeReg) (l : BitVec 8) (o : Bool), usesStaging i = false →
    exec i { s with stg := v, stglen := l, stgovf := o } =
      andThen (exec i s) fun t => .next { t with stg := v, stglen := l, stgovf := o }

/-! ## Errors and the state machine -/

/-- `spec/42_unpack.md` R171: the complete table of UP_STATE. -/
def Obligations.UpStateFollowsTheTable : Prop :=
  State.reset.upState = .idle ∧
  (∀ (w : CmdWord) (s : State), s.err.getLsbD 6 = true → accept w s = .next s) ∧
  ∀ (i : Instr) (s t : State), exec i s = .next t →
    (∀ n, i = .upstart n → t.upState = if n = 0 then .complete else .run) ∧
    (∀ b, i = .upbyte b → s.upState = .run →
      t.upState = .run ∨ (t.upState = .complete ∧ t.decoded = t.expected) ∨
        (t.upState = .invalid ∧ ∃ x, s.childAt t.pos.toNat x = 0)) ∧
    (i = .upend → s.upState = .run → t.upState = .truncated) ∧
    (((∃ b, i = .upbyte b) ∨ i = .upend) → s.upState ≠ .run → t = s) ∧
    ((i = .upclr ∨ ∃ y, i = .upins y) → s.upState = .run →
      t.err = s.err ||| 0x10 ∧ t = withUnpackOf s t) ∧
    ((∀ n, i ≠ .upstart n) → (∀ b, i ≠ .upbyte b) → i ≠ .upend → t.upState = s.upState) ∧
    (t.upState = .idle → s.upState = .idle)

/-- `spec/60_exceptions.md` R203, `spec/10_state.md` R34: a step clears a bit of ERR only when it takes the reset event
(the port is the model's, log 1). -/
def Obligations.OnlyResetClearsErr : Prop :=
  ∀ (s t : State) (k : Nat), step s = .next t → s.err.getLsbD k = true → t.err.getLsbD k = false →
    ∃ rest, s.port = .reset :: rest

/-- `spec/60_exceptions.md` R200: "At most one ERR bit is set by one command", and ERR bit 7 by none (`spec/10_state.md`
R35). -/
def Obligations.OneWordSetsAtMostOneErrBit : Prop :=
  ∀ (w : CmdWord) (s t : State), accept w s = .next t →
    t.err = s.err ∨ ∃ k, k ≤ 6 ∧ t.err = s.err ||| (1#8 <<< k)

/-- `spec/60_exceptions.md` R202: a word that sets a new bit of ERR has no other effect, except that PKDEF and UPINS
empty the staging register. -/
def Obligations.RefusedCommandHasNoOtherEffect : Prop :=
  ∀ (w : CmdWord) (s t : State), accept w s = .next t → t.err ≠ s.err →
    t = { s with err := t.err } ∨
    ((∃ y, decode w = .cmd (.pkdef y) ∨ decode w = .cmd (.upins y)) ∧
      t = { s with err := t.err, stg := 0, stglen := 0, stgovf := false })

/-- `spec/60_exceptions.md` R201: the words that can set ERR bits do not change UP_STATE, and the commands that change
UP_STATE never set an ERR bit. -/
def Obligations.NoWordWritesBothErrAndUpState : Prop :=
  ∀ (w : CmdWord) (s t : State), accept w s = .next t →
    (t.err ≠ s.err → t.upState = s.upState ∧
      ((∃ why, decode w = .illegal why) ∨ decode w = .cmd .upclr ∨
        ∃ y, decode w = .cmd (.pkdef y) ∨ decode w = .cmd (.pksym y) ∨ decode w = .cmd (.upins y))) ∧
    (t.upState ≠ s.upState → t.err = s.err ∧
      (decode w = .cmd .upend ∨ (∃ n, decode w = .cmd (.upstart n)) ∨ ∃ b, decode w = .cmd (.upbyte b)))

/-- `spec/30_encoding.md` R100, `spec/60_exceptions.md` R197: while ERR bit 6 is 1 every word, legal or illegal, is
ignored; a step ends the condition only by taking the reset event (the port is the model's, log 1). -/
def Obligations.FatalBlockIgnoresEveryWord : Prop :=
  (∀ (ws : List CmdWord) (s : State), s.err.getLsbD 6 = true → runWords ws s = .next s) ∧
  ∀ s t : State, s.err.getLsbD 6 = true → step s = .next t →
    (∃ rest, s.port = .reset :: rest ∧ t.err.getLsbD 6 = false) ∨ t = { s with port := s.port.tail }

/-! ## Invariants -/

/-- The reset state meets the invariants of `spec/10_state.md` R43 to R46. -/
def Obligations.ResetMeetsTheInvariants : Prop := BlockInv State.reset

/-- `spec/10_state.md` section 9: every step keeps the invariants R43 to R46. -/
def Obligations.StepKeepsTheInvariants : Prop :=
  ∀ s t : State, BlockInv s → step s = .next t → BlockInv t

/-- `spec/10_state.md` R45, `spec/42_unpack.md` R174: from a state that meets the invariants no step stops; no arena
access is outside the arena. -/
def Obligations.StepIsSafeUnderTheInvariants : Prop :=
  ∀ s : State, BlockInv s → Safe (step s)

/-- `spec/10_state.md` R43, on its own. -/
def Obligations.StagingRegisterStaysInForm : Prop :=
  ∀ s t : State, s.cfg.wf → FrontInv s → step s = .next t →
    t.stglen.toNat ≤ t.cfg.maxLen ∧ t.stg.toNat < 2 ^ t.stglen.toNat ∧
      (t.stgovf = true → t.stglen.toNat = t.cfg.maxLen)

/-- `spec/10_state.md` R44, the bounds on ACC and on the valid entries of the code table. -/
def Obligations.PackUnitStaysInForm : Prop :=
  ∀ s t : State, s.cfg.wf → FrontInv s → PackInv s → step s = .next t →
    t.nbits.toNat ≤ 7 ∧ t.acc.toNat < 2 ^ t.nbits.toNat ∧
      ∀ y, (codeRead t y).valid = true →
        1 ≤ (codeRead t y).len.toNat ∧ (codeRead t y).len.toNat ≤ t.cfg.maxLen ∧
          (codeRead t y).bits.toNat < 2 ^ (codeRead t y).len.toNat

/-- `spec/10_state.md` R46, `spec/42_unpack.md` R172: the counters stay in their ranges, so neither wraps. -/
def Obligations.CountersStayInRange : Prop :=
  ∀ s t : State, BlockInv s → step s = .next t →
    (t.upState = .idle → t.expected = 0 ∧ t.decoded = 0 ∧ t.bitpos = 0) ∧
    t.decoded.toNat ≤ t.expected.toNat ∧
    (t.upState = .run → t.decoded.toNat < t.expected.toNat) ∧
    (t.upState = .complete ↔ t.upState ≠ .idle ∧ t.decoded = t.expected) ∧
    t.decoded.toNat ≤ t.bitpos.toNat ∧
    t.bitpos.toNat ≤ t.decoded.toNat * t.cfg.maxLen + (t.cfg.maxLen - 1)

/-- Every step keeps the arena in its canonical form (the form is the model's, log 5). -/
def Obligations.StepKeepsTheArenaCanonical : Prop :=
  ∀ s t : State, s.node.wf = true → step s = .next t → t.node.wf = true

/-- `spec/42_unpack.md` R160. The codes of the tree are non-empty and prefix-free, the nodes are exactly the prefixes of
the codes and the empty sequence, each node is reached by one path, and NEXT_FREE is their number. And the pairs are those
whose UPINS succeeded: over a run that starts with the empty tree and presents no UPCLR, (c, y) is in the tree if and only
if some UPINS y with c staged took new nodes (a refused one takes none, R162, R163). -/
def Obligations.TreeStandsForTheInsertedCodes : Prop :=
  (∀ s : State, TreeInv s →
    PrefixFree (HasCode s) ∧ (∀ y, ¬ HasCode s [] y) ∧
    (∀ p, (∃ h, follow s 0 p = some h) ↔ p = [] ∨ IsCodePrefix (HasCode s) p) ∧
    (∀ p p' h, follow s 0 p = some h → follow s 0 p' = some h → p = p') ∧
    s.nextFree.toNat = Set.ncard { p : Bits | p = [] ∨ IsCodePrefix (HasCode s) p }) ∧
  ∀ (ws : List CmdWord) (s t : State), BlockInv s → s.nextFree = 1 →
    (∀ w ∈ ws, decode w ≠ .cmd .upclr) → runWords ws s = .next t →
    ∀ c y, HasCode t c y ↔
      ∃ pre w post u v, ws = pre ++ w :: post ∧ runWords pre s = .next u ∧ accept w u = .next v ∧
        decode w = .cmd (.upins y) ∧ c = stagedBits u ∧ v.nextFree ≠ u.nextFree

/-- `spec/70_reset_and_hazards.md` R221, `spec/93_implementation_defined.md` V1 to V3: two blocks that differ only in
what is unspecified differ only in it after every step, and are observed alike. -/
def Obligations.UnspecifiedContentsAreNeverObserved : Prop :=
  ∀ s t : State, BlockInv s → BlockInv t → SameButUnspecified s t →
    ∃ s' t', step s = .next s' ∧ step t = .next t' ∧ SameButUnspecified s' t' ∧ s'.observe = t'.observe

/-! ## Scripts and the layout of a node -/

/-- `spec/30_encoding.md` R104, R105: a line in range assembles to the words of its expansion; and the words of
`DEFCODE s, "c"` give s the code c whatever was staged before. -/
def Obligations.DefcodeLineDefinesTheCode : Prop :=
  ∀ (s : State) (y : Nat) (code : List Char), s.cfg.wf → s.err.getLsbD 6 = false → y ≤ 255 →
    1 ≤ code.length → code.length ≤ s.cfg.maxLen → (∀ x ∈ code, x = '0' ∨ x = '1') →
    ∃ ws t, assembleLine s.cfg (.defcode y code) = some ws ∧
      ws.length = code.length + 2 ∧ runWords ws s = .next t ∧
      (codeRead t (BitVec.ofNat 8 y)).valid = true ∧
      codeBits (codeRead t (BitVec.ofNat 8 y)).len.toNat (codeRead t (BitVec.ofNat 8 y)).bits =
        code.map (fun x => x == '1') ∧
      (∀ z, z ≠ BitVec.ofNat 8 y → codeRead t z = codeRead s z) ∧
      t = { s with stg := 0, stglen := 0, stgovf := false, code := t.code }

/-- `spec/30_encoding.md` R104: a line whose operand is out of range is rejected and never encoded. -/
def Obligations.OutOfRangeLinesAreNeverEncoded : Prop :=
  ∀ (c : Config) (n : Nat),
    ((assembleLine c (.cbit n)).isSome = true ↔ n ≤ 1) ∧
    ((assembleLine c (.pkdef n)).isSome = true ↔ n ≤ 255) ∧
    ((assembleLine c (.pksym n)).isSome = true ↔ n ≤ 255) ∧
    ((assembleLine c (.upins n)).isSome = true ↔ n ≤ 255) ∧
    ((assembleLine c (.upbyte n)).isSome = true ↔ n ≤ 255) ∧
    ((assembleLine c (.upstart n)).isSome = true ↔ n ≤ 4294967295)

/-- `spec/20_memory.md` R63: the four fields of a node fill its 41 bits. -/
def Obligations.NodeFieldsFillFortyOneBits : Prop :=
  (∀ nd : Node, Node.unpack nd.pack = nd) ∧ (∀ v : BitVec 41, (Node.unpack v).pack = v) ∧
  ∀ nd : Node, nd.pack.getLsbD 40 = nd.leaf ∧ nd.pack.extractLsb' 32 8 = nd.sym ∧
    nd.pack.extractLsb' 16 16 = nd.c1 ∧ nd.pack.extractLsb' 0 16 = nd.c0
end

