-- ==== Sys2Proof/Laws/Bits.lean ====
section
/-! SUPPORT. The register form of a Code (`spec/00_scope.md` R8), the bits of a byte, and the accumulator. -/

namespace Sys2Proof.Machine

/-! ## Codes in registers -/

@[simp] theorem codeBits_zero (v : CodeReg) : codeBits 0 v = [] := rfl

theorem codeBits_succ (n : Nat) (v : CodeReg) : codeBits (n + 1) v = v.getLsbD n :: codeBits n v := rfl

@[simp] theorem length_codeBits (n : Nat) (v : CodeReg) : (codeBits n v).length = n := by
  induction n with
  | zero => rfl
  | succ n ih => simp [codeBits_succ, ih]

/-- Only the n low bits of V count. -/
theorem codeBits_congr {n : Nat} {v v' : CodeReg} (h : ∀ i, i < n → v.getLsbD i = v'.getLsbD i) :
    codeBits n v = codeBits n v' := by
  induction n with
  | zero => rfl
  | succ n ih => rw [codeBits_succ, codeBits_succ, h n (by omega), ih fun i hi => h i (by omega)]

/-- Bit k of the sequence is V[L-1-k] (R8). -/
theorem getElem?_codeBits (n : Nat) (v : CodeReg) (k : Nat) (hk : k < n) :
    (codeBits n v)[k]? = some (v.getLsbD (n - 1 - k)) := by
  induction n generalizing k with
  | zero => omega
  | succ n ih =>
    cases k with
    | zero => simp [codeBits_succ]
    | succ k =>
      rw [codeBits_succ, List.getElem?_cons_succ, ih k (by omega)]
      congr 2
      omega

/-- A left shift that brings in b appends b to the sequence. -/
theorem codeBits_snoc {n : Nat} {v v' : CodeReg} {b : Bool} (h0 : v'.getLsbD 0 = b)
    (h : ∀ i, i < n → v'.getLsbD (i + 1) = v.getLsbD i) : codeBits (n + 1) v' = codeBits n v ++ [b] := by
  induction n with
  | zero => rw [codeBits_succ, h0]; rfl
  | succ n ih =>
    rw [codeBits_succ, h n (by omega), ih fun i hi => h i (by omega), codeBits_succ, List.cons_append]

@[simp] theorem codeValue_nil : codeValue [] = 0 := rfl

theorem codeValue_snoc (c : Bits) (b : Bool) : codeValue (c ++ [b]) = 2 * codeValue c + b.toNat := by
  simp [codeValue, List.foldl_append]

theorem codeValue_lt (c : Bits) : codeValue c < 2 ^ c.length := by
  induction c using List.reverseRecOn with
  | nil => simp
  | append_singleton c b ih =>
    rw [codeValue_snoc, List.length_append, List.length_singleton, Nat.pow_succ]
    have : b.toNat ≤ 1 := Bool.toNat_le b
    omega

theorem codeValue_cons (b : Bool) (c : Bits) : codeValue (b :: c) = b.toNat * 2 ^ c.length + codeValue c := by
  induction c using List.reverseRecOn with
  | nil => simp [codeValue]
  | append_singleton c x ih =>
    rw [← List.cons_append, codeValue_snoc, codeValue_snoc, ih, List.length_append, List.length_singleton,
      Nat.pow_succ]
    ring

theorem mod_two_pow_succ (v n : Nat) : v % 2 ^ (n + 1) = (v.testBit n).toNat * 2 ^ n + v % 2 ^ n := by
  rw [Nat.mod_pow_succ, Nat.toNat_testBit]
  ring

/-- The value of the n low bits of V. -/
theorem codeValue_codeBits (n : Nat) (v : CodeReg) : codeValue (codeBits n v) = v.toNat % 2 ^ n := by
  induction n with
  | zero => simp [Nat.mod_one]
  | succ n ih =>
    rw [codeBits_succ, codeValue_cons, length_codeBits, ih, mod_two_pow_succ, BitVec.getLsbD]

/-- The sequence is determined by its length and its value. -/
theorem codeBits_eq_of_value {n : Nat} {v : CodeReg} {c : Bits} (hl : c.length = n)
    (hv : v.toNat % 2 ^ n = codeValue c) : codeBits n v = c := by
  induction n generalizing c with
  | zero => rw [codeBits_zero, List.length_eq_zero_iff.1 hl]
  | succ n ih =>
    cases c with
    | nil => simp at hl
    | cons b c =>
      have hl' : c.length = n := by simpa using hl
      rw [codeValue_cons, hl', mod_two_pow_succ] at hv
      have h1 := codeValue_lt c
      rw [hl'] at h1
      have h2 : v.toNat % 2 ^ n < 2 ^ n := Nat.mod_lt _ (by positivity)
      have hb : (v.toNat.testBit n).toNat = b.toNat := by
        have e1 := Bool.toNat_le (v.toNat.testBit n)
        have e2 := Bool.toNat_le b
        rcases Nat.lt_trichotomy (v.toNat.testBit n).toNat b.toNat with h | h | h
        · have h3 : (v.toNat.testBit n).toNat = 0 := by omega
          have h4 : b.toNat = 1 := by omega
          rw [h3, h4] at hv
          omega
        · exact h
        · have h3 : (v.toNat.testBit n).toNat = 1 := by omega
          have h4 : b.toNat = 0 := by omega
          rw [h3, h4] at hv
          omega
      rw [hb] at hv
      rw [codeBits_succ, ih hl' (by rw [Nat.mul_comm] at hv; omega)]
      congr 1
      rw [BitVec.getLsbD]
      revert hb
      cases v.toNat.testBit n <;> cases b <;> simp

/-- A code of at most 255 bits is what its register pair stands for (R8). -/
theorem codeBits_codeValue {c : Bits} (hc : c.length ≤ 255) :
    codeBits c.length (BitVec.ofNat 255 (codeValue c)) = c := by
  have h1 := codeValue_lt c
  have h2 : 2 ^ c.length ≤ 2 ^ 255 := Nat.pow_le_pow_right (by omega) hc
  apply codeBits_eq_of_value rfl
  rw [BitVec.toNat_ofNat, Nat.mod_eq_of_lt (a := codeValue c) (b := 2 ^ 255) (by omega), Nat.mod_eq_of_lt h1]

/-! ## Staging -/

theorem fitCode_eq {c : Config} {v : CodeReg} (h : v.toNat < 2 ^ c.maxLen) : fitCode c v = v := by
  rw [fitCode, Nat.mod_eq_of_lt h]
  simp

theorem toNat_shiftIn (v : CodeReg) (b : Bool) (h : v.toNat < 2 ^ 254) :
    ((v <<< 1) ||| (BitVec.ofBool b).setWidth 255).toNat = 2 * v.toNat + b.toNat := by
  rw [BitVec.toNat_or, BitVec.toNat_shiftLeft, Nat.shiftLeft_eq, Nat.mod_eq_of_lt (by omega)]
  have hb : ((BitVec.ofBool b).setWidth 255).toNat = b.toNat := by cases b <;> rfl
  rw [hb, Nat.mul_comm, ← Nat.two_pow_add_eq_or_of_lt (i := 1) (by have := Bool.toNat_le b; omega)]

/-- One more bit on a staged code that has room. -/
theorem toNat_shiftInCode {c : Config} {v : CodeReg} {n : Nat} (b : Bool) (hv : v.toNat < 2 ^ n)
    (hn : n < c.maxLen) (hc : c.maxLen ≤ 255) : (shiftInCode c v b).toNat = 2 * v.toNat + b.toNat := by
  have h1 : 2 ^ n ≤ 2 ^ 254 := Nat.pow_le_pow_right (by omega) (by omega)
  have h2 := toNat_shiftIn v b (by omega)
  have h3 : 2 ^ (n + 1) ≤ 2 ^ c.maxLen := Nat.pow_le_pow_right (by omega) hn
  have hb := Bool.toNat_le b
  rw [shiftInCode, fitCode_eq, h2]
  rw [h2]
  rw [Nat.pow_succ] at h3
  omega

/-! ## Bytes and the accumulator -/

theorem byteBits_eq_codeBits (b : Byte) : byteBits b = codeBits 8 (b.setWidth 255) := by
  simp [byteBits, codeBits]

@[simp] theorem length_byteBits (b : Byte) : (byteBits b).length = 8 := rfl

@[simp] theorem streamBits_nil : streamBits [] = [] := rfl

theorem streamBits_append (x z : List Byte) : streamBits (x ++ z) = streamBits x ++ streamBits z := by
  simp [streamBits]

theorem streamBits_singleton (b : Byte) : streamBits [b] = byteBits b := by simp [streamBits]

theorem length_streamBits (x : List Byte) : (streamBits x).length = 8 * x.length := by
  induction x with
  | nil => rfl
  | cons b x ih =>
    have : streamBits (b :: x) = byteBits b ++ streamBits x := rfl
    rw [this, List.length_append, ih, length_byteBits, List.length_cons]
    omega

@[simp] theorem length_pendingBits (s : State) : (pendingBits s).length = s.nbits.toNat := length_codeBits _ _

theorem pendingBits_of_nbits_zero {s : State} (h : s.nbits = 0) : pendingBits s = [] := by
  simp [pendingBits, h]

/-- The accumulator after a shift by one place: bit i has moved to bit i + 1. -/
theorem getLsbD_shiftIn (a : BitVec 8) (b : Bool) (i : Nat) (hi : i < 7) :
    (((a <<< 1) ||| (BitVec.ofBool b).setWidth 8).setWidth 255).getLsbD (i + 1) = (a.setWidth 255).getLsbD i := by
  have h1 : i + 1 < 255 := by omega
  have h2 : i + 1 < 8 := by omega
  have h3 : i < 255 := by omega
  rw [BitVec.getLsbD_setWidth, BitVec.getLsbD_setWidth, BitVec.getLsbD_or, BitVec.getLsbD_shiftLeft,
    BitVec.getLsbD_setWidth, BitVec.getLsbD_ofBool]
  simp [h1, h2, h3]

/-- One code bit while fewer than seven are pending. -/
theorem packBit_of_ne {s : State} (b : Bool) (h : s.nbits ≠ 7) :
    (packBit b s).pkOut = s.pkOut ∧ (packBit b s).nbits.toNat = s.nbits.toNat + 1 ∧
      pendingBits (packBit b s) = pendingBits s ++ [b] := by
  have hlt : s.nbits.toNat < 7 := by
    have h1 : s.nbits.toNat < 8 := s.nbits.isLt
    have h2 : s.nbits.toNat ≠ 7 := fun e => h (BitVec.eq_of_toNat_eq e)
    omega
  have hn : (s.nbits + 1).toNat = s.nbits.toNat + 1 := by
    rw [BitVec.toNat_add]
    exact Nat.mod_eq_of_lt (by simp; omega)
  rw [packBit, if_neg h]
  refine ⟨rfl, hn, ?_⟩
  simp only [pendingBits, hn]
  apply codeBits_snoc
  · cases b <;> simp
  · exact fun i hi => getLsbD_shiftIn s.acc b i (by omega)

/-- The code bit that fills a byte. -/
theorem packBit_of_eq {s : State} (b : Bool) (h : s.nbits = 7) :
    (packBit b s).nbits = 0 ∧ (packBit b s).acc = 0 ∧
      ∃ a, (packBit b s).pkOut = s.pkOut ++ [a] ∧ byteBits a = pendingBits s ++ [b] := by
  rw [packBit, if_pos h]
  refine ⟨rfl, rfl, _, rfl, ?_⟩
  rw [byteBits_eq_codeBits]
  have h7 : s.nbits.toNat = 7 := by rw [h]; rfl
  rw [pendingBits, h7]
  apply codeBits_snoc
  · cases b <;> simp
  · exact fun i hi => getLsbD_shiftIn s.acc b i (by omega)

/-- PKSYM's loop writes ACC, NBITS and PK_OUT and nothing else. -/
theorem packBits_frame (bs : Bits) (s : State) :
    packBits bs s = { s with
      acc := (packBits bs s).acc, nbits := (packBits bs s).nbits, pkOut := (packBits bs s).pkOut } := by
  induction bs generalizing s with
  | nil => rfl
  | cons b bs ih =>
    rw [packBits, ih, packBit]
    split <;> rfl

/-- PKSYM's loop: the bytes emitted and the bits left pending are the bits pending before and the new bits, in order. -/
theorem packBits_spec (bs : Bits) (s : State) :
    ∃ out, (packBits bs s).pkOut = s.pkOut ++ out ∧
      streamBits out ++ pendingBits (packBits bs s) = pendingBits s ++ bs := by
  induction bs generalizing s with
  | nil => exact ⟨[], by simp [packBits], by simp [packBits]⟩
  | cons b bs ih =>
    obtain ⟨out, ho, hb⟩ := ih (packBit b s)
    rw [packBits]
    by_cases h : s.nbits = 7
    · obtain ⟨hn, -, a, ha, hab⟩ := packBit_of_eq b h
      refine ⟨a :: out, by rw [ho, ha]; simp, ?_⟩
      have : streamBits (a :: out) = byteBits a ++ streamBits out := rfl
      rw [this, List.append_assoc, hb, hab, pendingBits_of_nbits_zero hn]
      simp
    · obtain ⟨hp, -, hpb⟩ := packBit_of_ne b h
      refine ⟨out, by rw [ho, hp], ?_⟩
      rw [hb, hpb]
      simp

end Sys2Proof.Machine
end

