-- ==== Sys2Proof/Laws/State.lean ====
section
/-! SUPPORT. One lemma per field per update of State: what each named update leaves in each field. -/

namespace Sys2Proof.Machine

/-! ### clearStaging -/

@[simp] theorem clearStaging_cfg (s : State) : (clearStaging s).cfg = s.cfg := rfl
@[simp] theorem clearStaging_port (s : State) : (clearStaging s).port = s.port := rfl
@[simp] theorem clearStaging_stg (s : State) : (clearStaging s).stg = 0 := rfl
@[simp] theorem clearStaging_stglen (s : State) : (clearStaging s).stglen = 0 := rfl
@[simp] theorem clearStaging_stgovf (s : State) : (clearStaging s).stgovf = false := rfl
@[simp] theorem clearStaging_err (s : State) : (clearStaging s).err = s.err := rfl
@[simp] theorem clearStaging_acc (s : State) : (clearStaging s).acc = s.acc := rfl
@[simp] theorem clearStaging_nbits (s : State) : (clearStaging s).nbits = s.nbits := rfl
@[simp] theorem clearStaging_code (s : State) : (clearStaging s).code = s.code := rfl
@[simp] theorem clearStaging_node (s : State) : (clearStaging s).node = s.node := rfl
@[simp] theorem clearStaging_nextFree (s : State) : (clearStaging s).nextFree = s.nextFree := rfl
@[simp] theorem clearStaging_pos (s : State) : (clearStaging s).pos = s.pos := rfl
@[simp] theorem clearStaging_upState (s : State) : (clearStaging s).upState = s.upState := rfl
@[simp] theorem clearStaging_expected (s : State) : (clearStaging s).expected = s.expected := rfl
@[simp] theorem clearStaging_decoded (s : State) : (clearStaging s).decoded = s.decoded := rfl
@[simp] theorem clearStaging_bitpos (s : State) : (clearStaging s).bitpos = s.bitpos := rfl
@[simp] theorem clearStaging_pkOut (s : State) : (clearStaging s).pkOut = s.pkOut := rfl
@[simp] theorem clearStaging_upOut (s : State) : (clearStaging s).upOut = s.upOut := rfl

/-! ### raise -/

@[simp] theorem raise_cfg (c : ErrCause) (s : State) : (raise c s).cfg = s.cfg := rfl
@[simp] theorem raise_port (c : ErrCause) (s : State) : (raise c s).port = s.port := rfl
@[simp] theorem raise_stg (c : ErrCause) (s : State) : (raise c s).stg = s.stg := rfl
@[simp] theorem raise_stglen (c : ErrCause) (s : State) : (raise c s).stglen = s.stglen := rfl
@[simp] theorem raise_stgovf (c : ErrCause) (s : State) : (raise c s).stgovf = s.stgovf := rfl
@[simp] theorem raise_err (c : ErrCause) (s : State) : (raise c s).err = setErr s.err c := rfl
@[simp] theorem raise_acc (c : ErrCause) (s : State) : (raise c s).acc = s.acc := rfl
@[simp] theorem raise_nbits (c : ErrCause) (s : State) : (raise c s).nbits = s.nbits := rfl
@[simp] theorem raise_code (c : ErrCause) (s : State) : (raise c s).code = s.code := rfl
@[simp] theorem raise_node (c : ErrCause) (s : State) : (raise c s).node = s.node := rfl
@[simp] theorem raise_nextFree (c : ErrCause) (s : State) : (raise c s).nextFree = s.nextFree := rfl
@[simp] theorem raise_pos (c : ErrCause) (s : State) : (raise c s).pos = s.pos := rfl
@[simp] theorem raise_upState (c : ErrCause) (s : State) : (raise c s).upState = s.upState := rfl
@[simp] theorem raise_expected (c : ErrCause) (s : State) : (raise c s).expected = s.expected := rfl
@[simp] theorem raise_decoded (c : ErrCause) (s : State) : (raise c s).decoded = s.decoded := rfl
@[simp] theorem raise_bitpos (c : ErrCause) (s : State) : (raise c s).bitpos = s.bitpos := rfl
@[simp] theorem raise_pkOut (c : ErrCause) (s : State) : (raise c s).pkOut = s.pkOut := rfl
@[simp] theorem raise_upOut (c : ErrCause) (s : State) : (raise c s).upOut = s.upOut := rfl

/-! ### emitPk -/

@[simp] theorem emitPk_cfg (b : Byte) (s : State) : (emitPk b s).cfg = s.cfg := rfl
@[simp] theorem emitPk_port (b : Byte) (s : State) : (emitPk b s).port = s.port := rfl
@[simp] theorem emitPk_stg (b : Byte) (s : State) : (emitPk b s).stg = s.stg := rfl
@[simp] theorem emitPk_stglen (b : Byte) (s : State) : (emitPk b s).stglen = s.stglen := rfl
@[simp] theorem emitPk_stgovf (b : Byte) (s : State) : (emitPk b s).stgovf = s.stgovf := rfl
@[simp] theorem emitPk_err (b : Byte) (s : State) : (emitPk b s).err = s.err := rfl
@[simp] theorem emitPk_acc (b : Byte) (s : State) : (emitPk b s).acc = s.acc := rfl
@[simp] theorem emitPk_nbits (b : Byte) (s : State) : (emitPk b s).nbits = s.nbits := rfl
@[simp] theorem emitPk_code (b : Byte) (s : State) : (emitPk b s).code = s.code := rfl
@[simp] theorem emitPk_node (b : Byte) (s : State) : (emitPk b s).node = s.node := rfl
@[simp] theorem emitPk_nextFree (b : Byte) (s : State) : (emitPk b s).nextFree = s.nextFree := rfl
@[simp] theorem emitPk_pos (b : Byte) (s : State) : (emitPk b s).pos = s.pos := rfl
@[simp] theorem emitPk_upState (b : Byte) (s : State) : (emitPk b s).upState = s.upState := rfl
@[simp] theorem emitPk_expected (b : Byte) (s : State) : (emitPk b s).expected = s.expected := rfl
@[simp] theorem emitPk_decoded (b : Byte) (s : State) : (emitPk b s).decoded = s.decoded := rfl
@[simp] theorem emitPk_bitpos (b : Byte) (s : State) : (emitPk b s).bitpos = s.bitpos := rfl
@[simp] theorem emitPk_pkOut (b : Byte) (s : State) : (emitPk b s).pkOut = s.pkOut ++ [b] := rfl
@[simp] theorem emitPk_upOut (b : Byte) (s : State) : (emitPk b s).upOut = s.upOut := rfl

/-! ### emitUp -/

@[simp] theorem emitUp_cfg (b : Byte) (s : State) : (emitUp b s).cfg = s.cfg := rfl
@[simp] theorem emitUp_port (b : Byte) (s : State) : (emitUp b s).port = s.port := rfl
@[simp] theorem emitUp_stg (b : Byte) (s : State) : (emitUp b s).stg = s.stg := rfl
@[simp] theorem emitUp_stglen (b : Byte) (s : State) : (emitUp b s).stglen = s.stglen := rfl
@[simp] theorem emitUp_stgovf (b : Byte) (s : State) : (emitUp b s).stgovf = s.stgovf := rfl
@[simp] theorem emitUp_err (b : Byte) (s : State) : (emitUp b s).err = s.err := rfl
@[simp] theorem emitUp_acc (b : Byte) (s : State) : (emitUp b s).acc = s.acc := rfl
@[simp] theorem emitUp_nbits (b : Byte) (s : State) : (emitUp b s).nbits = s.nbits := rfl
@[simp] theorem emitUp_code (b : Byte) (s : State) : (emitUp b s).code = s.code := rfl
@[simp] theorem emitUp_node (b : Byte) (s : State) : (emitUp b s).node = s.node := rfl
@[simp] theorem emitUp_nextFree (b : Byte) (s : State) : (emitUp b s).nextFree = s.nextFree := rfl
@[simp] theorem emitUp_pos (b : Byte) (s : State) : (emitUp b s).pos = s.pos := rfl
@[simp] theorem emitUp_upState (b : Byte) (s : State) : (emitUp b s).upState = s.upState := rfl
@[simp] theorem emitUp_expected (b : Byte) (s : State) : (emitUp b s).expected = s.expected := rfl
@[simp] theorem emitUp_decoded (b : Byte) (s : State) : (emitUp b s).decoded = s.decoded := rfl
@[simp] theorem emitUp_bitpos (b : Byte) (s : State) : (emitUp b s).bitpos = s.bitpos := rfl
@[simp] theorem emitUp_pkOut (b : Byte) (s : State) : (emitUp b s).pkOut = s.pkOut := rfl
@[simp] theorem emitUp_upOut (b : Byte) (s : State) : (emitUp b s).upOut = s.upOut ++ [b] := rfl

/-! ### nodeWrite -/

@[simp] theorem nodeWrite_cfg (h : Handle) (nd : Node) (s : State) : (nodeWrite h nd s).cfg = s.cfg := rfl
@[simp] theorem nodeWrite_port (h : Handle) (nd : Node) (s : State) : (nodeWrite h nd s).port = s.port := rfl
@[simp] theorem nodeWrite_stg (h : Handle) (nd : Node) (s : State) : (nodeWrite h nd s).stg = s.stg := rfl
@[simp] theorem nodeWrite_stglen (h : Handle) (nd : Node) (s : State) : (nodeWrite h nd s).stglen = s.stglen := rfl
@[simp] theorem nodeWrite_stgovf (h : Handle) (nd : Node) (s : State) : (nodeWrite h nd s).stgovf = s.stgovf := rfl
@[simp] theorem nodeWrite_err (h : Handle) (nd : Node) (s : State) : (nodeWrite h nd s).err = s.err := rfl
@[simp] theorem nodeWrite_acc (h : Handle) (nd : Node) (s : State) : (nodeWrite h nd s).acc = s.acc := rfl
@[simp] theorem nodeWrite_nbits (h : Handle) (nd : Node) (s : State) : (nodeWrite h nd s).nbits = s.nbits := rfl
@[simp] theorem nodeWrite_code (h : Handle) (nd : Node) (s : State) : (nodeWrite h nd s).code = s.code := rfl
@[simp] theorem nodeWrite_node (h : Handle) (nd : Node) (s : State) : (nodeWrite h nd s).node = s.node.write h.toNat nd := rfl
@[simp] theorem nodeWrite_nextFree (h : Handle) (nd : Node) (s : State) : (nodeWrite h nd s).nextFree = s.nextFree := rfl
@[simp] theorem nodeWrite_pos (h : Handle) (nd : Node) (s : State) : (nodeWrite h nd s).pos = s.pos := rfl
@[simp] theorem nodeWrite_upState (h : Handle) (nd : Node) (s : State) : (nodeWrite h nd s).upState = s.upState := rfl
@[simp] theorem nodeWrite_expected (h : Handle) (nd : Node) (s : State) : (nodeWrite h nd s).expected = s.expected := rfl
@[simp] theorem nodeWrite_decoded (h : Handle) (nd : Node) (s : State) : (nodeWrite h nd s).decoded = s.decoded := rfl
@[simp] theorem nodeWrite_bitpos (h : Handle) (nd : Node) (s : State) : (nodeWrite h nd s).bitpos = s.bitpos := rfl
@[simp] theorem nodeWrite_pkOut (h : Handle) (nd : Node) (s : State) : (nodeWrite h nd s).pkOut = s.pkOut := rfl
@[simp] theorem nodeWrite_upOut (h : Handle) (nd : Node) (s : State) : (nodeWrite h nd s).upOut = s.upOut := rfl

/-! ### nodeModify -/

@[simp] theorem nodeModify_cfg (h : Handle) (f : Node → Node) (s : State) : (nodeModify h f s).cfg = s.cfg := rfl
@[simp] theorem nodeModify_port (h : Handle) (f : Node → Node) (s : State) : (nodeModify h f s).port = s.port := rfl
@[simp] theorem nodeModify_stg (h : Handle) (f : Node → Node) (s : State) : (nodeModify h f s).stg = s.stg := rfl
@[simp] theorem nodeModify_stglen (h : Handle) (f : Node → Node) (s : State) : (nodeModify h f s).stglen = s.stglen := rfl
@[simp] theorem nodeModify_stgovf (h : Handle) (f : Node → Node) (s : State) : (nodeModify h f s).stgovf = s.stgovf := rfl
@[simp] theorem nodeModify_err (h : Handle) (f : Node → Node) (s : State) : (nodeModify h f s).err = s.err := rfl
@[simp] theorem nodeModify_acc (h : Handle) (f : Node → Node) (s : State) : (nodeModify h f s).acc = s.acc := rfl
@[simp] theorem nodeModify_nbits (h : Handle) (f : Node → Node) (s : State) : (nodeModify h f s).nbits = s.nbits := rfl
@[simp] theorem nodeModify_code (h : Handle) (f : Node → Node) (s : State) : (nodeModify h f s).code = s.code := rfl
@[simp] theorem nodeModify_node (h : Handle) (f : Node → Node) (s : State) : (nodeModify h f s).node = s.node.write h.toNat (f (s.nodeAt h.toNat)) := rfl
@[simp] theorem nodeModify_nextFree (h : Handle) (f : Node → Node) (s : State) : (nodeModify h f s).nextFree = s.nextFree := rfl
@[simp] theorem nodeModify_pos (h : Handle) (f : Node → Node) (s : State) : (nodeModify h f s).pos = s.pos := rfl
@[simp] theorem nodeModify_upState (h : Handle) (f : Node → Node) (s : State) : (nodeModify h f s).upState = s.upState := rfl
@[simp] theorem nodeModify_expected (h : Handle) (f : Node → Node) (s : State) : (nodeModify h f s).expected = s.expected := rfl
@[simp] theorem nodeModify_decoded (h : Handle) (f : Node → Node) (s : State) : (nodeModify h f s).decoded = s.decoded := rfl
@[simp] theorem nodeModify_bitpos (h : Handle) (f : Node → Node) (s : State) : (nodeModify h f s).bitpos = s.bitpos := rfl
@[simp] theorem nodeModify_pkOut (h : Handle) (f : Node → Node) (s : State) : (nodeModify h f s).pkOut = s.pkOut := rfl
@[simp] theorem nodeModify_upOut (h : Handle) (f : Node → Node) (s : State) : (nodeModify h f s).upOut = s.upOut := rfl

/-! ### codeWrite -/

@[simp] theorem codeWrite_cfg (y : Symbol) (e : CodeEntry) (s : State) : (codeWrite y e s).cfg = s.cfg := rfl
@[simp] theorem codeWrite_port (y : Symbol) (e : CodeEntry) (s : State) : (codeWrite y e s).port = s.port := rfl
@[simp] theorem codeWrite_stg (y : Symbol) (e : CodeEntry) (s : State) : (codeWrite y e s).stg = s.stg := rfl
@[simp] theorem codeWrite_stglen (y : Symbol) (e : CodeEntry) (s : State) : (codeWrite y e s).stglen = s.stglen := rfl
@[simp] theorem codeWrite_stgovf (y : Symbol) (e : CodeEntry) (s : State) : (codeWrite y e s).stgovf = s.stgovf := rfl
@[simp] theorem codeWrite_err (y : Symbol) (e : CodeEntry) (s : State) : (codeWrite y e s).err = s.err := rfl
@[simp] theorem codeWrite_acc (y : Symbol) (e : CodeEntry) (s : State) : (codeWrite y e s).acc = s.acc := rfl
@[simp] theorem codeWrite_nbits (y : Symbol) (e : CodeEntry) (s : State) : (codeWrite y e s).nbits = s.nbits := rfl
@[simp] theorem codeWrite_code (y : Symbol) (e : CodeEntry) (s : State) : (codeWrite y e s).code = s.code.set y.toNat e y.isLt := rfl
@[simp] theorem codeWrite_node (y : Symbol) (e : CodeEntry) (s : State) : (codeWrite y e s).node = s.node := rfl
@[simp] theorem codeWrite_nextFree (y : Symbol) (e : CodeEntry) (s : State) : (codeWrite y e s).nextFree = s.nextFree := rfl
@[simp] theorem codeWrite_pos (y : Symbol) (e : CodeEntry) (s : State) : (codeWrite y e s).pos = s.pos := rfl
@[simp] theorem codeWrite_upState (y : Symbol) (e : CodeEntry) (s : State) : (codeWrite y e s).upState = s.upState := rfl
@[simp] theorem codeWrite_expected (y : Symbol) (e : CodeEntry) (s : State) : (codeWrite y e s).expected = s.expected := rfl
@[simp] theorem codeWrite_decoded (y : Symbol) (e : CodeEntry) (s : State) : (codeWrite y e s).decoded = s.decoded := rfl
@[simp] theorem codeWrite_bitpos (y : Symbol) (e : CodeEntry) (s : State) : (codeWrite y e s).bitpos = s.bitpos := rfl
@[simp] theorem codeWrite_pkOut (y : Symbol) (e : CodeEntry) (s : State) : (codeWrite y e s).pkOut = s.pkOut := rfl
@[simp] theorem codeWrite_upOut (y : Symbol) (e : CodeEntry) (s : State) : (codeWrite y e s).upOut = s.upOut := rfl

/-! ### codeInvalidateAll -/

@[simp] theorem codeInvalidateAll_cfg (s : State) : (codeInvalidateAll s).cfg = s.cfg := rfl
@[simp] theorem codeInvalidateAll_port (s : State) : (codeInvalidateAll s).port = s.port := rfl
@[simp] theorem codeInvalidateAll_stg (s : State) : (codeInvalidateAll s).stg = s.stg := rfl
@[simp] theorem codeInvalidateAll_stglen (s : State) : (codeInvalidateAll s).stglen = s.stglen := rfl
@[simp] theorem codeInvalidateAll_stgovf (s : State) : (codeInvalidateAll s).stgovf = s.stgovf := rfl
@[simp] theorem codeInvalidateAll_err (s : State) : (codeInvalidateAll s).err = s.err := rfl
@[simp] theorem codeInvalidateAll_acc (s : State) : (codeInvalidateAll s).acc = s.acc := rfl
@[simp] theorem codeInvalidateAll_nbits (s : State) : (codeInvalidateAll s).nbits = s.nbits := rfl
@[simp] theorem codeInvalidateAll_code (s : State) : (codeInvalidateAll s).code = s.code.map fun e => { e with valid := false } := rfl
@[simp] theorem codeInvalidateAll_node (s : State) : (codeInvalidateAll s).node = s.node := rfl
@[simp] theorem codeInvalidateAll_nextFree (s : State) : (codeInvalidateAll s).nextFree = s.nextFree := rfl
@[simp] theorem codeInvalidateAll_pos (s : State) : (codeInvalidateAll s).pos = s.pos := rfl
@[simp] theorem codeInvalidateAll_upState (s : State) : (codeInvalidateAll s).upState = s.upState := rfl
@[simp] theorem codeInvalidateAll_expected (s : State) : (codeInvalidateAll s).expected = s.expected := rfl
@[simp] theorem codeInvalidateAll_decoded (s : State) : (codeInvalidateAll s).decoded = s.decoded := rfl
@[simp] theorem codeInvalidateAll_bitpos (s : State) : (codeInvalidateAll s).bitpos = s.bitpos := rfl
@[simp] theorem codeInvalidateAll_pkOut (s : State) : (codeInvalidateAll s).pkOut = s.pkOut := rfl
@[simp] theorem codeInvalidateAll_upOut (s : State) : (codeInvalidateAll s).upOut = s.upOut := rfl

/-! ### presentFirst -/

@[simp] theorem presentFirst_cfg (w : CmdWord) (s : State) : (presentFirst w s).cfg = s.cfg := rfl
@[simp] theorem presentFirst_port (w : CmdWord) (s : State) : (presentFirst w s).port = .word w :: s.port := rfl
@[simp] theorem presentFirst_stg (w : CmdWord) (s : State) : (presentFirst w s).stg = s.stg := rfl
@[simp] theorem presentFirst_stglen (w : CmdWord) (s : State) : (presentFirst w s).stglen = s.stglen := rfl
@[simp] theorem presentFirst_stgovf (w : CmdWord) (s : State) : (presentFirst w s).stgovf = s.stgovf := rfl
@[simp] theorem presentFirst_err (w : CmdWord) (s : State) : (presentFirst w s).err = s.err := rfl
@[simp] theorem presentFirst_acc (w : CmdWord) (s : State) : (presentFirst w s).acc = s.acc := rfl
@[simp] theorem presentFirst_nbits (w : CmdWord) (s : State) : (presentFirst w s).nbits = s.nbits := rfl
@[simp] theorem presentFirst_code (w : CmdWord) (s : State) : (presentFirst w s).code = s.code := rfl
@[simp] theorem presentFirst_node (w : CmdWord) (s : State) : (presentFirst w s).node = s.node := rfl
@[simp] theorem presentFirst_nextFree (w : CmdWord) (s : State) : (presentFirst w s).nextFree = s.nextFree := rfl
@[simp] theorem presentFirst_pos (w : CmdWord) (s : State) : (presentFirst w s).pos = s.pos := rfl
@[simp] theorem presentFirst_upState (w : CmdWord) (s : State) : (presentFirst w s).upState = s.upState := rfl
@[simp] theorem presentFirst_expected (w : CmdWord) (s : State) : (presentFirst w s).expected = s.expected := rfl
@[simp] theorem presentFirst_decoded (w : CmdWord) (s : State) : (presentFirst w s).decoded = s.decoded := rfl
@[simp] theorem presentFirst_bitpos (w : CmdWord) (s : State) : (presentFirst w s).bitpos = s.bitpos := rfl
@[simp] theorem presentFirst_pkOut (w : CmdWord) (s : State) : (presentFirst w s).pkOut = s.pkOut := rfl
@[simp] theorem presentFirst_upOut (w : CmdWord) (s : State) : (presentFirst w s).upOut = s.upOut := rfl

/-! ### growOne -/

@[simp] theorem growOne_cfg (p : Handle) (b : Bool) (s : State) : (growOne p b s).cfg = s.cfg := rfl
@[simp] theorem growOne_port (p : Handle) (b : Bool) (s : State) : (growOne p b s).port = s.port := rfl
@[simp] theorem growOne_stg (p : Handle) (b : Bool) (s : State) : (growOne p b s).stg = s.stg := rfl
@[simp] theorem growOne_stglen (p : Handle) (b : Bool) (s : State) : (growOne p b s).stglen = s.stglen := rfl
@[simp] theorem growOne_stgovf (p : Handle) (b : Bool) (s : State) : (growOne p b s).stgovf = s.stgovf := rfl
@[simp] theorem growOne_err (p : Handle) (b : Bool) (s : State) : (growOne p b s).err = s.err := rfl
@[simp] theorem growOne_acc (p : Handle) (b : Bool) (s : State) : (growOne p b s).acc = s.acc := rfl
@[simp] theorem growOne_nbits (p : Handle) (b : Bool) (s : State) : (growOne p b s).nbits = s.nbits := rfl
@[simp] theorem growOne_code (p : Handle) (b : Bool) (s : State) : (growOne p b s).code = s.code := rfl
@[simp] theorem growOne_nextFree (p : Handle) (b : Bool) (s : State) : (growOne p b s).nextFree = s.nextFree + 1 := rfl
@[simp] theorem growOne_pos (p : Handle) (b : Bool) (s : State) : (growOne p b s).pos = s.pos := rfl
@[simp] theorem growOne_upState (p : Handle) (b : Bool) (s : State) : (growOne p b s).upState = s.upState := rfl
@[simp] theorem growOne_expected (p : Handle) (b : Bool) (s : State) : (growOne p b s).expected = s.expected := rfl
@[simp] theorem growOne_decoded (p : Handle) (b : Bool) (s : State) : (growOne p b s).decoded = s.decoded := rfl
@[simp] theorem growOne_bitpos (p : Handle) (b : Bool) (s : State) : (growOne p b s).bitpos = s.bitpos := rfl
@[simp] theorem growOne_pkOut (p : Handle) (b : Bool) (s : State) : (growOne p b s).pkOut = s.pkOut := rfl
@[simp] theorem growOne_upOut (p : Handle) (b : Bool) (s : State) : (growOne p b s).upOut = s.upOut := rfl

/-! ### The reset event -/

@[simp] theorem portReset_cfg (s : State) : (portReset s).cfg = s.cfg := rfl
@[simp] theorem portReset_port (s : State) : (portReset s).port = s.port := rfl
@[simp] theorem portReset_stg (s : State) : (portReset s).stg = 0 := rfl
@[simp] theorem portReset_stglen (s : State) : (portReset s).stglen = 0 := rfl
@[simp] theorem portReset_stgovf (s : State) : (portReset s).stgovf = false := rfl
@[simp] theorem portReset_err (s : State) : (portReset s).err = 0 := rfl
@[simp] theorem portReset_acc (s : State) : (portReset s).acc = 0 := rfl
@[simp] theorem portReset_nbits (s : State) : (portReset s).nbits = 0 := rfl
@[simp] theorem portReset_code (s : State) : (portReset s).code = Vector.replicate 256 CodeEntry.blank := rfl
@[simp] theorem portReset_node (s : State) : (portReset s).node = [] := rfl
@[simp] theorem portReset_nextFree (s : State) : (portReset s).nextFree = 1 := rfl
@[simp] theorem portReset_pos (s : State) : (portReset s).pos = root := rfl
@[simp] theorem portReset_upState (s : State) : (portReset s).upState = .idle := rfl
@[simp] theorem portReset_expected (s : State) : (portReset s).expected = 0 := rfl
@[simp] theorem portReset_decoded (s : State) : (portReset s).decoded = 0 := rfl
@[simp] theorem portReset_bitpos (s : State) : (portReset s).bitpos = 0 := rfl
@[simp] theorem portReset_pkOut (s : State) : (portReset s).pkOut = [] := rfl
@[simp] theorem portReset_upOut (s : State) : (portReset s).upOut = [] := rfl

/-! ### The derived views of the state -/

@[simp] theorem codeRead_clearStaging (s : State) (y : Symbol) : codeRead (clearStaging s) y = codeRead s y := rfl
@[simp] theorem codeRead_raise (c : ErrCause) (s : State) (y : Symbol) : codeRead (raise c s) y = codeRead s y := rfl
@[simp] theorem nodeAt_clearStaging (s : State) (h : Nat) : (clearStaging s).nodeAt h = s.nodeAt h := rfl
@[simp] theorem nodeAt_raise (c : ErrCause) (s : State) (h : Nat) : (raise c s).nodeAt h = s.nodeAt h := rfl

end Sys2Proof.Machine
end

