-- ==== Sys2Proof/Laws/Memory.lean ====
section
/-! SUPPORT. The laws of the node arena and of the code table: read after write, and the canonical form is kept. -/

namespace Sys2Proof.Machine

@[simp] theorem Memory.read_nil (h : Nat) : Memory.read [] h = Node.blank := rfl

theorem Memory.wfFrom_mono {lo lo' : Nat} (hl : lo' ≤ lo) {m : Memory} (hm : Memory.wfFrom lo m = true) :
    Memory.wfFrom lo' m = true := by
  cases m with
  | nil => rfl
  | cons e m =>
    obtain ⟨k, v⟩ := e
    simp only [Memory.wfFrom, Bool.and_eq_true, decide_eq_true_eq] at hm ⊢
    exact ⟨⟨by omega, hm.1.2⟩, hm.2⟩

/-- A handle below every listed one reads as blank. -/
theorem Memory.read_of_lt {lo : Nat} {m : Memory} (hm : Memory.wfFrom lo m = true) {h : Nat} (hh : h < lo) :
    m.read h = Node.blank := by
  induction m generalizing lo with
  | nil => rfl
  | cons e m ih =>
    obtain ⟨k, v⟩ := e
    simp only [Memory.wfFrom, Bool.and_eq_true, decide_eq_true_eq] at hm
    rw [Memory.read, if_neg (by omega)]
    exact ih hm.2 (by omega)

theorem Memory.wfFrom_write {lo : Nat} {m : Memory} (hm : Memory.wfFrom lo m = true) {h : Nat} (hh : lo ≤ h)
    (x : Node) : Memory.wfFrom lo (m.write h x) = true := by
  induction m generalizing lo with
  | nil =>
    by_cases hx : x = Node.blank <;> simp [Memory.write, Memory.wfFrom, hx, hh]
  | cons e m ih =>
    obtain ⟨k, v⟩ := e
    simp only [Memory.wfFrom, Bool.and_eq_true, decide_eq_true_eq] at hm
    obtain ⟨⟨hk, hv⟩, hm⟩ := hm
    rw [Memory.write]
    split
    · split <;> simp_all [Memory.wfFrom]
    · split
      · subst h
        split
        · exact Memory.wfFrom_mono (by omega) hm
        · simp_all [Memory.wfFrom]
      · simp only [Memory.wfFrom, Bool.and_eq_true, decide_eq_true_eq]
        exact ⟨⟨hk, hv⟩, ih hm (by omega)⟩

/-- Every write keeps the canonical form. -/
theorem Memory.wf_write {m : Memory} (hm : m.wf = true) (h : Nat) (x : Node) : (m.write h x).wf = true :=
  Memory.wfFrom_write hm (Nat.zero_le h) x

/-- The memory after reset lists nothing and is canonical. -/
theorem Memory.wf_reset (c : Config) (port : List PortEvent) : (State.resetWith c port).node.wf = true := rfl

theorem Memory.read_write_same {lo : Nat} {m : Memory} (hm : Memory.wfFrom lo m = true) (h : Nat) (x : Node) :
    (m.write h x).read h = x := by
  induction m generalizing lo with
  | nil => by_cases hx : x = Node.blank <;> simp [Memory.write, Memory.read, hx]
  | cons e m ih =>
    obtain ⟨k, v⟩ := e
    simp only [Memory.wfFrom, Bool.and_eq_true, decide_eq_true_eq] at hm
    rw [Memory.write]
    split
    · split
      · rename_i hlt hx
        rw [Memory.read, if_neg (by omega), Memory.read_of_lt hm.2 (by omega), hx]
      · simp [Memory.read]
    · split
      · subst h
        split
        · rename_i hx
          rw [Memory.read_of_lt hm.2 (by omega), hx]
        · simp [Memory.read]
      · rw [Memory.read, if_neg (by omega)]
        exact ih hm.2

theorem Memory.read_write_other {m : Memory} {h k : Nat} (hk : k ≠ h) (x : Node) :
    (m.write h x).read k = m.read k := by
  induction m with
  | nil =>
    by_cases hx : x = Node.blank
    · simp [Memory.write, hx]
    · simp [Memory.write, Memory.read, hx, Ne.symm hk]
  | cons e m ih =>
    obtain ⟨j, v⟩ := e
    rw [Memory.write]
    split
    · split
      · rfl
      · simp [Memory.read, Ne.symm hk]
    · split
      · subst h
        split <;> simp [Memory.read, Ne.symm hk]
      · simp [Memory.read, ih]

/-- What a read gives after a write to a canonical arena. -/
theorem Memory.read_write {m : Memory} (hm : m.wf = true) (h k : Nat) (x : Node) :
    (m.write h x).read k = if k = h then x else m.read k := by
  split
  · rename_i e
    rw [e, Memory.read_write_same hm]
  · rename_i e
    rw [Memory.read_write_other e]

/-- Two canonical arenas that read alike are equal. -/
theorem Memory.ext_of_read {lo : Nat} {m m' : Memory} (hm : Memory.wfFrom lo m = true)
    (hm' : Memory.wfFrom lo m' = true) (h : ∀ k, m.read k = m'.read k) : m = m' := by
  induction m generalizing lo m' with
  | nil =>
    cases m' with
    | nil => rfl
    | cons e m' =>
      obtain ⟨k, v⟩ := e
      simp only [Memory.wfFrom, Bool.and_eq_true, decide_eq_true_eq] at hm'
      have := h k
      simp only [Memory.read, if_true] at this
      exact absurd this.symm hm'.1.2
  | cons e m ih =>
    obtain ⟨k, v⟩ := e
    simp only [Memory.wfFrom, Bool.and_eq_true, decide_eq_true_eq] at hm
    cases m' with
    | nil =>
      have := h k
      simp only [Memory.read, if_true] at this
      exact absurd this hm.1.2
    | cons e' m' =>
      obtain ⟨k', v'⟩ := e'
      simp only [Memory.wfFrom, Bool.and_eq_true, decide_eq_true_eq] at hm'
      have hk : k = k' := by
        rcases Nat.lt_trichotomy k k' with hlt | heq | hlt
        · have := h k
          simp only [Memory.read, if_true, if_neg (Nat.ne_of_gt hlt)] at this
          rw [Memory.read_of_lt hm'.2 (by omega)] at this
          exact absurd this hm.1.2
        · exact heq
        · have := h k'
          simp only [Memory.read, if_true, if_neg (Nat.ne_of_gt hlt)] at this
          rw [Memory.read_of_lt hm.2 (by omega)] at this
          exact absurd this.symm hm'.1.2
      subst hk
      have hv := h k
      simp only [Memory.read, if_true] at hv
      subst hv
      rw [ih hm.2 hm'.2]
      intro j
      by_cases hj : k = j
      · subst hj
        rw [Memory.read_of_lt hm.2 (by omega), Memory.read_of_lt hm'.2 (by omega)]
      · have := h j
        simpa only [Memory.read, if_neg hj] using this

/-! ## Nodes of the state -/

theorem nodeAt_nodeWrite {s : State} (hs : s.node.wf = true) (h : Handle) (nd : Node) (k : Nat) :
    (nodeWrite h nd s).nodeAt k = if k = h.toNat then nd else s.nodeAt k :=
  Memory.read_write hs h.toNat k nd

theorem nodeAt_nodeModify {s : State} (hs : s.node.wf = true) (h : Handle) (f : Node → Node) (k : Nat) :
    (nodeModify h f s).nodeAt k = if k = h.toNat then f (s.nodeAt k) else s.nodeAt k := by
  rw [nodeModify, nodeAt_nodeWrite hs]
  split
  · rename_i e
    rw [e]
  · rfl

theorem nodeRead_eq_some {s : State} {h : Handle} {nd : Node} (hr : nodeRead s h = some nd) :
    h.toNat < s.cfg.nNodes ∧ nd = s.nodeAt h.toNat := by
  unfold nodeRead at hr
  split at hr
  · exact ⟨‹_›, by simpa using hr.symm⟩
  · cases hr

theorem nodeRead_of_lt {s : State} {h : Handle} (hh : h.toNat < s.cfg.nNodes) :
    nodeRead s h = some (s.nodeAt h.toNat) := if_pos hh

/-! ## Children -/

@[simp] theorem Node.child_setChild (nd : Node) (b b' : Bool) (h : Handle) :
    (nd.setChild b h).child b' = if b = b' then h else nd.child b' := by
  cases b <;> cases b' <;> rfl

@[simp] theorem Node.leaf_setChild (nd : Node) (b : Bool) (h : Handle) : (nd.setChild b h).leaf = nd.leaf := by
  cases b <;> rfl

@[simp] theorem Node.sym_setChild (nd : Node) (b : Bool) (h : Handle) : (nd.setChild b h).sym = nd.sym := by
  cases b <;> rfl

@[simp] theorem Node.child_cleared (nd : Node) (b : Bool) : nd.cleared.child b = nil := by cases b <;> rfl

@[simp] theorem Node.leaf_cleared (nd : Node) : nd.cleared.leaf = false := rfl

@[simp] theorem Node.sym_cleared (nd : Node) : nd.cleared.sym = nd.sym := rfl

@[simp] theorem Node.child_blank (b : Bool) : Node.blank.child b = nil := by cases b <;> rfl

@[simp] theorem nil_toNat : nil.toNat = 0 := rfl

@[simp] theorem root_toNat : root.toNat = 0 := rfl

/-! ## The code table -/

theorem codeRead_codeWrite (y : Symbol) (e : CodeEntry) (s : State) (z : Symbol) :
    codeRead (codeWrite y e s) z = if z = y then e else codeRead s z := by
  simp only [codeRead, codeWrite, Vector.getElem_set]
  by_cases h : z = y
  · simp [h]
  · have h' : ¬ y.toNat = z.toNat := fun e => h (BitVec.eq_of_toNat_eq e.symm)
    simp [h, h']

theorem codeRead_codeInvalidateAll (s : State) (y : Symbol) :
    codeRead (codeInvalidateAll s) y = { codeRead s y with valid := false } := by
  simp [codeRead, codeInvalidateAll]

theorem codeRead_resetWith (c : Config) (port : List PortEvent) (y : Symbol) :
    codeRead (State.resetWith c port) y = CodeEntry.blank := by
  simp [codeRead, State.resetWith]

end Sys2Proof.Machine
end

