-- ==== Sys2Proof/Laws/Tree.lean ====
section
/-! SUPPORT. Paths in the arena: what `follow` does, and what the shape of R45 says about paths. -/

namespace Sys2Proof.Machine

/-! ## Paths -/

@[simp] theorem follow_nil (s : State) (h : Nat) : follow s h [] = some h := rfl

theorem follow_append (s : State) (h : Nat) (x z : Bits) :
    follow s h (x ++ z) = (follow s h x).bind fun k => follow s k z := by
  induction x generalizing h with
  | nil => rfl
  | cons b x ih =>
    simp only [List.cons_append, follow]
    split
    · rfl
    · exact ih _

theorem follow_snoc {s : State} {h k : Nat} {x : Bits} {b : Bool} :
    follow s h (x ++ [b]) = some k ↔ ∃ j, follow s h x = some j ∧ s.childAt j b = k ∧ k ≠ 0 := by
  rw [follow_append]
  cases follow s h x with
  | none => simp
  | some j =>
    simp only [Option.bind_some, follow, Option.some.injEq, exists_eq_left']
    split
    · rename_i hz
      simp only [reduceCtorEq, false_iff, not_and, not_not]
      exact fun e => e ▸ hz
    · rename_i hz
      simp only [Option.some.injEq]
      exact ⟨fun e => ⟨e, e ▸ hz⟩, fun e => e.1⟩

/-- A path whose every prefix exists: a prefix of a path is a path. -/
theorem follow_prefix {s : State} {h k : Nat} {x z : Bits} (hx : follow s h (x ++ z) = some k) :
    ∃ j, follow s h x = some j ∧ follow s j z = some k := by
  rw [follow_append] at hx
  cases hf : follow s h x with
  | none => simp [hf] at hx
  | some j => exact ⟨j, rfl, by simpa [hf] using hx⟩

theorem follow_congr {s t : State} (hc : ∀ h b, t.childAt h b = s.childAt h b) (h : Nat) (x : Bits) :
    follow t h x = follow s h x := by
  induction x generalizing h with
  | nil => rfl
  | cons b x ih => simp only [follow, hc, ih]

/-! ## Shape: the part of R45 that says the allocated nodes form a tree rooted at 0 -/

/-- The allocated nodes, their children and their leaf bits form a tree rooted at handle 0. -/
structure Shape (s : State) : Prop where
  one_le : 1 ≤ s.nextFree.toNat
  child_lt : ∀ h, h < s.nextFree.toNat → ∀ b, s.childAt h b < s.nextFree.toNat
  child_above : ∀ h, h < s.nextFree.toNat → ∀ b, s.childAt h b ≠ 0 → h < s.childAt h b
  has_parent : ∀ h, 1 ≤ h → h < s.nextFree.toNat → ∃ p b, p < s.nextFree.toNat ∧ s.childAt p b = h
  one_parent : ∀ p p' b b', p < s.nextFree.toNat → p' < s.nextFree.toNat → s.childAt p b ≠ 0 →
    s.childAt p b = s.childAt p' b' → p = p' ∧ b = b'
  root_inner : (s.nodeAt 0).leaf = false
  leaf_bare : ∀ h, h < s.nextFree.toNat → (s.nodeAt h).leaf = true → ∀ b, s.childAt h b = 0

theorem TreeInv.shape {s : State} (ht : TreeInv s) : Shape s :=
  ⟨ht.one_le_nextFree, ht.child_lt, ht.child_above, ht.has_parent, ht.one_parent, ht.root_inner, ht.leaf_bare⟩

namespace Shape

variable {s : State}

/-- A path from an allocated node ends in an allocated node. -/
theorem follow_lt (hs : Shape s) {h k : Nat} {x : Bits} (hh : h < s.nextFree.toNat)
    (hx : follow s h x = some k) : k < s.nextFree.toNat := by
  induction x generalizing h with
  | nil => simp only [follow_nil, Option.some.injEq] at hx; omega
  | cons b x ih =>
    simp only [follow] at hx
    split at hx
    · cases hx
    · exact ih (hs.child_lt h hh b) hx

theorem follow_root_lt (hs : Shape s) {k : Nat} {x : Bits} (hx : follow s 0 x = some k) :
    k < s.nextFree.toNat := hs.follow_lt (by have := hs.one_le; omega) hx

/-- Every allocated node is reached from the root. -/
theorem reached (hs : Shape s) (h : Nat) (hh : h < s.nextFree.toNat) : ∃ x, follow s 0 x = some h := by
  induction h using Nat.strongRecOn with
  | ind h ih =>
    rcases Nat.eq_zero_or_pos h with rfl | hpos
    · exact ⟨[], rfl⟩
    · obtain ⟨p, b, hp, hc⟩ := hs.has_parent h hpos hh
      have hlt : p < h := by
        have := hs.child_above p hp b (by omega)
        omega
      obtain ⟨x, hx⟩ := ih p hlt hp
      exact ⟨x ++ [b], follow_snoc.2 ⟨p, hx, hc, by omega⟩⟩

/-- Only one path leads from the root to a node. -/
theorem follow_inj (hs : Shape s) {h : Nat} {x z : Bits} (hx : follow s 0 x = some h) (hz : follow s 0 z = some h) :
    x = z := by
  induction x using List.reverseRecOn generalizing h z with
  | nil =>
    simp only [follow_nil, Option.some.injEq] at hx
    rcases List.eq_nil_or_concat z with rfl | ⟨z, b, rfl⟩
    · rfl
    · rw [List.concat_eq_append] at hz
      obtain ⟨j, -, -, hne⟩ := follow_snoc.1 hz
      omega
  | append_singleton x b ih =>
    obtain ⟨j, hj, hjc, hne⟩ := follow_snoc.1 hx
    rcases List.eq_nil_or_concat z with rfl | ⟨z, b', rfl⟩
    · simp only [follow_nil, Option.some.injEq] at hz
      omega
    · rw [List.concat_eq_append] at hz ⊢
      obtain ⟨j', hj', hjc', -⟩ := follow_snoc.1 hz
      obtain ⟨rfl, rfl⟩ := hs.one_parent j j' b b' (hs.follow_root_lt hj) (hs.follow_root_lt hj') (by omega)
        (by omega)
      rw [ih hj hj']

/-- A path from a leaf is empty. -/
theorem follow_leaf (hs : Shape s) {h k : Nat} {x : Bits} (hh : h < s.nextFree.toNat)
    (hl : (s.nodeAt h).leaf = true) (hx : follow s h x = some k) : x = [] := by
  cases x with
  | nil => rfl
  | cons b x => simp [follow, hs.leaf_bare h hh hl b] at hx

/-- The codes of the tree are prefix-free (R160). -/
theorem prefixFree (hs : Shape s) : PrefixFree (HasCode s) := by
  rintro c y c' y' ⟨h, hc, hl, rfl⟩ ⟨h', hc', -, rfl⟩ ⟨z, rfl⟩
  obtain ⟨j, hj, hz⟩ := follow_prefix hc'
  obtain rfl : h = j := by simpa [hc] using hj
  obtain rfl := hs.follow_leaf (hs.follow_root_lt hc) hl hz
  simp only [follow_nil, Option.some.injEq] at hz
  simp [hz]

/-- No code of the tree is empty: the root is never a leaf (R162 corner case b). -/
theorem no_empty_code (hs : Shape s) (y : Symbol) : ¬ HasCode s [] y := by
  rintro ⟨h, hh, hl, -⟩
  simp only [follow_nil, Option.some.injEq] at hh
  subst hh
  simp [hs.root_inner] at hl

end Shape

/-! ## The nodes are the prefixes of the codes (R160) -/

/-- Below every allocated node but a childless root there is a leaf. -/
theorem TreeInv.leaf_below {s : State} (ht : TreeInv s) (h : Nat) (h1 : 1 ≤ h) (hh : h < s.nextFree.toNat) :
    ∃ x k, follow s h x = some k ∧ k < s.nextFree.toNat ∧ (s.nodeAt k).leaf = true := by
  induction hn : s.nextFree.toNat - h using Nat.strongRecOn generalizing h with
  | ind n ih =>
    by_cases hl : (s.nodeAt h).leaf = true
    · exact ⟨[], h, rfl, hh, hl⟩
    · obtain ⟨b, hb⟩ := ht.inner_parent h h1 hh (by simpa using hl)
      have habove := ht.child_above h hh b hb
      have hlt := ht.child_lt h hh b
      obtain ⟨x, k, hx, hk, hkl⟩ := ih (s.nextFree.toNat - s.childAt h b) (by omega) _ (by omega) hlt rfl
      exact ⟨b :: x, k, by simp [follow, hb, hx], hk, hkl⟩

/-- A bit sequence leads to a node exactly when it is empty or a prefix of a code. -/
theorem TreeInv.isNode_iff {s : State} (ht : TreeInv s) (p : Bits) :
    (∃ h, follow s 0 p = some h) ↔ p = [] ∨ IsCodePrefix (HasCode s) p := by
  constructor
  · rintro ⟨h, hp⟩
    rcases List.eq_nil_or_concat p with rfl | ⟨p', b, rfl⟩
    · exact .inl rfl
    · have h1 : 1 ≤ h := by
        rw [List.concat_eq_append] at hp
        obtain ⟨-, -, -, hne⟩ := follow_snoc.1 hp
        omega
      obtain ⟨x, k, hx, -, hkl⟩ := ht.leaf_below h h1 (ht.shape.follow_root_lt hp)
      refine .inr ⟨p'.concat b ++ x, (s.nodeAt k).sym, ⟨k, ?_, hkl, rfl⟩, List.prefix_append _ _⟩
      rw [follow_append, hp]
      exact hx
  · rintro (rfl | ⟨c, y, ⟨h, hc, -⟩, ⟨z, rfl⟩⟩)
    · exact ⟨0, rfl⟩
    · obtain ⟨j, hj, -⟩ := follow_prefix hc
      exact ⟨j, hj⟩

end Sys2Proof.Machine
end

