-- ==== Sys2Proof/Laws/Grow.lean ====
section
/-! SUPPORT. What UPINS does to the arena: its descent, one new node, the whole new path. -/

namespace Sys2Proof.Machine

/-! ## Phase 1: the descent -/

/-- All that a descent can answer. -/
theorem descend_cases {s : State} (p : Handle) (c : Bits) :
    match descend s p c with
    | .outside h => s.cfg.nNodes ≤ h.toNat ∧ ∃ q, q <+: c ∧ follow s p.toNat q = some h.toNat
    | .conflict =>
      (∃ q h, q <+: c ∧ follow s p.toNat q = some h ∧ (s.nodeAt h).leaf = true) ∨
        ∃ h, follow s p.toNat c = some h
    | .absent q rest =>
      ∃ d b bs, rest = b :: bs ∧ c = d ++ rest ∧ follow s p.toNat d = some q.toNat ∧
        (s.nodeAt q.toNat).leaf = false ∧ s.childAt q.toNat b = 0 ∧ q.toNat < s.cfg.nNodes := by
  induction c generalizing p with
  | nil => exact .inr ⟨p.toNat, rfl⟩
  | cons b c ih =>
    rw [descend]
    cases hr : nodeRead s p with
    | none =>
      refine ⟨?_, [], List.nil_prefix, rfl⟩
      unfold nodeRead at hr
      split at hr
      · cases hr
      · omega
    | some nd =>
      obtain ⟨hp, rfl⟩ := nodeRead_eq_some hr
      dsimp only
      by_cases hl : (s.nodeAt p.toNat).leaf = true
      · rw [if_pos hl]
        exact .inl ⟨[], p.toNat, List.nil_prefix, rfl, hl⟩
      · rw [if_neg hl]
        by_cases hc : (s.nodeAt p.toNat).child b = nil
        · rw [if_pos hc]
          exact ⟨[], b, c, rfl, rfl, rfl, by simpa using hl, by simp [State.childAt, hc], hp⟩
        · rw [if_neg hc]
          have hne : s.childAt p.toNat b ≠ 0 := fun e => hc (BitVec.eq_of_toNat_eq e)
          have hstep : ∀ q, follow s p.toNat (b :: q) = follow s ((s.nodeAt p.toNat).child b).toNat q := by
            intro q
            rw [follow, if_neg hne]
            rfl
          have := ih ((s.nodeAt p.toNat).child b)
          revert this
          cases descend s ((s.nodeAt p.toNat).child b) c with
          | outside h =>
            rintro ⟨h1, q, hq, hf⟩
            exact ⟨h1, b :: q, by simpa using hq, by rw [hstep]; exact hf⟩
          | conflict =>
            rintro (⟨q, h, hq, hf, hl⟩ | ⟨h, hf⟩)
            · exact .inl ⟨b :: q, h, by simpa using hq, by rw [hstep]; exact hf, hl⟩
            · exact .inr ⟨h, by rw [hstep]; exact hf⟩
          | absent q rest =>
            rintro ⟨d, b', bs, h1, h2, h3, h4⟩
            exact ⟨b :: d, b', bs, h1, by rw [h2]; rfl, by rw [hstep]; exact h3, h4⟩

/-- The descent reads only the arena and NNODES. -/
theorem descend_congr {s t : State} (hn : t.node = s.node) (hc : t.cfg = s.cfg) (p : Handle) (c : Bits) :
    descend t p c = descend s p c := by
  induction c generalizing p with
  | nil => rfl
  | cons b c ih => simp only [descend, nodeRead, State.nodeAt, hn, hc, ih]

@[simp] theorem descend_clearStaging (s : State) (p : Handle) (c : Bits) :
    descend (clearStaging s) p c = descend s p c :=
  descend_congr (s := s) (t := clearStaging s) rfl rfl p c

/-! ## Phase 2: one new node -/

/-- The handle of the next new node: it fits its 16 bits while a node is free. -/
theorem newHandle_toNat {s : State} (hn : s.nextFree.toNat < 65536) :
    (s.nextFree.setWidth 16).toNat = s.nextFree.toNat := by
  rw [BitVec.toNat_setWidth]
  exact Nat.mod_eq_of_lt hn

theorem nextFree_add_one {s : State} (hn : s.nextFree.toNat < 65536) :
    (s.nextFree + 1).toNat = s.nextFree.toNat + 1 := by
  rw [BitVec.toNat_add]
  exact Nat.mod_eq_of_lt (by simp; omega)

theorem growOne_wf {s : State} (hw : s.node.wf = true) (p : Handle) (b : Bool) :
    (growOne p b s).node.wf = true := Memory.wf_write (Memory.wf_write hw _ _) _ _

/-- The new node is bare, its parent has one more child, every other node is as before. -/
theorem nodeAt_growOne {s : State} (hw : s.node.wf = true) (hn : s.nextFree.toNat < 65536) (p : Handle) (b : Bool)
    (hp : p.toNat < s.nextFree.toNat) (h : Nat) :
    (growOne p b s).nodeAt h =
      if h = p.toNat then (s.nodeAt h).setChild b (s.nextFree.setWidth 16)
      else if h = s.nextFree.toNat then (s.nodeAt h).cleared else s.nodeAt h := by
  have hw1 : (nodeModify (s.nextFree.setWidth 16) Node.cleared { s with nextFree := s.nextFree + 1 }).node.wf = true :=
    Memory.wf_write hw _ _
  have e : growOne p b s = nodeModify p (fun nd => nd.setChild b (s.nextFree.setWidth 16))
      (nodeModify (s.nextFree.setWidth 16) Node.cleared { s with nextFree := s.nextFree + 1 }) := rfl
  rw [e, nodeAt_nodeModify hw1,
    nodeAt_nodeModify (s := { s with nextFree := s.nextFree + 1 }) hw, newHandle_toNat hn]
  split
  · rw [if_neg (by omega)]
    rfl
  · rfl

theorem childAt_growOne {s : State} (hw : s.node.wf = true) (hn : s.nextFree.toNat < 65536) (p : Handle) (b : Bool)
    (hp : p.toNat < s.nextFree.toNat) (h : Nat) (b' : Bool) :
    (growOne p b s).childAt h b' =
      if h = p.toNat ∧ b' = b then s.nextFree.toNat
      else if h = s.nextFree.toNat then 0 else s.childAt h b' := by
  rw [State.childAt, nodeAt_growOne hw hn p b hp h]
  by_cases h1 : h = p.toNat
  · by_cases h2 : b' = b
    · simp [h1, h2, newHandle_toNat hn]
    · rw [if_pos h1, if_neg (fun e => h2 e.2), if_neg (by omega), Node.child_setChild, if_neg (Ne.symm h2)]
      rfl
  · rw [if_neg h1, if_neg (not_and.2 fun e => absurd e h1)]
    by_cases h2 : h = s.nextFree.toNat
    · rw [if_pos h2, if_pos h2, Node.child_cleared, nil_toNat]
    · rw [if_neg h2, if_neg h2]
      rfl

theorem leaf_growOne {s : State} (hw : s.node.wf = true) (hn : s.nextFree.toNat < 65536) (p : Handle) (b : Bool)
    (hp : p.toNat < s.nextFree.toNat) (h : Nat) :
    ((growOne p b s).nodeAt h).leaf = if h = s.nextFree.toNat then false else (s.nodeAt h).leaf := by
  rw [nodeAt_growOne hw hn p b hp h]
  by_cases h1 : h = p.toNat
  · rw [if_pos h1, if_neg (by omega), Node.leaf_setChild]
  · rw [if_neg h1]
    split <;> rfl

theorem sym_growOne {s : State} (hw : s.node.wf = true) (hn : s.nextFree.toNat < 65536) (p : Handle) (b : Bool)
    (hp : p.toNat < s.nextFree.toNat) (h : Nat) :
    ((growOne p b s).nodeAt h).sym = (s.nodeAt h).sym := by
  rw [nodeAt_growOne hw hn p b hp h]
  split
  · rw [Node.sym_setChild]
  · split <;> rfl

/-! ## Phase 2: the whole path -/

theorem growPath_nil (y : Symbol) (p : Handle) (s : State) :
    growPath y p [] s = nodeModify p (fun nd => { nd with leaf := true, sym := y }) s := rfl

theorem growPath_cons (y : Symbol) (p : Handle) (b : Bool) (bs : Bits) (s : State) :
    growPath y p (b :: bs) s = growPath y (s.nextFree.setWidth 16) bs (growOne p b s) := rfl

/-- A new path writes the arena and NEXT_FREE and nothing else. -/
theorem growPath_frame (y : Symbol) (p : Handle) (bs : Bits) (s : State) :
    growPath y p bs s = { s with node := (growPath y p bs s).node, nextFree := (growPath y p bs s).nextFree } := by
  induction bs generalizing p s with
  | nil => rfl
  | cons b bs ih =>
    rw [growPath_cons, ih]
    rfl

theorem growPath_wf {s : State} (hw : s.node.wf = true) (y : Symbol) (p : Handle) (bs : Bits) :
    (growPath y p bs s).node.wf = true := by
  induction bs generalizing p s with
  | nil => exact Memory.wf_write hw _ _
  | cons b bs ih => exact ih (growOne_wf hw p b) _

theorem growPath_nextFree {s : State} (y : Symbol) (p : Handle) (bs : Bits)
    (hn : s.nextFree.toNat + bs.length ≤ 65536) :
    (growPath y p bs s).nextFree.toNat = s.nextFree.toNat + bs.length := by
  induction bs generalizing p s with
  | nil => rfl
  | cons b bs ih =>
    simp only [List.length_cons] at hn
    have h1 := nextFree_add_one (s := s) (by omega)
    rw [growPath_cons, ih _ (by rw [growOne_nextFree, h1]; omega), growOne_nextFree, h1]
    simp only [List.length_cons]
    omega

/-- The nodes after a new path of at least one bit: the parent's child field, the new nodes in rising order with the
last one a leaf, and every other node as before. -/
theorem growPath_nodeAt {s : State} (hw : s.node.wf = true) (y : Symbol) (p : Handle) (b : Bool) (bs : Bits)
    (hp : p.toNat < s.nextFree.toNat) (hn : s.nextFree.toNat + (b :: bs).length ≤ 65536) :
    let t := growPath y p (b :: bs) s
    let n := s.nextFree.toNat
    (∀ h, h ≠ p.toNat → (h < n ∨ n + (b :: bs).length ≤ h) → t.nodeAt h = s.nodeAt h) ∧
      t.nodeAt p.toNat = (s.nodeAt p.toNat).setChild b (BitVec.ofNat 16 n) ∧
      (∀ i, i < (b :: bs).length →
        ((t.nodeAt (n + i)).leaf = decide (i + 1 = (b :: bs).length)) ∧
        ((t.nodeAt (n + i)).leaf = true → (t.nodeAt (n + i)).sym = y) ∧
        ∀ b', t.childAt (n + i) b' = if (b :: bs)[i + 1]? = some b' then n + i + 1 else 0) := by
  induction bs generalizing p b s with
  | nil =>
    have hlen : s.nextFree.toNat < 65536 := by simp only [List.length_cons, List.length_nil] at hn; omega
    have e : growPath y p [b] s = nodeModify (s.nextFree.setWidth 16) (fun nd => { nd with leaf := true, sym := y })
      (growOne p b s) := rfl
    have hnode : ∀ h, (growPath y p [b] s).nodeAt h =
        if h = s.nextFree.toNat then { (growOne p b s).nodeAt h with leaf := true, sym := y }
        else (growOne p b s).nodeAt h := by
      intro h
      rw [e, nodeAt_nodeModify (growOne_wf hw p b), newHandle_toNat hlen]
    refine ⟨?_, ?_, ?_⟩
    · intro h h1 h2
      simp only [List.length_cons, List.length_nil] at h2
      rw [hnode, if_neg (by omega), nodeAt_growOne hw hlen p b hp, if_neg h1, if_neg (by omega)]
    · rw [hnode, if_neg (by omega), nodeAt_growOne hw hlen p b hp, if_pos rfl]
      rfl
    · intro i hi
      obtain rfl : i = 0 := by simpa using hi
      simp only [Nat.add_zero, hnode, if_true, State.childAt]
      refine ⟨by simp, fun _ => trivial, fun b' => ?_⟩
      have := childAt_growOne hw hlen p b hp s.nextFree.toNat b'
      rw [if_neg (by omega), if_pos rfl] at this
      simpa [Node.child, State.childAt] using this
  | cons b2 bs ih =>
    simp only [List.length_cons] at hn
    have hlen : s.nextFree.toNat < 65536 := by omega
    have h1 : (growOne p b s).nextFree.toNat = s.nextFree.toNat + 1 := by
      rw [growOne_nextFree, nextFree_add_one hlen]
    have hq : (s.nextFree.setWidth 16).toNat = s.nextFree.toNat := newHandle_toNat hlen
    obtain ⟨ihA, ihB, ihC⟩ := ih (growOne_wf hw p b) (s.nextFree.setWidth 16) b2 (by omega)
      (by simp only [List.length_cons]; omega)
    simp only [h1, hq, List.length_cons] at ihA ihB ihC
    have e : growPath y p (b :: b2 :: bs) s = growPath y (s.nextFree.setWidth 16) (b2 :: bs) (growOne p b s) := rfl
    dsimp only
    rw [e]
    refine ⟨?_, ?_, ?_⟩
    · intro h h2 h3
      simp only [List.length_cons] at h3
      rw [ihA h (by omega) (by omega), nodeAt_growOne hw hlen p b hp, if_neg h2, if_neg (by omega)]
    · rw [ihA p.toNat (by omega) (.inl (by omega)), nodeAt_growOne hw hlen p b hp, if_pos rfl]
      rfl
    · intro i hi
      cases i with
      | zero =>
        simp only [Nat.add_zero, ihB, State.childAt, Node.leaf_setChild, Node.sym_setChild, Node.child_setChild,
          leaf_growOne hw hlen p b hp, if_true]
        refine ⟨by simp, by simp, fun b' => ?_⟩
        have hc := childAt_growOne hw hlen p b hp s.nextFree.toNat b'
        rw [if_neg (by omega), if_pos rfl] at hc
        by_cases hb : b2 = b'
        · simp only [hb, List.getElem?_cons_succ, List.getElem?_cons_zero, if_true, Nat.zero_add]
          simp only [BitVec.toNat_ofNat]
          exact Nat.mod_eq_of_lt (by omega)
        · simp only [List.getElem?_cons_succ, List.getElem?_cons_zero, hb, if_false, Nat.zero_add,
            Option.some.injEq]
          exact hc
      | succ i =>
        have := ihC i (by simp only [List.length_cons] at hi ⊢; omega)
        have e2 : s.nextFree.toNat + (i + 1) = s.nextFree.toNat + 1 + i := by omega
        rw [e2]
        refine ⟨?_, this.2.1, ?_⟩
        · rw [this.1]
          simp only [List.length_cons]
          congr 1
          simp only [eq_iff_iff]
          omega
        · intro b'
          rw [this.2.2 b']
          simp only [List.getElem?_cons_succ]

end Sys2Proof.Machine
end

