-- ==== Sys2Proof/Laws/Insert.lean ====
section
/-! SUPPORT. Inserting a path keeps the tree a tree, and adds exactly the nodes and the code of the new path. -/

namespace Sys2Proof.Machine

/-! ## One new node -/

section One

variable {s : State} {p : Handle} {b : Bool}

theorem growOne_shape (hs : Shape s) (hw : s.node.wf = true) (hn : s.nextFree.toNat < 65536)
    (hp : p.toNat < s.nextFree.toNat) (hl : (s.nodeAt p.toNat).leaf = false) (hb : s.childAt p.toNat b = 0) :
    Shape (growOne p b s) := by
  have hc := childAt_growOne hw hn p b hp
  have hleaf := leaf_growOne hw hn p b hp
  have hnf : (growOne p b s).nextFree.toNat = s.nextFree.toNat + 1 := by
    rw [growOne_nextFree, nextFree_add_one hn]
  have hone := hs.one_le
  -- the parent of a child in the new tree is an old node
  have old : ∀ h b', (growOne p b s).childAt h b' ≠ 0 → h < s.nextFree.toNat + 1 → h < s.nextFree.toNat := by
    intro h b' hne hh
    rcases Nat.lt_or_ge h s.nextFree.toNat with h1 | h1
    · exact h1
    · exfalso
      apply hne
      rw [hc, if_neg (by omega), if_pos (by omega)]
  refine ⟨by omega, ?_, ?_, ?_, ?_, ?_, ?_⟩
  · intro h hh b'
    rw [hnf] at hh ⊢
    rw [hc]
    split
    · omega
    · split
      · omega
      · have := hs.child_lt h (by omega) b'
        omega
  · intro h hh b' hne
    rw [hnf] at hh
    have h1 := old h b' hne hh
    rw [hc] at hne ⊢
    split at hne
    · rename_i e
      rw [if_pos e]
      omega
    · rename_i e
      rw [if_neg e]
      rw [if_neg (by omega)] at hne ⊢
      exact hs.child_above h h1 b' hne
  · intro h h1 hh
    rw [hnf] at hh ⊢
    by_cases he : h = s.nextFree.toNat
    · exact ⟨p.toNat, b, by omega, by rw [hc, if_pos ⟨rfl, rfl⟩, he]⟩
    · obtain ⟨q, b', hq, hqc⟩ := hs.has_parent h h1 (by omega)
      refine ⟨q, b', by omega, ?_⟩
      rw [hc, if_neg, if_neg (by omega), hqc]
      rintro ⟨rfl, rfl⟩
      omega
  · intro q q' b1 b2 hq hq' hne heq
    rw [hnf] at hq hq'
    have h1 := old q b1 hne hq
    have h2 := old q' b2 (heq ▸ hne) hq'
    rw [hc, hc] at heq
    rw [hc] at hne
    rw [if_neg (show ¬ q' = s.nextFree.toNat by omega)] at heq
    rw [if_neg (show ¬ q = s.nextFree.toNat by omega)] at heq hne
    have l1 := hs.child_lt q h1 b1
    have l2 := hs.child_lt q' h2 b2
    split at heq
    · split at heq
      · rename_i e1 e2
        exact ⟨e1.1.trans e2.1.symm, e1.2.trans e2.2.symm⟩
      · omega
    · split at heq
      · omega
      · rename_i e1 e2
        rw [if_neg e1] at hne
        exact hs.one_parent q q' b1 b2 h1 h2 hne heq
  · rw [hleaf, if_neg (by omega), hs.root_inner]
  · intro h hh hlf b'
    rw [hnf] at hh
    rw [hleaf] at hlf
    rw [hc]
    split at hlf
    · cases hlf
    · rename_i he
      rw [if_neg, if_neg he]
      · exact hs.leaf_bare h (by omega) hlf b'
      · rintro ⟨rfl, -⟩
        rw [hl] at hlf
        cases hlf

/-- The paths after one new node: the old ones, and the path to p followed by b, which ends in the new node. -/
theorem growOne_follow (hs : Shape s) (hw : s.node.wf = true) (hn : s.nextFree.toNat < 65536)
    (hp : p.toNat < s.nextFree.toNat) (hb : s.childAt p.toNat b = 0) (x : Bits) (h : Nat) :
    follow (growOne p b s) 0 x = some h ↔
      follow s 0 x = some h ∨ h = s.nextFree.toNat ∧ ∃ d, follow s 0 d = some p.toNat ∧ x = d ++ [b] := by
  have hc := childAt_growOne hw hn p b hp
  have hone := hs.one_le
  induction x using List.reverseRecOn generalizing h with
  | nil => simp
  | append_singleton x b' ih =>
    rw [follow_snoc, follow_snoc]
    constructor
    · rintro ⟨j, hj, hjc, hne⟩
      rcases (ih j).1 hj with hj | ⟨rfl, -⟩
      · have hjl := hs.follow_root_lt hj
        rw [hc] at hjc
        split at hjc
        · rename_i e
          exact .inr ⟨hjc.symm, x, by rw [hj, e.1], by rw [e.2]⟩
        · rw [if_neg (by omega)] at hjc
          exact .inl ⟨j, hj, hjc, hne⟩
      · rw [hc, if_neg (by omega), if_pos rfl] at hjc
        omega
    · rintro (⟨j, hj, hjc, hne⟩ | ⟨rfl, d, hd, hx⟩)
      · have hjl := hs.follow_root_lt hj
        refine ⟨j, (ih j).2 (.inl hj), ?_, hne⟩
        rw [hc, if_neg, if_neg (by omega), hjc]
        rintro ⟨rfl, rfl⟩
        omega
      · obtain ⟨rfl, e⟩ := List.append_inj' hx rfl
        obtain rfl : b' = b := by simpa using e
        exact ⟨p.toNat, (ih _).2 (.inl hd), by rw [hc, if_pos ⟨rfl, rfl⟩], by omega⟩

end One

/-! ## The whole path -/

/-- Where a new path may start: an allocated node that is no leaf and has no child for the first bit of the path; an
empty path (the tip of a path already grown) only at a childless node that is not the root. -/
structure CanGrow (s : State) (p : Handle) (bs : Bits) : Prop where
  canonical : s.node.wf = true
  room : s.nextFree.toNat + bs.length ≤ 65536
  lt : p.toNat < s.nextFree.toNat
  inner : (s.nodeAt p.toNat).leaf = false
  absent : ∀ b, bs.head? = some b → s.childAt p.toNat b = 0
  tip : bs = [] → p.toNat ≠ 0 ∧ ∀ b, s.childAt p.toNat b = 0

theorem CanGrow.next {s : State} {p : Handle} {b : Bool} {bs : Bits} (hs : Shape s) (hg : CanGrow s p (b :: bs)) :
    CanGrow (growOne p b s) (s.nextFree.setWidth 16) bs := by
  have hroom := hg.room
  simp only [List.length_cons] at hroom
  have hn : s.nextFree.toNat < 65536 := by omega
  have hq := newHandle_toNat hn
  have hbare : ∀ b', (growOne p b s).childAt s.nextFree.toNat b' = 0 := by
    intro b'
    have := hg.lt
    rw [childAt_growOne hg.canonical hn p b hg.lt, if_neg (by omega), if_pos rfl]
  have hnf : (growOne p b s).nextFree.toNat = s.nextFree.toNat + 1 := by
    rw [growOne_nextFree, nextFree_add_one hn]
  have hone := hs.one_le
  exact {
    canonical := growOne_wf hg.canonical p b
    room := by omega
    lt := by omega
    inner := by rw [hq, leaf_growOne hg.canonical hn p b hg.lt, if_pos rfl]
    absent := fun b' _ => by rw [hq]; exact hbare b'
    tip := fun _ => ⟨by omega, fun b' => by rw [hq]; exact hbare b'⟩ }

theorem growPath_shape {s : State} {p : Handle} {bs : Bits} (hs : Shape s) (hg : CanGrow s p bs) (y : Symbol) :
    Shape (growPath y p bs s) := by
  induction bs generalizing s p with
  | nil =>
    obtain ⟨hp0, hbare⟩ := hg.tip rfl
    have hnode : ∀ h, (growPath y p [] s).nodeAt h =
        if h = p.toNat then { s.nodeAt h with leaf := true, sym := y } else s.nodeAt h :=
      fun h => nodeAt_nodeModify hg.canonical p _ h
    have hc : ∀ h b, (growPath y p [] s).childAt h b = s.childAt h b := by
      intro h b
      rw [State.childAt, hnode]
      split <;> rfl
    refine ⟨hs.one_le, ?_, ?_, ?_, ?_, ?_, ?_⟩
    · intro h hh b; rw [hc]; exact hs.child_lt h hh b
    · intro h hh b; rw [hc]; exact hs.child_above h hh b
    · intro h h1 hh; simp only [hc]; exact hs.has_parent h h1 hh
    · intro q q' b b' hq hq'; rw [hc, hc]; exact hs.one_parent q q' b b' hq hq'
    · rw [hnode, if_neg (by omega)]; exact hs.root_inner
    · intro h hh hl b
      rw [hc]
      rw [hnode] at hl
      split at hl
      · rename_i e
        rw [e]
        exact hbare b
      · exact hs.leaf_bare h hh hl b
  | cons b bs ih =>
    have hroom := hg.room
    simp only [List.length_cons] at hroom
    exact ih (growOne_shape hs hg.canonical (by omega) hg.lt hg.inner (hg.absent b rfl)) (hg.next hs)

/-- The paths after a new path: the old ones, and the path to p followed by each non-empty prefix of the new bits. -/
theorem growPath_follow {s : State} {p : Handle} {bs : Bits} (hs : Shape s) (hg : CanGrow s p bs) (y : Symbol)
    {d : Bits} (hd : follow s 0 d = some p.toNat) (x : Bits) (h : Nat) :
    follow (growPath y p bs s) 0 x = some h ↔
      follow s 0 x = some h ∨ ∃ i, i < bs.length ∧ x = d ++ bs.take (i + 1) ∧ h = s.nextFree.toNat + i := by
  induction bs generalizing s p d with
  | nil =>
    have hc : ∀ h b, (growPath y p [] s).childAt h b = s.childAt h b := by
      intro h b
      rw [State.childAt, growPath_nil, nodeAt_nodeModify hg.canonical]
      split <;> rfl
    rw [follow_congr hc]
    simp
  | cons b bs ih =>
    have hroom := hg.room
    simp only [List.length_cons] at hroom
    have hn : s.nextFree.toNat < 65536 := by omega
    have hone := growOne_follow hs hg.canonical hn hg.lt (hg.absent b rfl)
    have hnf : (growOne p b s).nextFree.toNat = s.nextFree.toNat + 1 := by
      rw [growOne_nextFree, nextFree_add_one hn]
    have hd' : follow (growOne p b s) 0 (d ++ [b]) = some (s.nextFree.setWidth 16).toNat := by
      rw [newHandle_toNat hn, hone]
      exact .inr ⟨rfl, d, hd, rfl⟩
    rw [growPath_cons, ih (growOne_shape hs hg.canonical hn hg.lt hg.inner (hg.absent b rfl)) (hg.next hs) hd',
      hone, hnf]
    constructor
    · rintro ((h1 | ⟨rfl, d', hd2, rfl⟩) | ⟨i, hi, rfl, rfl⟩)
      · exact .inl h1
      · exact .inr ⟨0, by simp, by rw [hs.follow_inj hd2 hd]; simp, rfl⟩
      · exact .inr ⟨i + 1, by simpa using hi, by simp, by omega⟩
    · rintro (h1 | ⟨i, hi, rfl, rfl⟩)
      · exact .inl (.inl h1)
      · cases i with
        | zero => exact .inl (.inr ⟨rfl, d, hd, by simp⟩)
        | succ i => exact .inr ⟨i, by simpa using hi, by simp, by omega⟩

/-! ## The tree after an insertion -/

/-- Everything phase 2 of UPINS needs to know about where phase 1 ended. -/
structure Insertion (s : State) (c : Bits) (p : Handle) (d : Bits) (b : Bool) (bs : Bits) : Prop where
  split : c = d ++ b :: bs
  path : follow s 0 d = some p.toNat
  inner : (s.nodeAt p.toNat).leaf = false
  absent : s.childAt p.toNat b = 0
  room : s.nextFree.toNat + (b :: bs).length ≤ s.cfg.nNodes

section Insertion

variable {s : State} {c d : Bits} {p : Handle} {b : Bool} {bs : Bits}

theorem Insertion.canGrow (hi : Insertion s c p d b bs) (ht : TreeInv s) (hN : s.cfg.nNodes ≤ 65536) :
    CanGrow s p (b :: bs) where
  canonical := ht.canonical
  room := by have := hi.room; omega
  lt := ht.shape.follow_root_lt hi.path
  inner := hi.inner
  absent := by
    intro b' hb
    obtain rfl : b = b' := by simpa using hb
    exact hi.absent
  tip := fun e => by cases e

/-- Old nodes keep their leaf bit and Symbol. -/
theorem Insertion.old_leaf_sym (hi : Insertion s c p d b bs) (ht : TreeInv s) (hN : s.cfg.nNodes ≤ 65536)
    (y : Symbol) {h : Nat} (hh : h < s.nextFree.toNat) :
    ((growPath y p (b :: bs) s).nodeAt h).leaf = (s.nodeAt h).leaf ∧
      ((growPath y p (b :: bs) s).nodeAt h).sym = (s.nodeAt h).sym := by
  have hg := hi.canGrow ht hN
  obtain ⟨hA, hB, -⟩ := growPath_nodeAt hg.canonical y p b bs hg.lt hg.room
  by_cases e : h = p.toNat
  · rw [e, hB]
    exact ⟨Node.leaf_setChild _ _ _, Node.sym_setChild _ _ _⟩
  · rw [hA h e (.inl hh)]
    exact ⟨rfl, rfl⟩

/-- K gains exactly (c, y) (R163). -/
theorem Insertion.hasCode (hi : Insertion s c p d b bs) (ht : TreeInv s) (hN : s.cfg.nNodes ≤ 65536) (y : Symbol)
    (c' : Bits) (y' : Symbol) :
    HasCode (growPath y p (b :: bs) s) c' y' ↔ HasCode s c' y' ∨ c' = c ∧ y' = y := by
  have hg := hi.canGrow ht hN
  have hf := growPath_follow ht.shape hg y hi.path
  obtain ⟨-, -, hC⟩ := growPath_nodeAt hg.canonical y p b bs hg.lt hg.room
  constructor
  · rintro ⟨h, hx, hl, hy⟩
    rcases (hf c' h).1 hx with h1 | ⟨i, hlt, rfl, rfl⟩
    · obtain ⟨e1, e2⟩ := hi.old_leaf_sym ht hN y (ht.shape.follow_root_lt h1)
      exact .inl ⟨h, h1, e1 ▸ hl, e2 ▸ hy⟩
    · obtain ⟨e1, e2, -⟩ := hC i hlt
      have hlen : i + 1 = (b :: bs).length := by
        rw [e1] at hl
        simpa using hl
      refine .inr ⟨?_, ?_⟩
      · rw [hlen, List.take_length, hi.split]
      · rw [← hy, e2 hl]
  · rintro (⟨h, h1, hl, hy⟩ | ⟨rfl, rfl⟩)
    · obtain ⟨e1, e2⟩ := hi.old_leaf_sym ht hN y (ht.shape.follow_root_lt h1)
      exact ⟨h, (hf c' h).2 (.inl h1), e1 ▸ hl, e2 ▸ hy⟩
    · obtain ⟨e1, e2, -⟩ := hC bs.length (by simp)
      have hl : ((growPath y' p (b :: bs) s).nodeAt (s.nextFree.toNat + bs.length)).leaf = true := by
        rw [e1]
        simp
      refine ⟨s.nextFree.toNat + bs.length, (hf _ _).2 (.inr ⟨bs.length, by simp, ?_, rfl⟩), hl, e2 hl⟩
      rw [hi.split]
      simp

/-- The tree invariant holds again. -/
theorem Insertion.treeInv (hi : Insertion s c p d b bs) (ht : TreeInv s) (hN : s.cfg.nNodes ≤ 65536)
    (hc : c.length ≤ s.cfg.maxLen) (y : Symbol) : TreeInv (growPath y p (b :: bs) s) := by
  have hg := hi.canGrow ht hN
  have hs := growPath_shape ht.shape hg y
  have hf := growPath_follow ht.shape hg y hi.path
  have hnf := growPath_nextFree y p (b :: bs) hg.room
  obtain ⟨hA, hB, hC⟩ := growPath_nodeAt hg.canonical y p b bs hg.lt hg.room
  have hcfg : (growPath y p (b :: bs) s).cfg = s.cfg := by rw [growPath_frame]
  have hpos : (growPath y p (b :: bs) s).pos = s.pos := by rw [growPath_frame]
  have hroom := hi.room
  have hone := ht.one_le_nextFree
  have hroom' := hg.room
  refine ⟨growPath_wf hg.canonical y p _, hs.one_le, by rw [hnf, hcfg]; exact hroom, hs.child_lt, hs.child_above,
    hs.has_parent, hs.one_parent, hs.root_inner, hs.leaf_bare, ?_, ?_, ?_, ?_⟩
  · intro h h1 hh hl
    rw [hnf] at hh
    rcases Nat.lt_or_ge h s.nextFree.toNat with hlt | hge
    · by_cases e : h = p.toNat
      · refine ⟨b, ?_⟩
        rw [State.childAt, e, hB, Node.child_setChild, if_pos rfl]
        simp only [List.length_cons] at hroom'
        rw [BitVec.toNat_ofNat, Nat.mod_eq_of_lt (by omega)]
        omega
      · rw [hA h e (.inl hlt)] at hl
        obtain ⟨b', hb'⟩ := ht.inner_parent h h1 hlt hl
        refine ⟨b', ?_⟩
        rw [State.childAt, hA h e (.inl hlt)]
        exact hb'
    · obtain ⟨e1, -, e3⟩ := hC (h - s.nextFree.toNat) (by omega)
      rw [Nat.add_sub_cancel' hge] at e1 e3
      rw [e1] at hl
      have hne : h - s.nextFree.toNat + 1 ≠ (b :: bs).length := by simpa using hl
      have hlt : h - s.nextFree.toNat + 1 < (b :: bs).length := by omega
      refine ⟨(b :: bs)[h - s.nextFree.toNat + 1], ?_⟩
      rw [e3, if_pos (List.getElem?_eq_getElem hlt)]
      omega
  · intro x h hx
    rw [hcfg]
    rcases (hf x h).1 hx with h1 | ⟨i, hlt, rfl, rfl⟩
    · exact ht.depth_le x h h1
    · rw [hi.split] at hc
      simp only [List.length_append, List.length_take, List.length_cons] at hc ⊢
      omega
  · rw [hpos, hnf]
    have := ht.pos_lt
    omega
  · rw [hpos, (hi.old_leaf_sym ht hN y ht.pos_lt).1]
    exact ht.pos_inner

end Insertion

end Sys2Proof.Machine
end

