-- ==== Sys2Proof/Laws/Walk.lean ====
section
/-! SUPPORT. The walk of UPBYTE: all that one bit can do, the invariants along it, and the greedy parse it computes. -/

namespace Sys2Proof.Machine

/-! ## What depends on the arena alone -/

theorem childAt_congr {s t : State} (hn : t.node = s.node) (h : Nat) (b : Bool) : t.childAt h b = s.childAt h b := by
  simp only [State.childAt, State.nodeAt, hn]

theorem follow_congr_node {s t : State} (hn : t.node = s.node) (h : Nat) (x : Bits) : follow t h x = follow s h x :=
  follow_congr (childAt_congr hn) h x

theorem hasCode_congr {s t : State} (hn : t.node = s.node) : HasCode t = HasCode s := by
  funext c y
  simp only [HasCode, follow_congr_node hn, State.nodeAt, hn]

/-- The tree invariant looks at the arena, NEXT_FREE, POS and the parameters only. -/
theorem TreeInv.congr {s t : State} (ht : TreeInv s) (hn : t.node = s.node) (hf : t.nextFree = s.nextFree)
    (hc : t.cfg = s.cfg) (hp : t.pos.toNat < s.nextFree.toNat) (hl : (s.nodeAt t.pos.toNat).leaf = false) :
    TreeInv t := by
  have hca := childAt_congr hn
  have hna : ∀ h, t.nodeAt h = s.nodeAt h := fun h => by simp only [State.nodeAt, hn]
  constructor
  · rw [hn]; exact ht.canonical
  · rw [hf]; exact ht.one_le_nextFree
  · rw [hf, hc]; exact ht.nextFree_le
  · simp only [hf, hca]; exact ht.child_lt
  · simp only [hf, hca]; exact ht.child_above
  · simp only [hf, hca]; exact ht.has_parent
  · simp only [hf, hca]; exact ht.one_parent
  · rw [hna]; exact ht.root_inner
  · simp only [hf, hca, hna]; exact ht.leaf_bare
  · simp only [hf, hca, hna]; exact ht.inner_parent
  · simp only [follow_congr_node hn, hc]; exact ht.depth_le
  · rw [hf]; exact hp
  · rw [hna]; exact hl

/-! ## One bit -/

/-- All that one bit of the walk can do on a tree (R166). -/
theorem walkBit_cases {s : State} (ht : TreeInv s) (x : Bool) :
    (s.childAt s.pos.toNat x = 0 ∧ walkBit x s = .next { s with upState := .invalid }) ∨
      ∃ ch, ch.toNat = s.childAt s.pos.toNat x ∧ ch.toNat ≠ 0 ∧
        (((s.nodeAt ch.toNat).leaf = false ∧
            walkBit x s = .next { s with bitpos := s.bitpos + 1, pos := ch }) ∨
          ((s.nodeAt ch.toNat).leaf = true ∧
            walkBit x s = .next { s with
              bitpos := s.bitpos + 1
              pos := root
              decoded := s.decoded + 1
              upOut := s.upOut ++ [(s.nodeAt ch.toNat).sym]
              upState := if s.decoded + 1 = s.expected then .complete else s.upState })) := by
  have hpos : s.pos.toNat < s.cfg.nNodes := Nat.lt_of_lt_of_le ht.pos_lt ht.nextFree_le
  have hch : s.childAt s.pos.toNat x < s.cfg.nNodes :=
    Nat.lt_of_lt_of_le (ht.child_lt _ ht.pos_lt x) ht.nextFree_le
  unfold walkBit
  rw [nodeRead_of_lt hpos]
  dsimp only
  by_cases hz : (s.nodeAt s.pos.toNat).child x = nil
  · left
    exact ⟨by rw [State.childAt, hz]; rfl, by rw [if_pos hz]⟩
  · right
    have hz' : ((s.nodeAt s.pos.toNat).child x).toNat ≠ 0 := fun e => hz (BitVec.eq_of_toNat_eq e)
    refine ⟨(s.nodeAt s.pos.toNat).child x, rfl, hz', ?_⟩
    rw [if_neg hz, nodeRead_of_lt (h := (s.nodeAt s.pos.toNat).child x) hch]
    dsimp only
    cases hl : (s.nodeAt ((s.nodeAt s.pos.toNat).child x).toNat).leaf with
    | false => exact .inl ⟨rfl, by simp⟩
    | true =>
      refine .inr ⟨rfl, ?_⟩
      simp only [if_true, emitLeaf, emitUp]
      split <;> simp_all

/-- The walk writes POS, BITPOS, DECODED, UP_STATE and UP_OUT and nothing else. -/
theorem walkBit_frame {s t : State} {x : Bool} (h : walkBit x s = .next t) :
    t = { s with pos := t.pos, bitpos := t.bitpos, decoded := t.decoded, upState := t.upState, upOut := t.upOut } := by
  unfold walkBit at h
  split at h
  · cases h
  · split at h
    · cases h; rfl
    · split at h
      · cases h
      · dsimp only at h
        split at h
        · cases h
          unfold emitLeaf
          dsimp only
          split <;> rfl
        · cases h; rfl

theorem andThen_eq_next {o : Host.Outcome State Fault Refusal} {f : State → Host.Outcome State Fault Refusal}
    {t : State} (h : andThen o f = .next t) : ∃ s, o = .next s ∧ f s = .next t := by
  cases o with
  | next s => exact ⟨s, rfl, h⟩
  | fault r => cases h
  | refused r => cases h

@[simp] theorem andThen_next (s : State) (f : State → Host.Outcome State Fault Refusal) :
    andThen (.next s) f = f s := rfl

theorem walkBits_frame {s t : State} {xs : Bits} (h : walkBits xs s = .next t) :
    t = { s with pos := t.pos, bitpos := t.bitpos, decoded := t.decoded, upState := t.upState, upOut := t.upOut } := by
  induction xs generalizing s with
  | nil => cases h; rfl
  | cons x xs ih =>
    rw [walkBits] at h
    split at h
    · obtain ⟨u, hu, hut⟩ := andThen_eq_next h
      have h1 := walkBit_frame hu
      have h2 := ih hut
      rw [h2, h1]
    · cases h; rfl

theorem walkBits_of_ne_run {s : State} (xs : Bits) (h : s.upState ≠ .run) : walkBits xs s = .next s := by
  cases xs with
  | nil => rfl
  | cons x xs => rw [walkBits, if_neg h]

/-! ## The invariants along the walk -/

/-- A path to an inner node is shorter than MAXLEN: an inner node below the root has a child, and MAXLEN is at least 1. -/
theorem TreeInv.inner_depth_lt {s : State} (ht : TreeInv s) (hM : 1 ≤ s.cfg.maxLen) {q : Bits} {h : Nat}
    (hq : follow s 0 q = some h) (hl : (s.nodeAt h).leaf = false) : q.length < s.cfg.maxLen := by
  rcases Nat.eq_zero_or_pos h with rfl | h1
  · rw [ht.shape.follow_inj hq (z := []) rfl]
    exact hM
  · obtain ⟨b, hb⟩ := ht.inner_parent h h1 (ht.shape.follow_root_lt hq) hl
    have := ht.depth_le (q ++ [b]) _ (follow_snoc.2 ⟨h, hq, rfl, hb⟩)
    simp only [List.length_append, List.length_singleton] at this
    omega

/-- BITPOS has room for one more bit during a run (R172). -/
theorem BlockInv.bitpos_add_one {s : State} (hi : BlockInv s) {q : Bits} (hD : s.decoded.toNat < 2 ^ 32)
    (hq : q.length < s.cfg.maxLen) (hb : s.bitpos.toNat ≤ s.decoded.toNat * s.cfg.maxLen + q.length) :
    (s.bitpos + 1).toNat = s.bitpos.toNat + 1 := by
  have hM := hi.cfg.2.1
  have h1 : s.decoded.toNat * s.cfg.maxLen ≤ (2 ^ 32 - 1) * 255 := Nat.mul_le_mul (by omega) hM
  rw [BitVec.toNat_add]
  exact Nat.mod_eq_of_lt (by simp; omega)

theorem decoded_add_one {s : State} (h : s.decoded.toNat < s.expected.toNat) :
    (s.decoded + 1).toNat = s.decoded.toNat + 1 := by
  have := s.expected.isLt
  rw [BitVec.toNat_add]
  exact Nat.mod_eq_of_lt (by simp; omega)

/-- One bit of the walk keeps the invariants. -/
theorem walkBit_inv {s t : State} {x : Bool} (hi : BlockInv s) (hr : s.upState = .run) (h : walkBit x s = .next t) :
    BlockInv t := by
  have ht := hi.tree
  have hM := hi.cfg.1
  have hlt := hi.count.run_lt hr
  obtain ⟨q, hq, hbq⟩ := hi.walk hr
  have hqM := ht.inner_depth_lt hM hq ht.pos_inner
  have hD := decoded_add_one hlt
  have hB := hi.bitpos_add_one (by have := s.decoded.isLt; omega) hqM hbq
  have hle := hi.count.decoded_le_bitpos
  rcases walkBit_cases ht x with ⟨hz, e⟩ | ⟨ch, hch, hne, ⟨hl, e⟩ | ⟨hl, e⟩⟩
  · obtain rfl := Host.Outcome.next.inj (h.symm.trans e)
    refine ⟨hi.cfg, ⟨hi.front.1, hi.front.2, hi.front.3⟩, ⟨hi.pack.1, hi.pack.2, hi.pack.3, hi.pack.4⟩,
      ht.congr rfl rfl rfl ht.pos_lt ht.pos_inner, ?_, (nofun), hi.err7⟩
    refine ⟨(nofun), hi.count.decoded_le, (nofun), ?_, hle, hi.count.bitpos_le⟩
    refine ⟨fun h => (by cases h), fun h => ?_⟩
    have := congrArg BitVec.toNat h.2
    dsimp only at this
    omega
  · obtain rfl := Host.Outcome.next.inj (h.symm.trans e)
    have hp : follow s 0 (q ++ [x]) = some ch.toNat := follow_snoc.2 ⟨_, hq, hch.symm, hne⟩
    have hqM' := ht.inner_depth_lt hM hp hl
    simp only [List.length_append, List.length_singleton] at hqM'
    refine ⟨hi.cfg, ⟨hi.front.1, hi.front.2, hi.front.3⟩, ⟨hi.pack.1, hi.pack.2, hi.pack.3, hi.pack.4⟩,
      ht.congr rfl rfl rfl (ht.shape.follow_root_lt hp) hl, ?_, fun _ => ⟨q ++ [x], ?_, ?_⟩, hi.err7⟩
    · refine ⟨fun h => ?_, hi.count.decoded_le, hi.count.run_lt, hi.count.complete_iff, ?_, ?_⟩
      · dsimp only at h
        rw [hr] at h
        cases h
      · dsimp only
        omega
      · dsimp only
        omega
    · exact (follow_congr_node (s := s) (t := { s with bitpos := s.bitpos + 1, pos := ch }) rfl _ _).trans hp
    · dsimp only
      rw [hB, List.length_append, List.length_singleton]
      omega
  · have hx : (q ++ [x]).length ≤ s.cfg.maxLen :=
      ht.depth_le _ ch.toNat (follow_snoc.2 ⟨_, hq, hch.symm, hne⟩)
    simp only [List.length_append, List.length_singleton] at hx
    obtain rfl := Host.Outcome.next.inj (h.symm.trans e)
    have hmul : (s.decoded.toNat + 1) * s.cfg.maxLen = s.decoded.toNat * s.cfg.maxLen + s.cfg.maxLen := by ring
    refine ⟨hi.cfg, ⟨hi.front.1, hi.front.2, hi.front.3⟩, ⟨hi.pack.1, hi.pack.2, hi.pack.3, hi.pack.4⟩,
      ht.congr rfl rfl rfl (by have := ht.one_le_nextFree; simp; omega) ht.root_inner, ?_, fun _ => ⟨[], rfl, ?_⟩,
      hi.err7⟩
    · refine ⟨fun h => ?_, ?_, fun h => ?_, ?_, ?_, ?_⟩
      · dsimp only at h
        split at h
        · cases h
        · rw [hr] at h
          cases h
      · dsimp only
        omega
      · dsimp only at h ⊢
        split at h
        · cases h
        · rename_i hne'
          rw [hD]
          have : (s.decoded + 1).toNat ≠ s.expected.toNat := fun e => hne' (BitVec.eq_of_toNat_eq e)
          omega
      · dsimp only
        split
        · rename_i heq
          exact ⟨fun _ => ⟨nofun, heq⟩, fun _ => rfl⟩
        · rename_i hne'
          exact ⟨fun h' => (by rw [hr] at h'; cases h'), fun h' => absurd h'.2 hne'⟩
      · dsimp only
        omega
      · dsimp only
        rw [hB, hD, hmul]
        omega
    · dsimp only
      rw [hB, hD, hmul, List.length_nil]
      omega

/-- The walk goes on, and keeps the invariants. -/
theorem walkBits_inv {s : State} (hi : BlockInv s) (xs : Bits) : ∃ t, walkBits xs s = .next t ∧ BlockInv t := by
  induction xs generalizing s with
  | nil => exact ⟨s, rfl, hi⟩
  | cons x xs ih =>
    rw [walkBits]
    split
    · rename_i hr
      obtain ⟨u, hu⟩ : ∃ u, walkBit x s = .next u := by
        rcases walkBit_cases hi.tree x with ⟨-, e⟩ | ⟨_, -, -, ⟨-, e⟩ | ⟨-, e⟩⟩ <;> exact ⟨_, e⟩
      rw [hu, andThen_next]
      exact ih (walkBit_inv hi hr hu)
    · exact ⟨s, rfl, hi⟩

/-! ## The walk is the greedy parse (R169) -/

/-- From a state in RUN that stands at the end of path q, the bits fed are parsed as the continuation of q: the bits
consumed are the emitted codes and the path to POS. -/
theorem walkBits_parse {s : State} (hi : BlockInv s) (hr : s.upState = .run) {q : Bits}
    (hq : follow s 0 q = some s.pos.toNat) (hbq : s.bitpos.toNat ≤ s.decoded.toNat * s.cfg.maxLen + q.length)
    (xs : Bits) :
    ∃ t ys p, walkBits xs s = .next t ∧
      Parse (HasCode s) (s.expected.toNat - s.decoded.toNat) (q ++ xs) ys p t.upState ∧
      t.upOut = s.upOut ++ ys ∧ t.decoded.toNat = s.decoded.toNat + ys.length ∧
      t.bitpos.toNat + q.length = s.bitpos.toNat + p ∧
      ∃ cs q', List.Forall₂ (HasCode s) cs ys ∧ (q ++ xs).take p = cs.flatten ++ q' ∧
        follow s 0 q' = some t.pos.toNat := by
  induction xs generalizing s q with
  | nil =>
    obtain ⟨n, hn⟩ : ∃ n, s.expected.toNat - s.decoded.toNat = n + 1 :=
      ⟨s.expected.toNat - s.decoded.toNat - 1, by have := hi.count.run_lt hr; omega⟩
    refine ⟨s, [], q.length, rfl, ?_, by simp, by simp, rfl, [], q, .nil, by simp, hq⟩
    rw [hn, List.append_nil, hr]
    refine .more n q ((hi.tree.isNode_iff q).1 ⟨_, hq⟩) ?_
    rintro y ⟨h, hh, hl, -⟩
    rw [hq] at hh
    cases hh
    simp [hi.tree.pos_inner] at hl
  | cons x xs ih =>
    have ht := hi.tree
    have hlt := hi.count.run_lt hr
    have hqM := ht.inner_depth_lt hi.cfg.1 hq ht.pos_inner
    have hD := decoded_add_one hlt
    have hB := hi.bitpos_add_one (by have := s.decoded.isLt; omega) hqM hbq
    obtain ⟨n, hn⟩ : ∃ n, s.expected.toNat - s.decoded.toNat = n + 1 :=
      ⟨s.expected.toNat - s.decoded.toNat - 1, by omega⟩
    have happ : q ++ x :: xs = (q ++ [x]) ++ xs := by simp
    rw [walkBits, if_pos hr]
    rcases walkBit_cases ht x with ⟨hz, e⟩ | ⟨ch, hch, hne, ⟨hl, e⟩ | ⟨hl, e⟩⟩
    · rw [e, andThen_next, walkBits_of_ne_run xs (by simp)]
      refine ⟨_, [], q.length, rfl, ?_, by simp, by simp, rfl, [], q, .nil, by simp, hq⟩
      rw [hn]
      refine .invalid n q x xs ((ht.isNode_iff q).1 ⟨_, hq⟩) ?_ ?_
      · rintro y ⟨h, hh, hl, -⟩
        rw [hq] at hh
        cases hh
        simp [ht.pos_inner] at hl
      · intro hp
        obtain ⟨h, hh⟩ := (ht.isNode_iff _).2 (.inr hp)
        obtain ⟨j, hj, hjc, hj0⟩ := follow_snoc.1 hh
        rw [hq] at hj
        cases hj
        omega
    · have hu := walkBit_inv hi hr e
      rw [e, andThen_next]
      obtain ⟨t, ys, p, h1, h2, h3, h4, h5, cs, q', hc, hk, hf⟩ := ih (q := q ++ [x]) hu hr
        ((follow_congr_node (s := s) (t := { s with bitpos := s.bitpos + 1, pos := ch }) rfl _ _).trans (follow_snoc.2 ⟨_, hq, hch.symm, hne⟩))
        (by dsimp only; rw [hB, List.length_append, List.length_singleton]; omega)
      rw [hasCode_congr (s := s) (t := { s with bitpos := s.bitpos + 1, pos := ch }) rfl] at h2 hc
      rw [follow_congr_node (s := s) (t := { s with bitpos := s.bitpos + 1, pos := ch }) rfl] at hf
      refine ⟨t, ys, p, h1, ?_, h3, h4, ?_, cs, q', hc, by rw [happ, hk], hf⟩
      · rw [happ]
        exact h2
      · dsimp only at h5
        rw [hB, List.length_append, List.length_singleton] at h5
        omega
    · have hu := walkBit_inv hi hr e
      have hcode : HasCode s (q ++ [x]) (s.nodeAt ch.toNat).sym :=
        ⟨ch.toNat, follow_snoc.2 ⟨_, hq, hch.symm, hne⟩, hl, rfl⟩
      rw [e, andThen_next]
      by_cases hdone : s.decoded + 1 = s.expected
      · rw [walkBits_of_ne_run xs (by dsimp only; rw [if_pos hdone]; nofun)]
        refine ⟨_, [(s.nodeAt ch.toNat).sym], (q ++ [x]).length + 0, rfl, ?_, rfl, ?_, ?_, [q ++ [x]], [],
          .cons hcode .nil, by rw [happ, List.take_length_add_append]; simp, rfl⟩
        · have hn0 : n = 0 := by
            have := congrArg BitVec.toNat hdone
            omega
          dsimp only
          rw [if_pos hdone, hn, hn0, happ]
          exact .code 0 _ _ xs [] 0 _ hcode (.count xs)
        · dsimp only
          rw [hD]
          rfl
        · dsimp only
          rw [hB, List.length_append, List.length_singleton]
          omega
      · obtain ⟨t, ys, p, h1, h2, h3, h4, h5, cs, q', hc, hk, hf⟩ := ih (q := []) hu (by dsimp only; rw [if_neg hdone, hr]) rfl
          (by
            dsimp only
            rw [hB, hD, Nat.add_mul, List.length_nil]
            omega)
        generalize hw : ({ s with
          bitpos := s.bitpos + 1
          pos := root
          decoded := s.decoded + 1
          upOut := s.upOut ++ [(s.nodeAt ch.toNat).sym]
          upState := if s.decoded + 1 = s.expected then .complete else s.upState } : State) = w at h2 hc hf
        have hwn : w.node = s.node := by rw [← hw]
        rw [hasCode_congr hwn] at h2 hc
        rw [follow_congr_node hwn] at hf
        rw [← hw] at h2
        refine ⟨t, (s.nodeAt ch.toNat).sym :: ys, (q ++ [x]).length + p, by rw [← hw]; exact h1, ?_, ?_, ?_, ?_, (q ++ [x]) :: cs, q',
          .cons hcode hc, ?_, hf⟩
        · rw [hn, happ]
          refine .code n _ _ xs ys p _ hcode ?_
          dsimp only at h2
          rw [hD] at h2
          have : s.expected.toNat - (s.decoded.toNat + 1) = n := by omega
          rw [this] at h2
          exact h2
        · rw [h3]
          simp
        · rw [h4]
          dsimp only
          rw [hD, List.length_cons]
          omega
        · dsimp only at h5
          rw [hB, List.length_nil] at h5
          rw [List.length_append, List.length_singleton]
          omega
        · rw [List.nil_append] at hk
          rw [happ, List.take_length_add_append, hk, List.flatten_cons, ← List.append_assoc]

end Sys2Proof.Machine
end

