-- ==== Sys2Proof/Laws/Exec.lean ====
section
/-! SUPPORT. Each command once: everything it can answer with a next state, the fields it leaves alone, and the bit of
ERR it can set. -/

namespace Sys2Proof.Machine

/-! ## What a command that went through can have done -/

theorem execNop_cases {s t : State} (h : execNop s = .next t) : t = s := by cases h; rfl

theorem execCclr_cases {s t : State} (h : execCclr s = .next t) : t = clearStaging s := by cases h; rfl

theorem execCbit_cases {b : Bool} {s t : State} (h : execCbit b s = .next t) : t = stageBit b s := by cases h; rfl

theorem stageBit_cases (b : Bool) (s : State) :
    (s.stglen.toNat = s.cfg.maxLen ∧ stageBit b s = { s with stgovf := true }) ∨
      (s.stglen.toNat ≠ s.cfg.maxLen ∧
        stageBit b s = { s with stg := shiftInCode s.cfg s.stg b, stglen := s.stglen + 1 }) := by
  unfold stageBit
  split
  · exact .inl ⟨‹_›, rfl⟩
  · exact .inr ⟨‹_›, rfl⟩

theorem execPkclr_cases {s t : State} (h : execPkclr s = .next t) :
    t = codeInvalidateAll { s with acc := 0, nbits := 0 } := by cases h; rfl

theorem execPkdef_cases {y : Symbol} {s t : State} (h : execPkdef y s = .next t) :
    (s.stgovf = true ∧ t = raise .long (clearStaging s)) ∨
      (s.stgovf = false ∧ s.stglen = 0 ∧ t = raise .empty (clearStaging s)) ∨
      (s.stgovf = false ∧ s.stglen ≠ 0 ∧
        t = codeWrite y { valid := true, len := s.stglen, bits := s.stg } (clearStaging s)) := by
  unfold execPkdef at h
  split at h
  · cases h; exact .inl ⟨‹_›, rfl⟩
  · rename_i ho
    have ho : s.stgovf = false := by simpa using ho
    split at h
    · cases h; exact .inr (.inl ⟨ho, ‹_›, rfl⟩)
    · cases h; exact .inr (.inr ⟨ho, ‹_›, rfl⟩)

theorem execPksym_cases {y : Symbol} {s t : State} (h : execPksym y s = .next t) :
    ((codeRead s y).valid = false ∧ t = raise .nocode s) ∨
      ((codeRead s y).valid = true ∧
        t = packBits (codeBits (codeRead s y).len.toNat (codeRead s y).bits) s) := by
  unfold execPksym at h
  dsimp only at h
  split at h
  · cases h; exact .inr ⟨‹_›, rfl⟩
  · rename_i hv
    cases h; exact .inl ⟨by simpa using hv, rfl⟩

theorem execPkflush_cases {s t : State} (h : execPkflush s = .next t) :
    (s.nbits = 0 ∧ t = s) ∨
      (s.nbits ≠ 0 ∧
        t = { s with acc := 0, nbits := 0, pkOut := s.pkOut ++ [s.acc <<< (8 - s.nbits.toNat)] }) := by
  unfold execPkflush at h
  split at h
  · cases h; exact .inl ⟨‹_›, rfl⟩
  · cases h; exact .inr ⟨‹_›, rfl⟩

theorem execUpclr_cases {s t : State} (h : execUpclr s = .next t) :
    (s.upState = .run ∧ t = raise .busy s) ∨
      (s.upState ≠ .run ∧ t = nodeModify root Node.cleared { s with nextFree := 1, pos := root }) := by
  unfold execUpclr at h
  split at h
  · cases h; exact .inl ⟨‹_›, rfl⟩
  · cases h; exact .inr ⟨‹_›, rfl⟩

theorem insertCode_cases {y : Symbol} {c : Bits} {s t : State} (h : insertCode y c s = .next t) :
    (descend s root c = .conflict ∧ t = raise .conflict s) ∨
      ∃ p rest, descend s root c = .absent p rest ∧
        ((s.cfg.nNodes < s.nextFree.toNat + rest.length ∧ t = raise .alloc s) ∨
          (s.nextFree.toNat + rest.length ≤ s.cfg.nNodes ∧ t = growPath y p rest s)) := by
  unfold insertCode at h
  split at h
  · cases h
  · cases h; exact .inl ⟨‹_›, rfl⟩
  · rename_i p rest hd
    refine .inr ⟨p, rest, hd, ?_⟩
    split at h
    · cases h; exact .inl ⟨by omega, rfl⟩
    · cases h; exact .inr ⟨by omega, rfl⟩

theorem execUpins_cases {y : Symbol} {s t : State} (h : execUpins y s = .next t) :
    (s.upState = .run ∧ t = raise .busy (clearStaging s)) ∨
      (s.upState ≠ .run ∧ s.stgovf = true ∧ t = raise .long (clearStaging s)) ∨
      (s.upState ≠ .run ∧ s.stgovf = false ∧ s.stglen = 0 ∧ t = raise .empty (clearStaging s)) ∨
      (s.upState ≠ .run ∧ s.stgovf = false ∧ s.stglen ≠ 0 ∧
        insertCode y (stagedBits s) (clearStaging s) = .next t) := by
  unfold execUpins at h
  split at h
  · cases h; exact .inl ⟨‹_›, rfl⟩
  · rename_i hr
    split at h
    · cases h; exact .inr (.inl ⟨hr, ‹_›, rfl⟩)
    · rename_i ho
      have ho : s.stgovf = false := by simpa using ho
      split at h
      · cases h; exact .inr (.inr (.inl ⟨hr, ho, ‹_›, rfl⟩))
      · exact .inr (.inr (.inr ⟨hr, ho, ‹_›, h⟩))

theorem execUpend_cases {s t : State} (h : execUpend s = .next t) :
    (s.upState = .run ∧ t = { s with upState := .truncated }) ∨ (s.upState ≠ .run ∧ t = s) := by
  unfold execUpend at h
  split at h
  · cases h; exact .inl ⟨‹_›, rfl⟩
  · cases h; exact .inr ⟨‹_›, rfl⟩

/-! ## UPINS in five outcomes -/

/-- All that UPINS can do: a refusal by one of the five causes, or a path grown on the arena. -/
theorem execUpins_outcome {y : Symbol} {s t : State} (h : execUpins y s = .next t) :
    (∃ c, (c = .busy ∧ s.upState = .run ∨
          s.upState ≠ .run ∧ (c = .long ∨ c = .empty ∨ c = .conflict ∨ c = .alloc)) ∧
        t = raise c (clearStaging s)) ∨
      (s.upState ≠ .run ∧ s.stgovf = false ∧ s.stglen ≠ 0 ∧
        ∃ p rest, descend s root (stagedBits s) = .absent p rest ∧
          s.nextFree.toNat + rest.length ≤ s.cfg.nNodes ∧ t = growPath y p rest (clearStaging s)) := by
  rcases execUpins_cases h with ⟨hr, rfl⟩ | ⟨hr, -, rfl⟩ | ⟨hr, -, -, rfl⟩ | ⟨hr, ho, hl, h⟩
  · exact .inl ⟨.busy, .inl ⟨rfl, hr⟩, rfl⟩
  · exact .inl ⟨.long, .inr ⟨hr, .inl rfl⟩, rfl⟩
  · exact .inl ⟨.empty, .inr ⟨hr, .inr (.inl rfl)⟩, rfl⟩
  · rcases insertCode_cases h with ⟨-, rfl⟩ | ⟨p, rest, hd, ⟨-, rfl⟩ | ⟨hroom, rfl⟩⟩
    · exact .inl ⟨.conflict, .inr ⟨hr, .inr (.inr (.inl rfl))⟩, rfl⟩
    · exact .inl ⟨.alloc, .inr ⟨hr, .inr (.inr (.inr rfl))⟩, rfl⟩
    · rw [descend_clearStaging] at hd
      exact .inr ⟨hr, ho, hl, p, rest, hd, hroom, rfl⟩

/-! ## Frames: the fields a command can write -/

theorem stageBit_frame (b : Bool) (s : State) :
    stageBit b s = { s with
      stg := (stageBit b s).stg, stglen := (stageBit b s).stglen, stgovf := (stageBit b s).stgovf } := by
  unfold stageBit
  split <;> rfl

theorem execPkdef_frame {y : Symbol} {s t : State} (h : execPkdef y s = .next t) :
    t = { s with stg := 0, stglen := 0, stgovf := false, err := t.err, code := t.code } := by
  rcases execPkdef_cases h with ⟨-, rfl⟩ | ⟨-, -, rfl⟩ | ⟨-, -, rfl⟩ <;> rfl

theorem execPksym_frame {y : Symbol} {s t : State} (h : execPksym y s = .next t) :
    t = { s with err := t.err, acc := t.acc, nbits := t.nbits, pkOut := t.pkOut } := by
  rcases execPksym_cases h with ⟨-, rfl⟩ | ⟨-, rfl⟩
  · rfl
  · rw [packBits_frame]

theorem execPkflush_frame {s t : State} (h : execPkflush s = .next t) :
    t = { s with acc := t.acc, nbits := t.nbits, pkOut := t.pkOut } := by
  rcases execPkflush_cases h with ⟨-, rfl⟩ | ⟨-, rfl⟩ <;> rfl

theorem execUpclr_frame {s t : State} (h : execUpclr s = .next t) :
    t = { s with err := t.err, node := t.node, nextFree := t.nextFree, pos := t.pos } := by
  rcases execUpclr_cases h with ⟨-, rfl⟩ | ⟨-, rfl⟩ <;> rfl

theorem execUpins_frame {y : Symbol} {s t : State} (h : execUpins y s = .next t) :
    t = { s with stg := 0, stglen := 0, stgovf := false, err := t.err, node := t.node, nextFree := t.nextFree } := by
  rcases execUpins_outcome h with ⟨c, -, rfl⟩ | ⟨-, -, -, p, rest, -, -, rfl⟩
  · rfl
  · rw [growPath_frame]
    rfl

theorem execUpend_frame {s t : State} (h : execUpend s = .next t) : t = { s with upState := t.upState } := by
  rcases execUpend_cases h with ⟨-, rfl⟩ | ⟨-, rfl⟩ <;> rfl

/-- No command writes the parameters or the port. -/
theorem exec_cfg_port {i : Instr} {s t : State} (h : exec i s = .next t) : t.cfg = s.cfg ∧ t.port = s.port := by
  cases i with
  | nop => rw [execNop_cases h]; exact ⟨rfl, rfl⟩
  | cclr => rw [execCclr_cases h]; exact ⟨rfl, rfl⟩
  | cbit b => rw [execCbit_cases h, stageBit_frame]; exact ⟨rfl, rfl⟩
  | pkclr => rw [execPkclr_cases h]; exact ⟨rfl, rfl⟩
  | pkdef y => rw [execPkdef_frame h]; exact ⟨rfl, rfl⟩
  | pksym y => rw [execPksym_frame h]; exact ⟨rfl, rfl⟩
  | pkflush => rw [execPkflush_frame h]; exact ⟨rfl, rfl⟩
  | upclr => rw [execUpclr_frame h]; exact ⟨rfl, rfl⟩
  | upins y => rw [execUpins_frame h]; exact ⟨rfl, rfl⟩
  | upstart n => cases h; exact ⟨rfl, rfl⟩
  | upbyte b => rw [walkBits_frame h]; exact ⟨rfl, rfl⟩
  | upend => rw [execUpend_frame h]; exact ⟨rfl, rfl⟩

/-! ## ERR -/

/-- What a command can do to ERR: nothing, or set the bit of one cause with no other effect but an emptied staging
register. The fatal bit is set by UPINS alone. -/
theorem exec_err {i : Instr} {s t : State} (h : exec i s = .next t) :
    t.err = s.err ∨
      ∃ c, (t = raise c s ∧ (i = .upclr ∧ c = .busy ∨ (∃ y, i = .pksym y) ∧ c = .nocode)) ∨
        (t = raise c (clearStaging s) ∧
          ((∃ y, i = .pkdef y) ∧ (c = .long ∨ c = .empty) ∨
            (∃ y, i = .upins y) ∧ (c = .busy ∨ c = .long ∨ c = .empty ∨ c = .conflict ∨ c = .alloc))) := by
  cases i with
  | nop => rw [execNop_cases h]; exact .inl rfl
  | cclr => rw [execCclr_cases h]; exact .inl rfl
  | cbit b => rw [execCbit_cases h, stageBit_frame]; exact .inl rfl
  | pkclr => rw [execPkclr_cases h]; exact .inl rfl
  | pkdef y =>
    rcases execPkdef_cases h with ⟨-, rfl⟩ | ⟨-, -, rfl⟩ | ⟨-, -, rfl⟩
    · exact .inr ⟨.long, .inr ⟨rfl, .inl ⟨⟨y, rfl⟩, .inl rfl⟩⟩⟩
    · exact .inr ⟨.empty, .inr ⟨rfl, .inl ⟨⟨y, rfl⟩, .inr rfl⟩⟩⟩
    · exact .inl rfl
  | pksym y =>
    rcases execPksym_cases h with ⟨-, rfl⟩ | ⟨-, rfl⟩
    · exact .inr ⟨.nocode, .inl ⟨rfl, .inr ⟨⟨y, rfl⟩, rfl⟩⟩⟩
    · rw [packBits_frame]; exact .inl rfl
  | pkflush => rw [execPkflush_frame h]; exact .inl rfl
  | upclr =>
    rcases execUpclr_cases h with ⟨-, rfl⟩ | ⟨-, rfl⟩
    · exact .inr ⟨.busy, .inl ⟨rfl, .inl ⟨rfl, rfl⟩⟩⟩
    · exact .inl rfl
  | upins y =>
    rcases execUpins_outcome h with ⟨c, hc, rfl⟩ | ⟨-, -, -, p, rest, -, -, rfl⟩
    · refine .inr ⟨c, .inr ⟨rfl, .inr ⟨⟨y, rfl⟩, ?_⟩⟩⟩
      rcases hc with ⟨hc, -⟩ | ⟨-, hc⟩
      · exact .inl hc
      · exact .inr hc
    · rw [growPath_frame]; exact .inl rfl
  | upstart n => cases h; exact .inl rfl
  | upbyte b => rw [walkBits_frame h]; exact .inl rfl
  | upend => rw [execUpend_frame h]; exact .inl rfl

/-- A set bit of ERR stays set. -/
theorem setErr_getLsbD (e : BitVec 8) (c : ErrCause) (k : Nat) :
    (setErr e c).getLsbD k = (e.getLsbD k || decide (k = errBit c)) := by
  have hc : errBit c < 8 := by cases c <;> decide
  rw [setErr, errMask, BitVec.getLsbD_or]
  congr 1
  rw [BitVec.getLsbD_shiftLeft]
  by_cases hk : k = errBit c
  · subst hk
    simp [hc]
  · by_cases h8 : k < 8
    · by_cases hlt : k < errBit c
      · simp [hlt, hk]
      · have : k - errBit c ≠ 0 := by omega
        simp [hlt, hk, BitVec.getLsbD_one, this]
    · simp [h8, hk]

theorem exec_err_mono {i : Instr} {s t : State} (h : exec i s = .next t) {k : Nat} (hk : s.err.getLsbD k = true) :
    t.err.getLsbD k = true := by
  rcases exec_err h with e | ⟨c, ⟨rfl, -⟩ | ⟨rfl, -⟩⟩
  · rw [e]; exact hk
  · rw [raise_err, setErr_getLsbD, hk]; rfl
  · rw [raise_err, setErr_getLsbD, clearStaging_err, hk]; rfl

/-- Only UPINS can set the fatal bit. -/
theorem exec_not_fatal {i : Instr} {s t : State} (h : exec i s = .next t) (hi : ∀ y, i ≠ .upins y)
    (hs : s.err.getLsbD 6 = false) : t.err.getLsbD 6 = false := by
  rcases exec_err h with e | ⟨c, ⟨rfl, hc⟩ | ⟨rfl, hc⟩⟩
  · rw [e]; exact hs
  · rw [raise_err, setErr_getLsbD, hs]
    rcases hc with ⟨-, rfl⟩ | ⟨-, rfl⟩ <;> rfl
  · rw [raise_err, setErr_getLsbD, clearStaging_err, hs]
    rcases hc with ⟨-, rfl | rfl⟩ | ⟨⟨y, e⟩, -⟩
    · rfl
    · rfl
    · exact absurd e (hi y)

/-- ERR bit 7 is set by no command (`spec/10_state.md` R35). -/
theorem exec_err7 {i : Instr} {s t : State} (h : exec i s = .next t) (hs : s.err.getLsbD 7 = false) :
    t.err.getLsbD 7 = false := by
  have hne : ∀ c : ErrCause, ¬ 7 = errBit c := by intro c; cases c <;> decide
  rcases exec_err h with e | ⟨c, ⟨rfl, -⟩ | ⟨rfl, -⟩⟩
  · rw [e]; exact hs
  · rw [raise_err, setErr_getLsbD, hs, decide_eq_false (hne c)]; rfl
  · rw [raise_err, setErr_getLsbD, clearStaging_err, hs, decide_eq_false (hne c)]; rfl

/-! ## Accepting a word -/

/-- All that accepting a word can do (`spec/30_encoding.md` R92). -/
theorem accept_cases (w : CmdWord) (s : State) :
    (s.err.getLsbD 6 = true ∧ accept w s = .next s) ∨
      (s.err.getLsbD 6 = false ∧ ((∃ why, decode w = .illegal why) ∧ accept w s = .next (raise .illcmd s) ∨
        ∃ i, decode w = .cmd i ∧ accept w s = exec i s)) := by
  have hf : fatal s = s.err.getLsbD 6 := rfl
  unfold accept
  rw [hf]
  cases he : s.err.getLsbD 6 with
  | true => exact .inl ⟨rfl, rfl⟩
  | false =>
    refine .inr ⟨rfl, ?_⟩
    cases hd : decode w with
    | cmd i => exact .inr ⟨i, rfl, rfl⟩
    | illegal why => exact .inl ⟨⟨why, rfl⟩, rfl⟩

/-- All that a step can do. -/
theorem step_cases (s : State) :
    (s.port = [] ∧ step s = .next s) ∨
      (∃ rest, s.port = .reset :: rest ∧ step s = .next (State.resetWith s.cfg rest)) ∨
      ∃ w rest, s.port = .word w :: rest ∧ step s = accept w { s with port := rest } := by
  unfold step serve
  rcases hp : s.port with _ | ⟨w | _, rest⟩
  · exact .inl ⟨rfl, rfl⟩
  · exact .inr (.inr ⟨w, rest, rfl, rfl⟩)
  · exact .inr (.inl ⟨rest, rfl, rfl⟩)

/-! ## Runs of words -/

@[simp] theorem runWords_nil (s : State) : runWords [] s = .next s := rfl

theorem runWords_cons (w : CmdWord) (ws : List CmdWord) (s : State) :
    runWords (w :: ws) s = andThen (accept w s) (runWords ws) := rfl

theorem andThen_assoc (o : Host.Outcome State Fault Refusal) (f g : State → Host.Outcome State Fault Refusal) :
    andThen (andThen o f) g = andThen o fun s => andThen (f s) g := by cases o <;> rfl

theorem runWords_append (ws ws' : List CmdWord) (s : State) :
    runWords (ws ++ ws') s = andThen (runWords ws s) (runWords ws') := by
  induction ws generalizing s with
  | nil => rfl
  | cons w ws ih =>
    rw [List.cons_append, runWords_cons, runWords_cons, andThen_assoc]
    congr 1
    funext u
    exact ih u

theorem runCmds_append (is is' : List Instr) (s : State) :
    runCmds (is ++ is') s = andThen (runCmds is s) (runCmds is') := by
  rw [runCmds, List.map_append, runWords_append]
  rfl

/-- In the fatal condition a run changes nothing. -/
theorem runWords_fatal {s : State} (h : s.err.getLsbD 6 = true) (ws : List CmdWord) : runWords ws s = .next s := by
  induction ws with
  | nil => rfl
  | cons w ws ih =>
    rcases accept_cases w s with ⟨-, e⟩ | ⟨e, -⟩
    · rw [runWords_cons, e, andThen_next, ih]
    · rw [h] at e
      cases e

/-- ERR bits stay set over a run. -/
theorem accept_err_mono {w : CmdWord} {s t : State} (h : accept w s = .next t) {k : Nat}
    (hk : s.err.getLsbD k = true) : t.err.getLsbD k = true := by
  rcases accept_cases w s with ⟨-, e⟩ | ⟨-, ⟨-, e⟩ | ⟨i, -, e⟩⟩
  · rw [e] at h; cases h; exact hk
  · rw [e] at h
    cases h
    rw [raise_err, setErr_getLsbD, hk]
    rfl
  · rw [e] at h
    exact exec_err_mono h hk

theorem runWords_err_mono {ws : List CmdWord} {s t : State} (h : runWords ws s = .next t) {k : Nat}
    (hk : s.err.getLsbD k = true) : t.err.getLsbD k = true := by
  induction ws generalizing s with
  | nil => cases h; exact hk
  | cons w ws ih =>
    obtain ⟨u, hu, hut⟩ := andThen_eq_next h
    exact ih hut (accept_err_mono hu hk)

end Sys2Proof.Machine
end

