-- ==== Sys2Proof/Laws/Invariants.lean ====
section
/-! SUPPORT. The invariants of `spec/10_state.md` section 9, unit by unit: what each operation does to them. -/

namespace Sys2Proof.Machine

/-! ## The staging register (R43) -/

/-- One staged bit while there is room. -/
theorem stageBit_room {s : State} {b : Bool} (hc : s.cfg.wf) (hf : FrontInv s)
    (hl : s.stglen.toNat < s.cfg.maxLen) :
    (stageBit b s).stg.toNat = 2 * s.stg.toNat + b.toNat ∧
      (stageBit b s).stglen.toNat = s.stglen.toNat + 1 ∧ (stageBit b s).stgovf = s.stgovf := by
  have hM := hc.2.1
  rw [stageBit, if_neg (by omega)]
  refine ⟨toNat_shiftInCode b hf.stg_lt hl hM, ?_, rfl⟩
  show (s.stglen + 1).toNat = _
  rw [BitVec.toNat_add]
  exact Nat.mod_eq_of_lt (by simp; omega)

theorem stageBit_front {s : State} {b : Bool} (hc : s.cfg.wf) (hf : FrontInv s) : FrontInv (stageBit b s) := by
  have hcfg : (stageBit b s).cfg = s.cfg := by rw [stageBit_frame]
  by_cases hl : s.stglen.toNat = s.cfg.maxLen
  · rw [stageBit, if_pos hl]
    exact ⟨hf.1, hf.2, fun _ => hl⟩
  · have h1 := hf.1
    have h2 := hf.2
    have hb := Bool.toNat_le b
    obtain ⟨e1, e2, e3⟩ := stageBit_room (b := b) hc hf (by omega)
    refine ⟨by rw [e2, hcfg]; omega, by rw [e1, e2, Nat.pow_succ]; omega, ?_⟩
    rw [e3]
    exact fun h => absurd (hf.3 h) hl

/-- The value of the staged code. -/
theorem codeValue_stagedBits {s : State} (hf : FrontInv s) : codeValue (stagedBits s) = s.stg.toNat := by
  rw [stagedBits, codeValue_codeBits, Nat.mod_eq_of_lt hf.2]

theorem FrontInv.of_cleared {s : State} (h1 : s.stg = 0) (h2 : s.stglen = 0) (h3 : s.stgovf = false) :
    FrontInv s := by
  refine ⟨?_, ?_, ?_⟩
  · rw [h2]; exact Nat.zero_le _
  · rw [h1, h2]; decide
  · rw [h3]; nofun

theorem FrontInv.congr {s t : State} (hf : FrontInv s) (h1 : t.stg = s.stg) (h2 : t.stglen = s.stglen)
    (h3 : t.stgovf = s.stgovf) (h4 : t.cfg = s.cfg) : FrontInv t := by
  refine ⟨?_, ?_, ?_⟩
  · rw [h2, h4]; exact hf.1
  · rw [h1, h2]; exact hf.2
  · rw [h2, h3, h4]; exact hf.3

/-! ## The PACK unit (R44) -/

theorem codeRead_congr {s t : State} (h : t.code = s.code) (y : Symbol) : codeRead t y = codeRead s y := by
  simp only [codeRead, h]

theorem PackInv.congr {s t : State} (hp : PackInv s) (h1 : t.acc.toNat < 2 ^ t.nbits.toNat) (h2 : t.code = s.code)
    (h3 : t.cfg = s.cfg) : PackInv t := by
  refine ⟨h1, ?_, ?_, ?_⟩ <;> simp only [codeRead_congr h2, h3]
  · exact hp.2
  · exact hp.3
  · exact hp.4

/-- ACC stays below 2^NBITS while code bits pass through it. -/
theorem packBit_acc (b : Bool) {s : State} (h : s.acc.toNat < 2 ^ s.nbits.toNat) :
    (packBit b s).acc.toNat < 2 ^ (packBit b s).nbits.toNat := by
  by_cases h7 : s.nbits = 7
  · rw [packBit, if_pos h7]
    show (0 : BitVec 8).toNat < 2 ^ (0 : BitVec 3).toNat
    decide
  · have hlt : s.nbits.toNat < 7 := by
      have h1 : s.nbits.toNat < 8 := s.nbits.isLt
      have h2 : s.nbits.toNat ≠ 7 := fun e => h7 (BitVec.eq_of_toNat_eq e)
      omega
    rw [packBit, if_neg h7]
    show ((s.acc <<< 1) ||| (BitVec.ofBool b).setWidth 8).toNat < 2 ^ (s.nbits + 1).toNat
    have hn : (s.nbits + 1).toNat = s.nbits.toNat + 1 := by
      rw [BitVec.toNat_add]
      exact Nat.mod_eq_of_lt (by simp; omega)
    have hb : ((BitVec.ofBool b).setWidth 8).toNat = b.toNat := by cases b <;> rfl
    have hb1 := Bool.toNat_le b
    have h64 : 2 ^ s.nbits.toNat ≤ 2 ^ 6 := Nat.pow_le_pow_right (by omega) (by omega)
    rw [hn, BitVec.toNat_or, BitVec.toNat_shiftLeft, hb, Nat.shiftLeft_eq, Nat.mod_eq_of_lt (by omega), Nat.mul_comm,
      ← Nat.two_pow_add_eq_or_of_lt (i := 1) (by omega), Nat.pow_succ]
    omega

theorem packBits_acc (bs : Bits) {s : State} (h : s.acc.toNat < 2 ^ s.nbits.toNat) :
    (packBits bs s).acc.toNat < 2 ^ (packBits bs s).nbits.toNat := by
  induction bs generalizing s with
  | nil => exact h
  | cons b bs ih => exact ih (packBit_acc b h)

/-- How many bytes PKSYM's loop emits and how many bits it leaves. -/
theorem packBits_counts {bs : Bits} {s : State} {out : List Byte}
    (h : streamBits out ++ pendingBits (packBits bs s) = pendingBits s ++ bs) :
    out.length = (s.nbits.toNat + bs.length) / 8 ∧
      (packBits bs s).nbits.toNat = (s.nbits.toNat + bs.length) % 8 := by
  have hl := congrArg List.length h
  rw [List.length_append, List.length_append, length_streamBits, length_pendingBits, length_pendingBits] at hl
  have : (packBits bs s).nbits.toNat < 8 := (packBits bs s).nbits.isLt
  omega

/-! ## The tree (R45) -/

/-- A bit sequence conflicts with a tree when some code of the tree is a prefix of it or has it as a prefix (R163). -/
def Conflicts (s : State) (c : Bits) : Prop := ∃ c' y', HasCode s c' y' ∧ (c' <+: c ∨ c <+: c')

/-- On a tree the descent of UPINS never leaves the arena: it ends in a conflict with a code of the tree, or at an
inner node whose child for the next bit is absent, and then there is no conflict. -/
theorem TreeInv.descend_root {s : State} (ht : TreeInv s) (c : Bits) (hc : c ≠ []) :
    (descend s root c = .conflict ∧ Conflicts s c) ∨
      ∃ p d b bs, descend s root c = .absent p (b :: bs) ∧ c = d ++ b :: bs ∧ follow s 0 d = some p.toNat ∧
        (s.nodeAt p.toNat).leaf = false ∧ s.childAt p.toNat b = 0 ∧ ¬ Conflicts s c := by
  have h := descend_cases (s := s) root c
  cases hd : descend s root c with
  | outside h' =>
    rw [hd] at h
    obtain ⟨h1, q, -, h2⟩ := h
    have := ht.shape.follow_root_lt h2
    have := ht.nextFree_le
    omega
  | conflict =>
    rw [hd] at h
    refine .inl ⟨rfl, ?_⟩
    rcases h with ⟨q, h, hq, hf, hl⟩ | ⟨h, hf⟩
    · exact ⟨q, _, ⟨h, hf, hl, rfl⟩, .inl hq⟩
    · rcases (ht.isNode_iff c).1 ⟨h, hf⟩ with e | ⟨c', y', hK, hp⟩
      · exact absurd e hc
      · exact ⟨c', y', hK, .inr hp⟩
  | absent p rest =>
    rw [hd] at h
    obtain ⟨d, b, bs, rfl, h2, h3, h4, h5, -⟩ := h
    refine .inr ⟨p, d, b, bs, rfl, h2, h3, h4, h5, ?_⟩
    rintro ⟨c', y', ⟨k, hk, hl, -⟩, hp | hp⟩
    · -- a code that is a prefix of c ends within d, at an inner node
      rcases Nat.lt_or_ge d.length c'.length with hlt | hge
      · have hpre : d ++ [b] <+: c' := by
          rw [h2] at hp
          have h6 : d ++ [b] <+: d ++ b :: bs := ⟨bs, by simp⟩
          exact List.prefix_of_prefix_length_le h6 hp (by simp; omega)
        obtain ⟨z, rfl⟩ := hpre
        obtain ⟨j, hj, -⟩ := follow_prefix hk
        obtain ⟨j', hj', e, hne⟩ := follow_snoc.1 hj
        rw [root_toNat] at h3
        rw [h3] at hj'
        cases hj'
        omega
      · have hpre : c' <+: d := by
          rw [h2] at hp
          exact List.prefix_of_prefix_length_le hp ⟨b :: bs, rfl⟩ hge
        obtain ⟨z, rfl⟩ := hpre
        obtain ⟨j, hj, hz⟩ := follow_prefix h3
        rw [root_toNat, hk] at hj
        cases hj
        obtain rfl := ht.shape.follow_leaf (ht.shape.follow_root_lt hk) hl hz
        simp only [follow_nil, Option.some.injEq] at hz
        rw [← hz, hl] at h4
        cases h4
    · obtain ⟨z, rfl⟩ := hp
      rw [h2] at hk
      obtain ⟨j, hj, -⟩ := follow_prefix hk
      have e : d ++ b :: bs = (d ++ [b]) ++ bs := by simp
      rw [e] at hj
      obtain ⟨j2, hj2, -⟩ := follow_prefix hj
      obtain ⟨j', hj', e', hne⟩ := follow_snoc.1 hj2
      rw [root_toNat] at h3
      rw [h3] at hj'
      cases hj'
      omega

/-- The nodes an insertion adds: the prefixes of the code that are no node yet are those longer than the path that
exists (R163). -/
theorem TreeInv.ncard_new {s : State} (ht : TreeInv s) {c d : Bits} {b : Bool} {bs : Bits} {p : Nat}
    (h1 : c = d ++ b :: bs) (h2 : follow s 0 d = some p) (h4 : s.childAt p b = 0) :
    Set.ncard { p : Bits | p ≠ [] ∧ p <+: c ∧ ¬ IsCodePrefix (HasCode s) p } = (b :: bs).length := by
  have hset : { p : Bits | p ≠ [] ∧ p <+: c ∧ ¬ IsCodePrefix (HasCode s) p } =
      ((Finset.range (b :: bs).length).image (fun i => d ++ (b :: bs).take (i + 1)) : Finset Bits) := by
    ext q
    simp only [Set.mem_ofPred_eq, Finset.coe_image, Finset.coe_range, Set.mem_image, Set.mem_Iio]
    constructor
    · rintro ⟨hne, hp, hn⟩
      rcases Nat.lt_or_ge d.length q.length with hlt | hge
      · refine ⟨q.length - d.length - 1, ?_, ?_⟩
        · have := hp.length_le
          rw [h1] at this
          simp at this ⊢
          omega
        · have hq := List.prefix_iff_eq_take.1 hp
          have h5 : q.length - d.length - 1 + 1 = q.length - d.length := by omega
          rw [h5]
          conv_rhs => rw [hq, h1, List.take_append, List.take_of_length_le (Nat.le_of_lt hlt)]
      · exfalso
        have : q <+: d := List.prefix_of_prefix_length_le hp (h1 ▸ List.prefix_append _ _) hge
        obtain ⟨z, rfl⟩ := this
        obtain ⟨j, hj, -⟩ := follow_prefix h2
        rcases (ht.isNode_iff q).1 ⟨j, hj⟩ with e | e
        · exact hne e
        · exact hn e
    · rintro ⟨i, hi, rfl⟩
      refine ⟨by simp, ?_, ?_⟩
      · rw [h1]
        exact (List.prefix_append_right_inj d).2 (List.take_prefix _ _)
      · intro hc
        obtain ⟨h, hh⟩ := (ht.isNode_iff _).2 (.inr hc)
        have e : d ++ (b :: bs).take (i + 1) = (d ++ [b]) ++ bs.take i := by simp
        rw [e] at hh
        obtain ⟨j, hj, -⟩ := follow_prefix hh
        obtain ⟨j', hj', e', hne⟩ := follow_snoc.1 hj
        rw [h2] at hj'
        cases hj'
        omega
  rw [hset, Set.ncard_coe_finset, Finset.card_image_of_injOn, Finset.card_range]
  intro i hi j hj e
  simp only [Finset.coe_range, Set.mem_Iio] at hi hj
  have := congrArg List.length e
  simp only [List.length_append, List.length_take] at this
  omega

theorem nodeAt_congr {s t : State} (hn : t.node = s.node) (h : Nat) : t.nodeAt h = s.nodeAt h := by
  simp only [State.nodeAt, hn]

theorem TreeInv.congr' {s t : State} (ht : TreeInv s) (hn : t.node = s.node) (hf : t.nextFree = s.nextFree)
    (hc : t.cfg = s.cfg) (hp : t.pos = s.pos) : TreeInv t :=
  ht.congr hn hf hc (by rw [hp]; exact ht.pos_lt) (by rw [hp]; exact ht.pos_inner)

theorem WalkInv.congr {s t : State} (hw : WalkInv s) (hn : t.node = s.node) (hp : t.pos = s.pos)
    (hu : t.upState = s.upState) (hb : t.bitpos = s.bitpos) (hd : t.decoded = s.decoded) (hc : t.cfg = s.cfg) :
    WalkInv t := by
  intro hr
  obtain ⟨q, h1, h2⟩ := hw (hu ▸ hr)
  refine ⟨q, ?_, ?_⟩
  · rw [follow_congr_node hn, hp]; exact h1
  · rw [hb, hd, hc]; exact h2

theorem CountInv.congr {s t : State} (h : CountInv s) (h1 : t.upState = s.upState) (h2 : t.expected = s.expected)
    (h3 : t.decoded = s.decoded) (h4 : t.bitpos = s.bitpos) (h5 : t.cfg = s.cfg) : CountInv t := by
  constructor <;> simp only [h1, h2, h3, h4, h5]
  · exact h.1
  · exact h.2
  · exact h.3
  · exact h.4
  · exact h.5
  · exact h.6

/-- A tree whose only node is a bare root. -/
theorem TreeInv.of_bare {s : State} (hw : s.node.wf = true) (hn : s.nextFree = 1) (hN : 2 ≤ s.cfg.nNodes)
    (hl : (s.nodeAt 0).leaf = false) (hc : ∀ b, s.childAt 0 b = 0) (hp : s.pos = root) : TreeInv s := by
  have hn' : s.nextFree.toNat = 1 := by rw [hn]; rfl
  have h0 : ∀ h, h < s.nextFree.toNat → h = 0 := by intro h hh; omega
  have hf : ∀ x h, follow s 0 x = some h → x = [] := by
    intro x h hx
    cases x with
    | nil => rfl
    | cons b x => rw [follow, if_pos (hc b)] at hx; cases hx
  constructor
  · exact hw
  · omega
  · omega
  · intro h hh b; rw [h0 h hh, hc]; omega
  · intro h hh b hb; rw [h0 h hh, hc] at hb; exact absurd rfl hb
  · intro h h1 hh; omega
  · intro p p' b b' hp hp' hne; rw [h0 p hp, hc] at hne; exact absurd rfl hne
  · exact hl
  · intro h hh hlf; rw [h0 h hh, hl] at hlf; cases hlf
  · intro h h1 hh; omega
  · intro c h hx; rw [hf c h hx]; exact Nat.zero_le _
  · rw [hp, root_toNat]; omega
  · rw [hp]; exact hl

/-! ## The commands one by one -/

theorem BlockInv.of_front {s t : State} (hi : BlockInv s) (hf : FrontInv t)
    (h : t = { s with stg := t.stg, stglen := t.stglen, stgovf := t.stgovf, err := t.err })
    (h7 : t.err.getLsbD 7 = false) : BlockInv t := by
  have e1 : t.cfg = s.cfg := by rw [h]
  have e2 : t.node = s.node := by rw [h]
  have e3 : t.pos = s.pos := by rw [h]
  have e4 : t.upState = s.upState := by rw [h]
  have e5 : t.bitpos = s.bitpos := by rw [h]
  have e6 : t.decoded = s.decoded := by rw [h]
  have ea : t.acc = s.acc := by rw [h]
  have en : t.nbits = s.nbits := by rw [h]
  refine ⟨by rw [e1]; exact hi.cfg, hf, hi.pack.congr (by rw [ea, en]; exact hi.pack.1) (by rw [h]) e1,
    hi.tree.congr' e2 (by rw [h]) e1 e3, hi.count.congr e4 (by rw [h]) e6 e5 e1,
    hi.walk.congr e2 e3 e4 e5 e6 e1, h7⟩

theorem BlockInv.of_pack {s t : State} (hi : BlockInv s) (h : t = { s with acc := t.acc, nbits := t.nbits, pkOut := t.pkOut })
    (ha : t.acc.toNat < 2 ^ t.nbits.toNat) : BlockInv t := by
  have e1 : t.cfg = s.cfg := by rw [h]
  have e2 : t.node = s.node := by rw [h]
  have e3 : t.pos = s.pos := by rw [h]
  have e4 : t.upState = s.upState := by rw [h]
  have e5 : t.bitpos = s.bitpos := by rw [h]
  have e6 : t.decoded = s.decoded := by rw [h]
  refine ⟨by rw [e1]; exact hi.cfg, hi.front.congr (by rw [h]) (by rw [h]) (by rw [h]) e1,
    hi.pack.congr ha (by rw [h]) e1,
    hi.tree.congr' e2 (by rw [h]) e1 e3, hi.count.congr e4 (by rw [h]) e6 e5 e1,
    hi.walk.congr e2 e3 e4 e5 e6 e1, ?_⟩
  have e7 : t.err = s.err := by rw [h]
  rw [e7]
  exact hi.err7

theorem setErr_bit7 {e : BitVec 8} (h : e.getLsbD 7 = false) (c : ErrCause) : (setErr e c).getLsbD 7 = false := by
  rw [setErr_getLsbD, h]
  cases c <;> rfl

theorem BlockInv.raise {s : State} (hi : BlockInv s) (c : ErrCause) : BlockInv (raise c s) :=
  hi.of_front (hi.front.congr rfl rfl rfl rfl) rfl (setErr_bit7 hi.err7 c)

theorem BlockInv.clearStaging {s : State} (hi : BlockInv s) : BlockInv (clearStaging s) :=
  hi.of_front (.of_cleared rfl rfl rfl) rfl hi.err7

theorem stglen_pos {s : State} (h : s.stglen ≠ 0) : 1 ≤ s.stglen.toNat := by
  have : s.stglen.toNat ≠ 0 := fun e => h (BitVec.eq_of_toNat_eq e)
  omega

theorem BlockInv.codeWrite {s : State} (hi : BlockInv s) (hl : s.stglen ≠ 0) (y : Symbol) :
    BlockInv (codeWrite y { valid := true, len := s.stglen, bits := s.stg } (Machine.clearStaging s)) := by
  have hc := codeRead_codeWrite y { valid := true, len := s.stglen, bits := s.stg } (Machine.clearStaging s)
  have hs : ∀ z, codeRead (Machine.clearStaging s) z = codeRead s z := fun z => codeRead_congr rfl z
  refine ⟨hi.cfg, .of_cleared rfl rfl rfl, ⟨hi.pack.1, ?_, ?_, ?_⟩, hi.tree.congr' rfl rfl rfl rfl,
    hi.count.congr rfl rfl rfl rfl rfl, hi.walk.congr rfl rfl rfl rfl rfl rfl, hi.err7⟩
  all_goals
    intro z hz
    rw [hc, hs] at hz ⊢
    split at hz
    · rename_i e
      rw [if_pos e]
      first | exact stglen_pos hl | exact hi.front.1 | exact hi.front.2
    · rename_i e
      rw [if_neg e]
      first | exact hi.pack.2 z hz | exact hi.pack.3 z hz | exact hi.pack.4 z hz

theorem BlockInv.pkclr {s : State} (hi : BlockInv s) : BlockInv (codeInvalidateAll { s with acc := 0, nbits := 0 }) := by
  have hc : ∀ z, (codeRead (codeInvalidateAll { s with acc := 0, nbits := 0 }) z).valid = false := by
    intro z
    rw [codeRead_codeInvalidateAll]
  refine ⟨hi.cfg, hi.front.congr rfl rfl rfl rfl, ⟨by show 0 < 1; decide, ?_, ?_, ?_⟩, hi.tree.congr' rfl rfl rfl rfl,
    hi.count.congr rfl rfl rfl rfl rfl, hi.walk.congr rfl rfl rfl rfl rfl rfl, hi.err7⟩
  all_goals
    intro z hz
    rw [hc z] at hz
    cases hz

theorem BlockInv.upclr {s : State} (hi : BlockInv s) (hr : s.upState ≠ .run) :
    BlockInv (nodeModify root Node.cleared { s with nextFree := 1, pos := root }) := by
  have hn : (nodeModify root Node.cleared { s with nextFree := 1, pos := root }).nodeAt 0 = (s.nodeAt 0).cleared := by
    rw [nodeAt_nodeModify (s := { s with nextFree := 1, pos := root }) hi.tree.canonical, root_toNat, if_pos rfl]
    rfl
  refine ⟨hi.cfg, hi.front.congr rfl rfl rfl rfl, hi.pack.congr hi.pack.1 rfl rfl, ?_,
    hi.count.congr rfl rfl rfl rfl rfl, fun h => absurd h hr, hi.err7⟩
  refine .of_bare (Memory.wf_write hi.tree.canonical _ _) rfl hi.cfg.2.2.1 ?_ ?_ rfl
  · rw [hn]
    rfl
  · intro b
    rw [State.childAt, hn, Node.child_cleared]
    rfl

/-- The length of the staged code. -/
@[simp] theorem length_stagedBits (s : State) : (stagedBits s).length = s.stglen.toNat := length_codeBits _ _

theorem stagedBits_ne_nil {s : State} (h : s.stglen ≠ 0) : stagedBits s ≠ [] := by
  have := stglen_pos h
  intro e
  have := length_stagedBits s
  rw [e, List.length_nil] at this
  omega

/-- An insertion of the staged code, after the staging register is emptied. -/
theorem TreeInv.insertion {s : State} (ht : TreeInv s) {c d : Bits} {p : Handle} {b : Bool} {bs : Bits}
    (h1 : c = d ++ b :: bs) (h2 : follow s 0 d = some p.toNat) (h3 : (s.nodeAt p.toNat).leaf = false)
    (h4 : s.childAt p.toNat b = 0) (h5 : s.nextFree.toNat + (b :: bs).length ≤ s.cfg.nNodes) :
    TreeInv (Machine.clearStaging s) ∧ Insertion (Machine.clearStaging s) c p d b bs :=
  ⟨ht.congr' rfl rfl rfl rfl, h1, (follow_congr_node (s := s) (t := Machine.clearStaging s) rfl _ _).trans h2, h3, h4, h5⟩

theorem BlockInv.upins {s t : State} {y : Symbol} (hi : BlockInv s) (h : execUpins y s = .next t) : BlockInv t := by
  rcases execUpins_outcome h with ⟨c, -, rfl⟩ | ⟨hr, -, hl, p, rest, hd, hroom, rfl⟩
  · exact hi.clearStaging.raise c
  · rcases hi.tree.descend_root _ (stagedBits_ne_nil hl) with ⟨e, -⟩ | ⟨p', d, b, bs, e, h1, h2, h3, h4, -⟩
    · rw [e] at hd
      cases hd
    · rw [e] at hd
      cases hd
      obtain ⟨ht, hins⟩ := hi.tree.insertion h1 h2 h3 h4 hroom
      have htree := hins.treeInv ht hi.cfg.2.2.2 (by rw [length_stagedBits]; exact hi.front.1) y
      have hfr := growPath_frame y p (b :: bs) (Machine.clearStaging s)
      have e0 : (growPath y p (b :: bs) (Machine.clearStaging s)).upState = s.upState := by rw [hfr]; rfl
      have e1 : (growPath y p (b :: bs) (Machine.clearStaging s)).cfg = s.cfg := by rw [hfr]; rfl
      refine ⟨by rw [e1]; exact hi.cfg, .of_cleared (by rw [hfr]; rfl) (by rw [hfr]; rfl) (by rw [hfr]; rfl),
        hi.pack.congr ?_ (by rw [hfr]; rfl) e1, htree,
        hi.count.congr e0 (by rw [hfr]; rfl) (by rw [hfr]; rfl) (by rw [hfr]; rfl) e1,
        fun h => absurd (e0 ▸ h) hr, ?_⟩
      · rw [hfr]; exact hi.pack.1
      · rw [hfr]; exact hi.err7

theorem BlockInv.upstart {s : State} (hi : BlockInv s) (n : BitVec 32) :
    BlockInv { s with
      expected := n
      decoded := 0
      bitpos := 0
      pos := root
      upState := if n = 0 then .complete else .run } := by
  have hpos : n ≠ 0 → 0 < n.toNat := by
    intro h
    have : n.toNat ≠ 0 := fun e => h (BitVec.eq_of_toNat_eq e)
    omega
  refine ⟨hi.cfg, hi.front.congr rfl rfl rfl rfl, hi.pack.congr hi.pack.1 rfl rfl,
    hi.tree.congr rfl rfl rfl (by have := hi.tree.one_le_nextFree; simp; omega) hi.tree.root_inner,
    ⟨?_, ?_, ?_, ?_, ?_, ?_⟩, fun _ => ⟨[], rfl, ?_⟩, hi.err7⟩
  · dsimp only
    split <;> nofun
  · exact Nat.zero_le _
  · dsimp only
    split
    · nofun
    · exact fun _ => hpos ‹_›
  · dsimp only
    split
    · rename_i e
      rw [e]
      simp
    · rename_i e
      exact ⟨nofun, fun h => absurd h.2.symm e⟩
  · exact Nat.zero_le _
  · exact Nat.zero_le _
  · exact Nat.zero_le _

theorem BlockInv.upend {s : State} (hi : BlockInv s) (hr : s.upState = .run) : BlockInv { s with upState := .truncated } := by
  have hlt := hi.count.run_lt hr
  refine ⟨hi.cfg, hi.front.congr rfl rfl rfl rfl, hi.pack.congr hi.pack.1 rfl rfl, hi.tree.congr' rfl rfl rfl rfl,
    ⟨nofun, hi.count.2, nofun, ?_, hi.count.5, hi.count.6⟩, nofun, hi.err7⟩
  refine ⟨nofun, fun h => ?_⟩
  have := congrArg BitVec.toNat h.2
  dsimp only at this
  omega

end Sys2Proof.Machine
end

