-- ==== Sys2Proof/Laws/Check.lean ====
section
/-! SUPPORT. The invariants of a small concrete state as one finite question, for the witnesses among the tests. -/

namespace Sys2Proof.Machine

/-- The tree invariant of an arena with at most MAXLEN + 1 allocated nodes: no path can be longer than MAXLEN there. -/
def smallTree (s : State) : Bool :=
  s.node.wf && decide (1 ≤ s.nextFree.toNat) && decide (s.nextFree.toNat ≤ s.cfg.nNodes) &&
  decide (s.nextFree.toNat ≤ s.cfg.maxLen + 1) &&
  decide (∀ h, h < s.nextFree.toNat → ∀ b, s.childAt h b < s.nextFree.toNat) &&
  decide (∀ h, h < s.nextFree.toNat → ∀ b, s.childAt h b ≠ 0 → h < s.childAt h b) &&
  decide (∀ h, h < s.nextFree.toNat → 1 ≤ h → ∃ p, p < s.nextFree.toNat ∧ ∃ b, s.childAt p b = h) &&
  decide (∀ p, p < s.nextFree.toNat → ∀ p', p' < s.nextFree.toNat → ∀ b b', s.childAt p b ≠ 0 →
    s.childAt p b = s.childAt p' b' → p = p' ∧ b = b') &&
  decide ((s.nodeAt 0).leaf = false) &&
  decide (∀ h, h < s.nextFree.toNat → (s.nodeAt h).leaf = true → ∀ b, s.childAt h b = 0) &&
  decide (∀ h, h < s.nextFree.toNat → 1 ≤ h → (s.nodeAt h).leaf = false → ∃ b, s.childAt h b ≠ 0) &&
  decide (s.pos.toNat < s.nextFree.toNat) && decide ((s.nodeAt s.pos.toNat).leaf = false)

/-- A path rises by at least one handle a bit. -/
theorem follow_length_le {s : State} (hlt : ∀ h, h < s.nextFree.toNat → ∀ b, s.childAt h b < s.nextFree.toNat)
    (hab : ∀ h, h < s.nextFree.toNat → ∀ b, s.childAt h b ≠ 0 → h < s.childAt h b) {c : Bits} {h k : Nat}
    (hh : h < s.nextFree.toNat) (hc : follow s h c = some k) : k < s.nextFree.toNat ∧ h + c.length ≤ k := by
  induction c generalizing h with
  | nil =>
    simp only [follow_nil, Option.some.injEq] at hc
    subst hc
    exact ⟨hh, Nat.le_refl _⟩
  | cons b c ih =>
    simp only [follow] at hc
    split at hc
    · cases hc
    · rename_i hz
      have h1 := hab h hh b hz
      obtain ⟨h2, h3⟩ := ih (hlt h hh b) hc
      simp only [List.length_cons]
      omega

theorem treeInv_of_small {s : State} (h : smallTree s = true) : TreeInv s := by
  simp only [smallTree, Bool.and_eq_true, decide_eq_true_eq] at h
  obtain ⟨⟨⟨⟨⟨⟨⟨⟨⟨⟨⟨⟨h1, h2⟩, h3⟩, h4⟩, h5⟩, h6⟩, h7⟩, h8⟩, h9⟩, h10⟩, h11⟩, h12⟩, h13⟩ := h
  refine ⟨h1, h2, h3, h5, h6, ?_, fun p p' b b' hp hp' => h8 p hp p' hp' b b', h9, h10,
    fun k k1 kl => h11 k kl k1, ?_, h12, h13⟩
  · intro k k1 kl
    obtain ⟨p, hp, b, hb⟩ := h7 k kl k1
    exact ⟨p, b, hp, hb⟩
  · intro c k hc
    have := follow_length_le h5 h6 (by omega) hc
    omega

/-- The invariant of the front end. -/
def smallFront (s : State) : Bool :=
  decide (s.stglen.toNat ≤ s.cfg.maxLen) && decide (s.stg.toNat < 2 ^ s.stglen.toNat) &&
  decide (s.stgovf = true → s.stglen.toNat = s.cfg.maxLen)

theorem frontInv_of_small {s : State} (h : smallFront s = true) : FrontInv s := by
  simp only [smallFront, Bool.and_eq_true, decide_eq_true_eq] at h
  exact ⟨h.1.1, h.1.2, h.2⟩

/-- The invariant of the PACK unit. -/
def smallPack (s : State) : Bool :=
  decide (s.acc.toNat < 2 ^ s.nbits.toNat) &&
  s.code.toList.all fun e => !e.valid ||
    (decide (1 ≤ e.len.toNat) && decide (e.len.toNat ≤ s.cfg.maxLen) && decide (e.bits.toNat < 2 ^ e.len.toNat))

theorem codeRead_mem (s : State) (y : Symbol) : codeRead s y ∈ s.code.toList := by
  simp [codeRead]

theorem packInv_of_small {s : State} (h : smallPack s = true) : PackInv s := by
  simp only [smallPack, Bool.and_eq_true, decide_eq_true_eq, List.all_eq_true] at h
  have hp : ∀ y, (codeRead s y).valid = true → 1 ≤ (codeRead s y).len.toNat ∧
      (codeRead s y).len.toNat ≤ s.cfg.maxLen ∧ (codeRead s y).bits.toNat < 2 ^ (codeRead s y).len.toNat := by
    intro y hv
    have := h.2 _ (codeRead_mem s y)
    simp only [hv, Bool.not_true, Bool.false_or, Bool.and_eq_true, decide_eq_true_eq] at this
    exact ⟨this.1.1, this.1.2, this.2⟩
  exact ⟨h.1, fun y hv => (hp y hv).1, fun y hv => (hp y hv).2.1, fun y hv => (hp y hv).2.2⟩

/-- The invariant of the counters. -/
def smallCount (s : State) : Bool :=
  decide (s.upState = .idle → s.expected = 0 ∧ s.decoded = 0 ∧ s.bitpos = 0) &&
  decide (s.decoded.toNat ≤ s.expected.toNat) && decide (s.upState = .run → s.decoded.toNat < s.expected.toNat) &&
  decide (s.upState = .complete ↔ s.upState ≠ .idle ∧ s.decoded = s.expected) &&
  decide (s.decoded.toNat ≤ s.bitpos.toNat) &&
  decide (s.bitpos.toNat ≤ s.decoded.toNat * s.cfg.maxLen + (s.cfg.maxLen - 1))

theorem countInv_of_small {s : State} (h : smallCount s = true) : CountInv s := by
  simp only [smallCount, Bool.and_eq_true, decide_eq_true_eq] at h
  obtain ⟨⟨⟨⟨⟨h1, h2⟩, h3⟩, h4⟩, h5⟩, h6⟩ := h
  exact ⟨h1, h2, h3, h4, h5, h6⟩

/-- All the invariants of a state with a small tree; q is the path to POS. -/
def smallInv (s : State) (q : Bits) : Bool :=
  decide s.cfg.wf && smallFront s && smallPack s && smallTree s && smallCount s &&
  decide (s.upState = .run → follow s 0 q = some s.pos.toNat ∧
    s.bitpos.toNat ≤ s.decoded.toNat * s.cfg.maxLen + q.length) &&
  decide (s.err.getLsbD 7 = false)

theorem blockInv_of_small {s : State} {q : Bits} (h : smallInv s q = true) : BlockInv s := by
  simp only [smallInv, Bool.and_eq_true, decide_eq_true_eq] at h
  obtain ⟨⟨⟨⟨⟨⟨hc, hf⟩, hp⟩, ht⟩, hn⟩, hw⟩, h7⟩ := h
  exact ⟨hc, frontInv_of_small hf, packInv_of_small hp, treeInv_of_small ht, countInv_of_small hn,
    fun hr => ⟨q, (hw hr).1, (hw hr).2⟩, h7⟩

/-! ## Outcomes of concrete runs -/

/-- The state of an outcome that is a next state. -/
def outcomeState : Host.Outcome State Fault Refusal → State
  | .next s => s
  | .fault _ => State.reset
  | .refused _ => State.reset

/-- Whether an outcome is a next state. -/
def isNext : Host.Outcome State Fault Refusal → Bool
  | .next _ => true
  | .fault _ => false
  | .refused _ => false

theorem eq_next_of_isNext {o : Host.Outcome State Fault Refusal} (h : isNext o = true) :
    o = .next (outcomeState o) := by
  cases o with
  | next s => rfl
  | fault r => cases h
  | refused r => cases h

end Sys2Proof.Machine
end

