-- ==== Sys2Proof/Laws/Words.lean ====
section
/-! SUPPORT. The two fields of a command word (`spec/30_encoding.md` R90), as numbers, and a mask of high bits. -/

namespace Sys2Proof.Machine

theorem toNat_cmdWord (op : BitVec 8) (arg : BitVec 32) :
    (cmdWord op arg).toNat = op.toNat * 2 ^ 32 + arg.toNat := by
  have h := arg.isLt
  unfold cmdWord
  rw [BitVec.toNat_append, Nat.shiftLeft_eq, Nat.mul_comm, ← Nat.two_pow_add_eq_or_of_lt h]

theorem toNat_opField (w : CmdWord) : (opField w).toNat = w.toNat / 2 ^ 32 := by
  have h := w.isLt
  rw [opField, BitVec.extractLsb'_toNat, Nat.shiftRight_eq_div_pow]
  omega

theorem toNat_argField (w : CmdWord) : (argField w).toNat = w.toNat % 2 ^ 32 := by
  rw [argField, BitVec.extractLsb'_toNat, Nat.shiftRight_zero]

@[simp] theorem opField_cmdWord (op : BitVec 8) (arg : BitVec 32) : opField (cmdWord op arg) = op := by
  apply BitVec.eq_of_toNat_eq
  have h := arg.isLt
  rw [toNat_opField, toNat_cmdWord]
  omega

@[simp] theorem argField_cmdWord (op : BitVec 8) (arg : BitVec 32) : argField (cmdWord op arg) = arg := by
  apply BitVec.eq_of_toNat_eq
  have h := arg.isLt
  rw [toNat_argField, toNat_cmdWord]
  omega

/-- A word is its two fields put together. -/
theorem cmdWord_fields (w : CmdWord) : cmdWord (opField w) (argField w) = w := by
  apply BitVec.eq_of_toNat_eq
  rw [toNat_cmdWord, toNat_opField, toNat_argField]
  omega

/-- The low byte of an argument. -/
theorem toNat_argByte (arg : BitVec 32) : (arg.extractLsb' 0 8).toNat = arg.toNat % 256 := by
  rw [BitVec.extractLsb'_toNat, Nat.shiftRight_zero]

/-- The reserved bits of format S (R94). -/
theorem argHigh_eq_zero_iff (arg : BitVec 32) : arg.extractLsb' 8 24 = 0 ↔ arg.toNat < 256 := by
  have h := arg.isLt
  rw [← BitVec.toNat_inj, BitVec.extractLsb'_toNat, Nat.shiftRight_eq_div_pow]
  simp
  omega

/-- The reserved bits of format B (R93). -/
theorem argTop_eq_zero_iff (arg : BitVec 32) : arg.extractLsb' 1 31 = 0 ↔ arg.toNat < 2 := by
  have h := arg.isLt
  rw [← BitVec.toNat_inj, BitVec.extractLsb'_toNat, Nat.shiftRight_eq_div_pow]
  simp
  omega

/-- Comparing a word under a mask of all bits from k up is comparing the bits from k up. -/
theorem and_highMask_eq_iff (w m : CmdWord) (k : Nat) (hm : m.toNat % 2 ^ k = 0) :
    w &&& (BitVec.allOnes 40 <<< k) = m ↔ w.toNat / 2 ^ k = m.toNat / 2 ^ k := by
  have e : w &&& (BitVec.allOnes 40 <<< k) = (w >>> k) <<< k := by
    apply BitVec.eq_of_getLsbD_eq
    intro i hi
    simp only [BitVec.getLsbD_and, BitVec.getLsbD_shiftLeft, BitVec.getLsbD_allOnes, BitVec.getLsbD_ushiftRight, hi,
      decide_true, Bool.true_and]
    by_cases hk : i < k
    · simp [hk]
    · rw [Nat.add_sub_cancel' (by omega)]
      simp [hk, show i - k < 40 by omega]
  have hw := w.isLt
  have h1 : (w.toNat / 2 ^ k) * 2 ^ k ≤ w.toNat := Nat.div_mul_le_self _ _
  have h2 := Nat.div_add_mod m.toNat (2 ^ k)
  rw [e, ← BitVec.toNat_inj, BitVec.toNat_shiftLeft, BitVec.toNat_ushiftRight, Nat.shiftRight_eq_div_pow,
    Nat.shiftLeft_eq, Nat.mod_eq_of_lt (by omega)]
  constructor
  · intro h
    have hpos : 0 < 2 ^ k := by positivity
    rw [← h, Nat.mul_div_cancel _ hpos]
  · intro h
    rw [h, Nat.mul_comm]
    omega

end Sys2Proof.Machine
end

