-- ==== Sys2Proof/Laws/PerInstr.lean ====
section
/-! SUPPORT. One lemma per command: its word stands in its own row of `spec/30_encoding.md` R98. -/

namespace Sys2Proof.Laws.TableRow

open Sys2Proof.Machine

/-- The word of a command agrees with a row of R98 under that row's mask, has that row's opcode, and has a 0 in every
bit of the argument that the row's mask holds (R104). -/
def Statement (i : Instr) : Prop :=
  ∃ r ∈ opcodeRows, encode i &&& r.2 = r.1 ∧ opField (encode i) = opField r.1 ∧
    argField (encode i) &&& argField r.2 = 0

/-- An argument of one byte, under a mask that holds every other bit. -/
theorem byteArg_and (s : BitVec 8) : s.setWidth 32 &&& (0xFFFFFF00 : BitVec 32) = 0 := by
  apply BitVec.eq_of_toNat_eq
  have h : (s.setWidth 32).toNat = s.toNat := by
    have := s.isLt
    rw [BitVec.toNat_setWidth]
    omega
  rw [BitVec.toNat_and, h]
  apply Nat.eq_of_testBit_eq
  intro k
  rw [Nat.testBit_and]
  by_cases hk : k < 8
  · have : (0xFFFFFF00 : BitVec 32).toNat.testBit k = false := by interval_cases k <;> rfl
    rw [this]
    simp
  · have : s.toNat.testBit k = false :=
      Nat.testBit_lt_two_pow (Nat.lt_of_lt_of_le s.isLt (Nat.pow_le_pow_right (by omega) (by omega)))
    rw [this]
    simp

/-- A word put together from its fields, under a mask put together from its fields. -/
theorem cmdWord_and (op op' : BitVec 8) (arg arg' : BitVec 32) :
    cmdWord op arg &&& cmdWord op' arg' = cmdWord (op &&& op') (arg &&& arg') := by
  apply BitVec.eq_of_getLsbD_eq
  intro i _
  simp only [cmdWord, BitVec.getLsbD_and, BitVec.getLsbD_append]
  split <;> rfl

theorem byteWord (op : BitVec 8) (s : BitVec 8) :
    cmdWord op (s.setWidth 32) &&& (0xFFFFFFFF00 : CmdWord) = cmdWord op 0 := by
  have e : (0xFFFFFFFF00 : CmdWord) = cmdWord 0xFF 0xFFFFFF00 := by decide
  have h : op &&& 0xFF = op := BitVec.and_allOnes
  rw [e, cmdWord_and, byteArg_and, h]

theorem nop : Statement .nop := ⟨(0x0000000000, 0xFFFFFFFFFF), by decide, by decide, by decide, by decide⟩

theorem cclr : Statement .cclr := ⟨(0x0100000000, 0xFFFFFFFFFF), by decide, by decide, by decide, by decide⟩

theorem cbit (b : Bool) : Statement (.cbit b) := by
  refine ⟨(0x0200000000, 0xFFFFFFFFFE), by decide, ?_, ?_, ?_⟩ <;> cases b <;> decide

theorem pkclr : Statement .pkclr := ⟨(0x1000000000, 0xFFFFFFFFFF), by decide, by decide, by decide, by decide⟩

theorem pkdef (s : Symbol) : Statement (.pkdef s) := by
  refine ⟨(0x1100000000, 0xFFFFFFFF00), by decide, byteWord 0x11 s, opField_cmdWord _ _, ?_⟩
  rw [encode, argField_cmdWord]
  exact byteArg_and s

theorem pksym (s : Symbol) : Statement (.pksym s) := by
  refine ⟨(0x1200000000, 0xFFFFFFFF00), by decide, byteWord 0x12 s, opField_cmdWord _ _, ?_⟩
  rw [encode, argField_cmdWord]
  exact byteArg_and s

theorem pkflush : Statement .pkflush := ⟨(0x1300000000, 0xFFFFFFFFFF), by decide, by decide, by decide, by decide⟩

theorem upclr : Statement .upclr := ⟨(0x2000000000, 0xFFFFFFFFFF), by decide, by decide, by decide, by decide⟩

theorem upins (s : Symbol) : Statement (.upins s) := by
  refine ⟨(0x2100000000, 0xFFFFFFFF00), by decide, byteWord 0x21 s, opField_cmdWord _ _, ?_⟩
  rw [encode, argField_cmdWord]
  exact byteArg_and s

theorem upstart (n : BitVec 32) : Statement (.upstart n) := by
  refine ⟨(0x2200000000, 0xFF00000000), by decide, ?_, opField_cmdWord _ _, ?_⟩
  · have e : (0xFF00000000 : CmdWord) = cmdWord 0xFF 0 := by decide
    rw [encode, e, cmdWord_and]
    exact congrArg (cmdWord 0x22) BitVec.and_zero
  · rw [show argField (0xFF00000000 : CmdWord) = 0 by decide]
    exact BitVec.and_zero

theorem upbyte (s : Byte) : Statement (.upbyte s) := by
  refine ⟨(0x2300000000, 0xFFFFFFFF00), by decide, byteWord 0x23 s, opField_cmdWord _ _, ?_⟩
  rw [encode, argField_cmdWord]
  exact byteArg_and s

theorem upend : Statement .upend := ⟨(0x2400000000, 0xFFFFFFFFFF), by decide, by decide, by decide, by decide⟩

end Sys2Proof.Laws.TableRow
end

