-- ==== Sys2Proof/Tests/Slice0.lean ====
section
/-! SUPPORT. Tests: ill-formed lines are refused; words and lines written out in the spec read as they should; single
commands give what `spec/95_test_vectors.md` says; and, for every statement with hypotheses, a state and operands that
meet all of them. -/

namespace Sys2Proof.Tests

open Sys2Proof.Machine

/-! ## Ill-formed lines are refused (R104, R105) -/

theorem test_wf_cbit_2 : ScriptLine.wf .standard (.cbit 2) = false := by decide

theorem test_wf_pkdef_256 : ScriptLine.wf .standard (.pkdef 256) = false := by decide

theorem test_wf_pksym_256 : ScriptLine.wf .standard (.pksym 256) = false := by decide

theorem test_wf_upins_256 : ScriptLine.wf .standard (.upins 256) = false := by decide

theorem test_wf_upbyte_256 : ScriptLine.wf .standard (.upbyte 256) = false := by decide

theorem test_wf_upstart_too_large : ScriptLine.wf .standard (.upstart 4294967296) = false := by decide

theorem test_wf_code_empty : ScriptLine.wf .standard (.defcode 0x61 []) = false := by decide

theorem test_wf_code_too_long :
    ScriptLine.wf { maxLen := 3, nNodes := 8 } (.inscode 0x61 ['0', '0', '0', '0']) = false := by decide

theorem test_wf_code_not_binary : ScriptLine.wf .standard (.defcode 0x61 ['0', '2']) = false := by decide

theorem test_wf_code_symbol_256 : ScriptLine.wf .standard (.inscode 256 ['0']) = false := by decide

theorem test_wf_pack_256 : ScriptLine.wf .standard (.pack [0, 256]) = false := by decide

theorem test_wf_unpack_256 : ScriptLine.wf .standard (.unpack [256]) = false := by decide

theorem test_wf_packstr_control : ScriptLine.wf .standard (.packstr [Char.ofNat 0x1F]) = false := by decide

theorem test_wf_bounds : (ScriptLine.wf .standard (.cbit 1) && ScriptLine.wf .standard (.pksym 255) &&
    ScriptLine.wf .standard (.upstart 4294967295)) = true := by decide

/-! ## Words written out in the spec (`spec/95_test_vectors.md` sections 2 and 3) -/

theorem test_decode_nop : decode 0x0000000000 = .cmd .nop := by decide

theorem test_decode_cclr : decode 0x0100000000 = .cmd .cclr := by decide

theorem test_decode_cbit : decode 0x0200000001 = .cmd (.cbit true) := by decide

theorem test_decode_pkclr : decode 0x1000000000 = .cmd .pkclr := by decide

theorem test_decode_pkdef : decode 0x1100000061 = .cmd (.pkdef 0x61) := by decide

theorem test_decode_pksym : decode 0x1200000041 = .cmd (.pksym 0x41) := by decide

theorem test_decode_pkflush : decode 0x1300000000 = .cmd .pkflush := by decide

theorem test_decode_upclr : decode 0x2000000000 = .cmd .upclr := by decide

theorem test_decode_upins : decode 0x2100000072 = .cmd (.upins 0x72) := by decide

theorem test_decode_upstart : decode 0x220000000B = .cmd (.upstart 11) := by decide

theorem test_decode_upbyte : decode 0x23000000CE = .cmd (.upbyte 0xCE) := by decide

theorem test_decode_upend : decode 0x2400000000 = .cmd .upend := by decide

/-- I1 to I4, I7. -/
theorem test_decode_illegal : decode 0xFF00000000 = .illegal .unassignedOp ∧
    decode 0x0300000000 = .illegal .unassignedOp ∧ decode 0x2500000000 = .illegal .unassignedOp ∧
    decode 0x0000000001 = .illegal .reservedBits ∧ decode 0x2400000100 = .illegal .reservedBits := by decide

/-- The word of R90, numbered as the opcode table numbers it, is what the next step runs: no code yet, so E_NOCODE. -/
theorem test_fetch_word : decodeTableWord 40 0x1200000061 = some (.pksym 0x61) ∧
    (outcomeState (step (State.reset.withFetchWord 40 0x1200000061))).err = 0x20 := by decide

/-! ## Script lines (R104, R105) -/

/-- `UPBYTE 0x4A`. -/
theorem test_line_hex : readLine? ['U', 'P', 'B', 'Y', 'T', 'E', ' ', '0', 'x', '4', 'A'] =
    some (some (.upbyte 0x4A)) := by decide

/-- `PKSYM 'a' ; x`. -/
theorem test_line_char : readLine? ['P', 'K', 'S', 'Y', 'M', ' ', squote, 'a', squote, ' ', ';', ' ', 'x'] =
    some (some (.pksym 0x61)) := by decide

/-- `UPSTART 11`. -/
theorem test_line_decimal : readLine? ['U', 'P', 'S', 'T', 'A', 'R', 'T', ' ', '1', '1'] =
    some (some (.upstart 11)) := by decide

/-- `INSCODE 'b', "100"` is R97's example, with the leading CCLR of R105. -/
theorem test_line_inscode : (match readLine? ['I', 'N', 'S', 'C', 'O', 'D', 'E', ' ', squote, 'b', squote, ',', ' ',
      dquote, '1', '0', '0', dquote] with
    | some (some l) => assembleLine .standard l
    | _ => none) =
    some [0x0100000000, 0x0200000001, 0x0200000000, 0x0200000000, 0x2100000062] := by decide

/-- `CBIT 2` is read but never encoded. -/
theorem test_line_out_of_range : readLine? ['C', 'B', 'I', 'T', ' ', '2'] = some (some (.cbit 2)) ∧
    assembleLine .standard (.cbit 2) = none := by decide

/-- A lower-case mnemonic is no command; a comment alone is no command either, and no error. -/
theorem test_line_rejected : readLine? ['n', 'o', 'p'] = none ∧ readLine? [';', 'x'] = some none := by decide

/-- `PACKSTR "ab"`, then `PKFLUSH`, as one script. -/
theorem test_assemble : assemble .standard [.packstr ['a', 'b'], .pkflush] =
    some [0x1200000061, 0x1200000062, 0x1300000000] := by decide

/-! ## Small states -/

/-- A leaf. -/
def leafOf (y : Symbol) : Node := { leaf := true, sym := y, c1 := 0, c0 := 0 }

/-- A node with children. -/
def innerOf (l r : Handle) : Node := { leaf := false, sym := 0, c1 := r, c0 := l }

/-- A block after reset with small parameters. -/
def mini (m n : Nat) : State := State.resetWith { maxLen := m, nNodes := n } []

/-- The tree T3 of section 2.4: a "0", b "10", c "11". -/
def t3 : State := { State.reset with
  node := [(0, innerOf 1 2), (1, leafOf 0x61), (2, innerOf 3 4), (3, leafOf 0x62), (4, leafOf 0x63)]
  nextFree := 5 }

/-- T3 in a run that expects n symbols. -/
def t3Run (n : BitVec 32) : State := { t3 with upState := .run, expected := n }

/-- The one-symbol tree {a: "0"}. -/
def t1 : State := { State.reset with node := [(0, innerOf 1 0), (1, leafOf 0x61)], nextFree := 2 }

/-- A block whose code table gives a the code "0". -/
def k1 : State := codeWrite 0x61 { valid := true, len := 1, bits := 0 } State.reset

/-- s with the Code (l, v) staged. -/
def staged (l : BitVec 8) (v : CodeReg) (s : State) : State := { s with stg := v, stglen := l }

/-! ## Single commands (`spec/95_test_vectors.md` section 2) -/

/-- L1. -/
theorem test_nop : (outcomeState (exec .nop k1)).err = 0x00 ∧ (outcomeState (exec .nop k1)).nbits = 0 := by decide

/-- L3. -/
theorem test_cclr : let t := outcomeState (exec .cclr (staged 3 5 State.reset))
    t.stg = 0 ∧ t.stglen = 0 ∧ t.stgovf = false := by decide

/-- L2, its third bit. -/
theorem test_cbit : let t := outcomeState (exec (.cbit true) (staged 2 2 State.reset))
    t.stg = 5 ∧ t.stglen = 3 ∧ t.stgovf = false := by decide

/-- L5, its last bit, with MAXLEN = 3 as in L10. -/
theorem test_cbit_overflow : let t := outcomeState (exec (.cbit true) (staged 3 7 (mini 3 8)))
    t.stg = 7 ∧ t.stglen = 3 ∧ t.stgovf = true ∧ t.err = 0x00 := by decide

/-- K14: PKCLR drops the table and the pending bit. -/
theorem test_pkclr : let t := outcomeState (exec .pkclr { k1 with acc := 1, nbits := 1 })
    (codeRead t 0x61).valid = false ∧ t.acc = 0 ∧ t.nbits = 0 := by decide +kernel

/-- P1 line 2. -/
theorem test_pkdef : let t := outcomeState (exec (.pkdef 0x61) (staged 1 0 State.reset))
    codeRead t 0x61 = { valid := true, len := 1, bits := 0 } ∧ t.stglen = 0 ∧ t.err = 0x00 := by decide

/-- L6. -/
theorem test_pkdef_long : let t := outcomeState (exec (.pkdef 5) { staged 3 7 (mini 3 8) with stgovf := true })
    t.err = 0x02 ∧ (codeRead t 5).valid = false ∧ t.stglen = 0 ∧ t.stgovf = false := by decide

/-- K6, its last PKSYM: five bits 01010 pending, the code 101010101010 gives 55 55 and leaves one bit. -/
theorem test_pksym : let s := { codeWrite 0x58 { valid := true, len := 12, bits := 0xAAA } State.reset with
      acc := 0x0A, nbits := 5 }
    let t := outcomeState (exec (.pksym 0x58) s)
    t.pkOut = [0x55, 0x55] ∧ t.nbits = 1 ∧ t.acc = 0 := by decide

/-- K11, its second PKSYM. -/
theorem test_pksym_nocode : let t := outcomeState (exec (.pksym 0x62) { k1 with nbits := 1 })
    t.err = 0x20 ∧ t.nbits = 1 ∧ t.pkOut = [] := by decide

/-- K2: 01011 pending gives 58. -/
theorem test_pkflush : let t := outcomeState (exec .pkflush { k1 with acc := 0x0B, nbits := 5 })
    t.pkOut = [0x58] ∧ t.nbits = 0 ∧ t.acc = 0 := by decide

/-- K5. -/
theorem test_pkflush_empty : (outcomeState (exec .pkflush State.reset)).pkOut = [] := by decide

/-- U18. -/
theorem test_upclr : let t := outcomeState (exec .upclr t1)
    t.nextFree = 1 ∧ t.childAt 0 false = 0 ∧ t.pos = 0 ∧ t.err = 0x00 := by decide

/-- E9, its first UPCLR. -/
theorem test_upclr_busy : let t := outcomeState (exec .upclr (t3Run 5))
    t.err = 0x10 ∧ t.nextFree = 5 ∧ t.upState = .run := by decide

/-- P4 lines 3 to 5: the code "10" goes into the tree of {a: "0"}. -/
theorem test_upins : let t := outcomeState (exec (.upins 0x62) (staged 2 2 t1))
    t.node = [(0, innerOf 1 2), (1, leafOf 0x61), (2, innerOf 3 0), (3, leafOf 0x62)] ∧ t.nextFree = 4 ∧
      t.stglen = 0 ∧ t.err = 0x00 := by decide

/-- E15, its last UPINS: the arena is full, but the code conflicts, and the conflict is seen first. -/
theorem test_upins_conflict : let s := { mini 3 4 with
      node := [(0, innerOf 1 0), (1, innerOf 2 3), (2, leafOf 1), (3, leafOf 2)], nextFree := 4 }
    let t := outcomeState (exec (.upins 3) (staged 1 0 s))
    t.err = 0x08 ∧ t.nextFree = 4 ∧ t.node = s.node := by decide

/-- I8. -/
theorem test_upstart : let t := outcomeState (exec (.upstart 4294967295) State.reset)
    t.upState = .run ∧ t.expected = 4294967295 ∧ t.err = 0x00 := by decide

/-- S4. -/
theorem test_upstart_zero : let t := outcomeState (exec (.upstart 0) State.reset)
    t.upState = .complete ∧ t.expected = 0 ∧ t.decoded = 0 ∧ t.bitpos = 0 ∧ t.upOut = [] := by decide

/-- U1. -/
theorem test_upbyte : let t := outcomeState (exec (.upbyte 0x58) (t3Run 3))
    t.upOut = [0x61, 0x62, 0x63] ∧ t.upState = .complete ∧ t.decoded = 3 ∧ t.bitpos = 5 := by decide

/-- U9. -/
theorem test_upbyte_invalid : let t := outcomeState (exec (.upbyte 0x20) { t1 with upState := .run, expected := 8 })
    t.upOut = [0x61, 0x61] ∧ t.upState = .invalid ∧ t.decoded = 2 ∧ t.bitpos = 2 ∧ t.pos = 0 := by decide

/-- U15. -/
theorem test_upend : (outcomeState (exec .upend (t3Run 1))).upState = .truncated := by decide

/-- U8. -/
theorem test_upend_idle : (outcomeState (exec .upend t3)).upState = .idle := by decide

/-! ## Witnesses: states and operands that meet the hypotheses of the statements

Each is named after its statement. A run is written `runWords ws s = .next t` with t the state the run ends in. -/

theorem t3_inv : BlockInv t3 := blockInv_of_small (q := []) (by decide +kernel)

theorem t3Run_inv : BlockInv (t3Run 3) := blockInv_of_small (q := []) (by decide +kernel)

theorem mini_inv : BlockInv (mini 3 4) := blockInv_of_small (q := []) (by decide +kernel)

theorem witness_EncodeOfDecodeIsTheWord : decode 0x22FFFFFFFF = .cmd (.upstart 4294967295) := by decide

/-- The operands at the ends of their ranges. -/
theorem witness_WordIsCommandIffMaskMatches : decode 0x0200000001 = .cmd (.cbit true) ∧
    decode 0x11000000FF = .cmd (.pkdef 255) ∧ decode 0x12000000FF = .cmd (.pksym 255) ∧
    decode 0x21000000FF = .cmd (.upins 255) ∧ decode 0x2300000000 = .cmd (.upbyte 0) ∧
    decode 0x2200000000 = .cmd (.upstart 0) := by decide

/-- The status port in each of the five states, by R36's table; PK_NBITS with bits pending. -/
theorem witness_StatusPortShowsTheRegisters :
    t3.status.upState = 0 ∧ (t3Run 3).status.upState = 1 ∧
    (outcomeState (exec (.upbyte 0x58) (t3Run 3))).status.upState = 2 ∧
    (outcomeState (exec .upend (t3Run 3))).status.upState = 3 ∧
    (outcomeState (exec (.upbyte 0x20) { t1 with upState := .run, expected := 8 })).status.upState = 4 ∧
    (outcomeState (exec (.pksym 0x61) k1)).status.pkNbits = 1 := by decide

/-- Words with the ops of NOP and CBIT that are illegal. -/
theorem witness_NopChangesNothing_CbitAppendsOneBit_illegal :
    (0x0080000000 : CmdWord).extractLsb' 32 8 = 0x00 ∧ (0x0080000000 : CmdWord) ≠ 0 ∧
      (0x0280000001 : CmdWord).extractLsb' 32 8 = 0x02 ∧ (0x0280000001 : CmdWord).extractLsb' 1 31 ≠ 0 := by decide

theorem witness_IllegalWordSetsOnlyIllcmd : ¬ MatchesRow 0x1200000161 ∧ State.reset.err.getLsbD 6 = false := by decide

/-- An op that is not assigned; a reserved bit of an assigned one; a row's word. -/
theorem witness_AcceptTakesTheFourSteps :
    ({ State.reset with err := 0x40 } : State).err.getLsbD 6 = true ∧ State.reset.err.getLsbD 6 = false ∧
      (∀ r ∈ opcodeRows, (0x0300000000 : CmdWord).extractLsb' 32 8 ≠ r.1.extractLsb' 32 8) ∧
      (∃ r ∈ opcodeRows, (0x1300000001 : CmdWord).extractLsb' 32 8 = r.1.extractLsb' 32 8 ∧
        (0x1300000001 : CmdWord) &&& r.2 ≠ r.1) ∧
      MatchesRow 0x1300000000 :=
  ⟨by decide, by decide, by
    unfold opcodeRows
    repeat (first | exact List.forall_mem_nil _ | refine List.forall_mem_cons.mpr ⟨by decide, ?_⟩),
    ⟨(0x1300000000, 0xFFFFFFFFFF), by simp [opcodeRows], by decide⟩,
    ⟨(0x1300000000, 0xFFFFFFFFFF), by simp [opcodeRows], by decide⟩⟩

theorem witness_StepRunsTheWordAtThePort : let s := { t3 with port := [.word 0x2200000003, .reset] }
    s.port = .word 0x2200000003 :: [.reset] ∧ s.err.getLsbD 6 = false ∧ decode 0x2200000003 = .cmd (.upstart 3) := by
  decide

theorem witness_StepWithNothingPresentedStays : t3.port = [] := by decide

theorem witness_ResetEventGivesTheResetState : ({ t3Run 3 with err := 0x7F, port := [.reset] } : State).port =
    .reset :: [] := by decide

/-- MAXLEN bits staged; one bit fewer. -/
theorem witness_CbitAppendsOneBit : (mini 3 4).cfg.wf ∧ (staged 3 7 (mini 3 4)).stglen.toNat = (mini 3 4).cfg.maxLen ∧
    (staged 2 3 (mini 3 4)).stglen.toNat ≠ (mini 3 4).cfg.maxLen := by decide

theorem witness_CbitExtendsTheStagedCode : (mini 3 4).cfg.wf ∧ FrontInv (staged 2 3 (mini 3 4)) ∧
    (staged 2 3 (mini 3 4)).stglen.toNat < (mini 3 4).cfg.maxLen :=
  ⟨by decide, frontInv_of_small (by decide), by decide⟩

/-- Three CBITs with a NOP and an illegal word among them, MAXLEN = 3: as many bits as fit. -/
theorem witness_LoaderStagesTheBitsInOrder_fits :
    let ws : List CmdWord := [0x0200000001, 0x0000000000, 0x0200000000, 0xFF00000000, 0x0200000001]
    let s := mini 3 4
    s.cfg.wf ∧ FrontInv s ∧ s.stglen = 0 ∧ s.stgovf = false ∧ s.err.getLsbD 6 = false ∧
      (∀ w ∈ ws, keepsStaging w = true ∨ ∃ b, decode w = .cmd (.cbit b)) ∧
      ws.filterMap stagedBit? = [true, false, true] ∧ isNext (runWords ws s) = true ∧
      (ws.filterMap stagedBit?).length ≤ s.cfg.maxLen :=
  ⟨by decide, frontInv_of_small (by decide), by decide, by decide, by decide,
    List.forall_mem_cons.mpr ⟨.inr ⟨true, by decide⟩, List.forall_mem_cons.mpr ⟨.inl (by decide),
      List.forall_mem_cons.mpr ⟨.inr ⟨false, by decide⟩, List.forall_mem_cons.mpr ⟨.inl (by decide),
        List.forall_mem_cons.mpr ⟨.inr ⟨true, by decide⟩, nofun⟩⟩⟩⟩⟩, by decide, by decide, by decide⟩

/-- Four CBITs, MAXLEN = 3: one bit too many. -/
theorem witness_LoaderStagesTheBitsInOrder_overflows :
    let ws : List CmdWord := [0x0200000001, 0x0200000000, 0x0200000001, 0x0200000001]
    let s := mini 3 4
    s.cfg.wf ∧ FrontInv s ∧ s.stglen = 0 ∧ s.stgovf = false ∧ s.err.getLsbD 6 = false ∧
      (∀ w ∈ ws, keepsStaging w = true ∨ ∃ b, decode w = .cmd (.cbit b)) ∧ isNext (runWords ws s) = true ∧
      s.cfg.maxLen < (ws.filterMap stagedBit?).length :=
  ⟨by decide, frontInv_of_small (by decide), by decide, by decide, by decide,
    List.forall_mem_cons.mpr ⟨.inr ⟨true, by decide⟩, List.forall_mem_cons.mpr ⟨.inr ⟨false, by decide⟩,
      List.forall_mem_cons.mpr ⟨.inr ⟨true, by decide⟩, List.forall_mem_cons.mpr ⟨.inr ⟨true, by decide⟩, nofun⟩⟩⟩⟩,
    by decide, by decide⟩

/-- The longest code there is. -/
theorem witness_CodeRegisterHoldsFirstBitHighest : 0 < 255 ∧ (List.replicate 255 true).length ≤ 255 := by
  rw [List.length_replicate]
  decide

theorem witness_PkdefDefinesTheStagedCode :
    ({ staged 3 7 (mini 3 4) with stgovf := true } : State).stgovf = true ∧
      State.reset.stgovf = false ∧ State.reset.stglen = 0 ∧ (staged 1 0 State.reset).stgovf = false ∧
      (staged 1 0 State.reset).stglen ≠ 0 ∧ (0x62 : Symbol) ≠ 0x61 := by decide

/-- A word that changes the table, and a run with two PKDEFs of one Symbol. -/
theorem witness_CodeTableHoldsTheLastDefinition :
    let ws : List CmdWord := [0x0200000001, 0x1100000062, 0x0200000000, 0x1100000062]
    (isNext (accept 0x1000000000 k1) = true ∧
      codeRead (outcomeState (accept 0x1000000000 k1)) 0x61 ≠ codeRead k1 0x61) ∧
    (codeRead State.reset 0x62).valid = false ∧ (∀ w ∈ ws, decode w ≠ .cmd .pkclr) ∧
    isNext (runWords ws State.reset) = true ∧
    (ws = [0x0200000001, 0x1100000062, 0x0200000000] ++ 0x1100000062 :: [] ∧
      isNext (runWords [0x0200000001, 0x1100000062, 0x0200000000] State.reset) = true ∧
      pkdefSucceeds 0x1100000062
        (outcomeState (runWords [0x0200000001, 0x1100000062, 0x0200000000] State.reset)) 0x62) :=
  ⟨⟨by decide +kernel, by decide +kernel⟩, by decide, by
    repeat (first | exact List.forall_mem_nil _ | refine List.forall_mem_cons.mpr ⟨by decide, ?_⟩), by decide +kernel, rfl, by decide +kernel,
    ⟨by decide, by decide +kernel, by decide +kernel, by decide +kernel⟩⟩

theorem witness_PksymAppendsTheCode : (codeRead k1 0x62).valid = false ∧ (codeRead k1 0x61).valid = true ∧
    k1.acc.toNat < 2 ^ k1.nbits.toNat := by decide

theorem witness_PkflushPadsTheLastByte : k1.nbits = 0 ∧ ({ k1 with acc := 0x7F, nbits := 7 } : State).nbits ≠ 0 := by
  decide

/-- PKSYM 'a' twice with UPSTART 1, an illegal word and CBIT 1 among them, then PKFLUSH. -/
theorem witness_PackingFunction_mixture :
    let ws : List CmdWord := [0x1200000061, 0x2200000001, 0xFF00000000, 0x0200000001, 0x1200000061]
    let t := outcomeState (runWords ws k1)
    k1.nbits = 0 ∧ k1.err.getLsbD 6 = false ∧
      (∀ w ∈ ws, ∀ i, decode w = .cmd i → isPackCommand i = true → ∃ y, i = .pksym y) ∧
      ws.filterMap packedSymbol? = [0x61, 0x61] ∧ (∀ y ∈ ws.filterMap packedSymbol?, (codeRead k1 y).valid = true) ∧
      isNext (runWords ws k1) = true ∧ t.err.getLsbD 6 = false ∧ isNext (runCmds [.pkflush] t) = true := by
  refine ⟨by decide, by decide, ?_, by decide, by decide, by decide, by decide, by decide⟩
  intro w hw i hd hp
  simp only [List.mem_cons, List.not_mem_nil, or_false] at hw
  rcases hw with rfl | rfl | rfl | rfl | rfl
  · exact ⟨0x61, (Decoded.cmd.inj (hd.symm.trans (by decide)))⟩
  · rw [Decoded.cmd.inj (hd.symm.trans (show decode 0x2200000001 = .cmd (.upstart 1) by decide))] at hp
    cases hp
  · exact absurd (hd.symm.trans (show decode 0xFF00000000 = .illegal .unassignedOp by decide)) (by simp)
  · rw [Decoded.cmd.inj (hd.symm.trans (show decode 0x0200000001 = .cmd (.cbit true) by decide))] at hp
    cases hp
  · exact ⟨0x61, (Decoded.cmd.inj (hd.symm.trans (by decide)))⟩

theorem witness_PackingFunction_alone : [0x1200000061, 0x1200000061] =
    ([0x61, 0x61] : List Symbol).map (fun y => encode (.pksym y)) := by decide

theorem witness_SingleSymbolStreamPacksToZeros : k1.nbits = 0 ∧ k1.err.getLsbD 6 = false ∧
    codeRead k1 0x61 = { valid := true, len := 1, bits := 0 } := by decide

theorem witness_UpclrEmptiesTheTree : (t3Run 3).upState = .run ∧ t3.upState ≠ .run ∧ t3.node.wf = true ∧
    (4 : Nat) ≠ 0 := by decide

theorem witness_UpinsRefusesInTheFixedOrder : (t3Run 3).upState = .run ∧ (mini 3 4).upState ≠ .run ∧
    ({ staged 3 7 (mini 3 4) with stgovf := true } : State).stgovf = true ∧ (mini 3 4).stgovf = false ∧
    (mini 3 4).stglen = 0 := by decide

/-- The tree of {a: "0"} with room for one node only, and the code "1" staged: it just fits. -/
def tightTree : State := staged 1 1 { mini 3 3 with node := [(0, innerOf 1 0), (1, leafOf 0x61)], nextFree := 2 }

theorem tightTree_inv : BlockInv tightTree := blockInv_of_small (q := []) (by decide +kernel)

/-- No code of that tree is a prefix of "1", nor "1" of one. -/
theorem tightTree_free : ¬ Conflicts tightTree (stagedBits tightTree) := by
  rcases tightTree_inv.tree.descend_root (stagedBits tightTree) (by decide) with ⟨e, -⟩ | ⟨_, _, _, _, -, -, -, -, -, h⟩
  · exact absurd e (by decide)
  · exact h

theorem witness_UpinsInserts_fits : BlockInv tightTree ∧ tightTree.upState ≠ .run ∧ tightTree.stgovf = false ∧
    tightTree.stglen ≠ 0 ∧ (¬ ∃ c' y', HasCode tightTree c' y' ∧
      (c' <+: stagedBits tightTree ∨ stagedBits tightTree <+: c')) ∧
    tightTree.nextFree.toNat +
      Set.ncard { p : Bits | p ≠ [] ∧ p <+: stagedBits tightTree ∧ ¬ IsCodePrefix (HasCode tightTree) p } ≤
      tightTree.cfg.nNodes := by
  refine ⟨tightTree_inv, by decide, by decide, by decide, tightTree_free, ?_⟩
  rw [tightTree_inv.tree.ncard_new (d := []) (b := true) (bs := []) (p := 0) (by decide) rfl (by decide)]
  decide

/-- The same with the code "0" staged: the code of 'a' is there already. -/
theorem witness_UpinsInserts_conflict : let s := staged 1 0 tightTree
    BlockInv s ∧ s.upState ≠ .run ∧ s.stgovf = false ∧ s.stglen ≠ 0 ∧
      ∃ c' y', HasCode s c' y' ∧ (c' <+: stagedBits s ∨ stagedBits s <+: c') :=
  ⟨blockInv_of_small (q := []) (by decide +kernel), by decide, by decide, by decide,
    [false], 0x61, ⟨1, by decide, by decide, by decide⟩, .inl (by decide)⟩

/-- The same with the code "10" staged: one node too many. -/
theorem witness_UpinsInserts_alloc : let s := staged 2 2 tightTree
    BlockInv s ∧ s.upState ≠ .run ∧ s.stgovf = false ∧ s.stglen ≠ 0 ∧
      (¬ ∃ c' y', HasCode s c' y' ∧ (c' <+: stagedBits s ∨ stagedBits s <+: c')) ∧
      s.cfg.nNodes < s.nextFree.toNat +
        Set.ncard { p : Bits | p ≠ [] ∧ p <+: stagedBits s ∧ ¬ IsCodePrefix (HasCode s) p } := by
  have hi : BlockInv (staged 2 2 tightTree) := blockInv_of_small (q := []) (by decide +kernel)
  refine ⟨hi, by decide, by decide, by decide, ?_, ?_⟩
  · rcases hi.tree.descend_root (stagedBits (staged 2 2 tightTree)) (by decide) with
      ⟨e, -⟩ | ⟨_, _, _, _, -, -, -, -, -, h⟩
    · exact absurd e (by decide)
    · exact h
  · rw [hi.tree.ncard_new (d := []) (b := true) (bs := [false]) (p := 0) (by decide) rfl (by decide)]
    decide

theorem witness_UpinsWritesOnlyTheNewPath : BlockInv tightTree ∧ tightTree.upState ≠ .run ∧
    tightTree.stgovf = false ∧ tightTree.stglen ≠ 0 ∧
    descend (clearStaging tightTree) root (stagedBits tightTree) = .absent root [true] ∧
    tightTree.nextFree.toNat + [true].length ≤ tightTree.cfg.nNodes :=
  ⟨tightTree_inv, by decide, by decide, by decide, by decide, by decide⟩

theorem witness_UpstartBeginsARun : (0 : BitVec 32) = 0 ∧ (4294967295 : BitVec 32) ≠ 0 := by decide

/-- In the middle of a codeword: POS at the node of the path "1". -/
theorem witness_UpbyteParsesTheNextByte : let s := { t3Run 3 with pos := 2, bitpos := 1 }
    BlockInv s ∧ s.upState = .run ∧ follow s 0 [true] = some s.pos.toNat ∧ t3.upState ≠ .run :=
  ⟨blockInv_of_small (q := [true]) (by decide +kernel), by decide, by decide, by decide⟩

theorem witness_UpendTruncatesARun : (t3Run 3).upState = .run ∧ t3.upState ≠ .run := by decide

/-- U4: the run is still in RUN after the byte. -/
theorem witness_DecodingFunction : BlockInv t3 ∧ t3.err.getLsbD 6 = false ∧
    (outcomeState (runCmds (.upstart 6 :: [0x5A].map .upbyte) t3)).upState = .run :=
  ⟨t3_inv, by decide, by decide +kernel⟩

/-- A block that has packed nothing yet, its table loaded with a "0" and b "10", and another with the tree T3, which
holds these codes and one more. -/
theorem witness_RoundTrip :
    let s := codeWrite 0x62 { valid := true, len := 2, bits := 2 } k1
    let pairs : List (Symbol × Bits) := [(0x61, [false]), (0x62, [true, false])]
    s.nbits = 0 ∧ s.err.getLsbD 6 = false ∧
      (∀ x ∈ pairs, (codeRead s x.1).valid = true ∧
        codeBits (codeRead s x.1).len.toNat (codeRead s x.1).bits = x.2) ∧
      BlockInv t3 ∧ t3.err.getLsbD 6 = false ∧ (∀ x ∈ pairs, HasCode t3 x.2 x.1) ∧
      (∀ y ∈ ([0x62, 0x61, 0x62] : List Symbol), y ∈ pairs.map Prod.fst) ∧ [0x62, 0x61, 0x62].length < 2 ^ 32 :=
  ⟨by decide, by decide,
    List.forall_mem_cons.mpr ⟨by decide +kernel, List.forall_mem_cons.mpr ⟨by decide +kernel, nofun⟩⟩,
    t3_inv, by decide,
    List.forall_mem_cons.mpr ⟨⟨1, by decide, by decide, by decide⟩,
      List.forall_mem_cons.mpr ⟨⟨3, by decide, by decide, by decide⟩, nofun⟩⟩,
    by decide, by decide⟩

/-- In the order of P3: the table, the packing, and then the tree, the second code first. -/
theorem witness_LoadingLinesFillBothUnits :
    let pairs : List (Symbol × Bits) := [(0x61, [false]), (0x62, [true, false])]
    let blocks := [defCode 0x61 [false], defCode 0x62 [true, false], [.pksym 0x62, .pkflush],
      insCode 0x62 [true, false], insCode 0x61 [false]]
    let o := runCmds blocks.flatten State.reset
    BlockInv State.reset ∧ State.reset.nextFree = 1 ∧ (pairs.map Prod.fst).Nodup ∧
      (∀ x ∈ pairs, 1 ≤ x.2.length ∧ x.2.length ≤ State.reset.cfg.maxLen) ∧
      (∀ b ∈ blocks, (∃ x ∈ pairs, b = defCode x.1 x.2 ∨ b = insCode x.1 x.2) ∨
        ∀ i ∈ b, usesStaging i = false ∧ i ≠ .pkclr ∧ i ≠ .upclr) ∧
      isNext o = true ∧ (outcomeState o).err = 0 :=
  ⟨blockInv_of_small (q := []) (by decide +kernel), by decide, by decide, by decide,
    List.forall_mem_cons.mpr ⟨.inl ⟨(0x61, [false]), by simp, .inl rfl⟩,
      List.forall_mem_cons.mpr ⟨.inl ⟨(0x62, [true, false]), by simp, .inl rfl⟩,
        List.forall_mem_cons.mpr ⟨.inr (by decide),
          List.forall_mem_cons.mpr ⟨.inl ⟨(0x62, [true, false]), by simp, .inr rfl⟩,
            List.forall_mem_cons.mpr ⟨.inl ⟨(0x61, [false]), by simp, .inr rfl⟩, nofun⟩⟩⟩⟩⟩,
    by decide +kernel, by decide +kernel⟩

theorem witness_DefaultArenaHoldsAnyPrefixFreeCode :
    let s := State.reset
    let pairs : List (Symbol × Bits) := [(0x61, [false]), (0x62, [true, false]), (0x63, [true, true])]
    BlockInv s ∧ s.err = 0 ∧ s.upState ≠ .run ∧ s.nextFree = 1 ∧ s.cfg.nNodes = 65536 ∧
      (pairs.map Prod.fst).Nodup ∧ (∀ x ∈ pairs, 1 ≤ x.2.length ∧ x.2.length ≤ s.cfg.maxLen) ∧
      (∀ x ∈ pairs, ∀ z ∈ pairs, x ≠ z → ¬ x.2 <+: z.2) :=
  ⟨blockInv_of_small (q := []) (by decide +kernel), by decide, by decide, by decide, by decide, by decide, by decide,
    by decide⟩

theorem witness_UnitsNeitherReadNorWriteEachOther : isPackCommand (.pksym 0x61) = true ∧
    isUnpackCommand (.upbyte 0x58) = true ∧ isNext (exec (.pksym 0x61) k1) = true ∧
    isNext (exec (.upbyte 0x58) (t3Run 3)) = true := by decide

theorem witness_InterleavingGivesTheSameStreams :
    let is : List Instr := [.upstart 3, .pksym 0x61, .upbyte 0x58, .pkflush]
    let s := { t3 with code := k1.code }
    (∀ i ∈ is, ∀ y, i ≠ .pkdef y) ∧ isNext (runCmds is s) = true ∧
      (outcomeState (runCmds is s)).err.getLsbD 6 = false := by
  refine ⟨?_, by decide +kernel, by decide +kernel⟩
  intro i hi y
  simp only [List.mem_cons, List.not_mem_nil, or_false] at hi
  rcases hi with rfl | rfl | rfl | rfl <;> nofun

/-- One command that appends to each stream, and a PKFLUSH. -/
theorem witness_StreamsOnlyGrow : isNext (accept 0x2300000058 (t3Run 3)) = true ∧
    (outcomeState (accept 0x2300000058 (t3Run 3))).upOut ≠ (t3Run 3).upOut ∧
    isNext (accept 0x1200000061 { k1 with nbits := 7 }) = true ∧
    (outcomeState (accept 0x1200000061 { k1 with nbits := 7 })).pkOut ≠ k1.pkOut ∧
    (outcomeState (accept 0x1300000000 { k1 with nbits := 7 })).pkOut ≠ k1.pkOut := by decide

theorem witness_CommandsKeepParametersAndPort : isNext (accept 0x1200000061 { k1 with port := [.reset] }) = true := by
  decide

theorem witness_OtherCommandsIgnoreTheStagingRegister : usesStaging (.pksym 0x61) = false ∧
    usesStaging .upclr = false := by decide

/-- A run completed, one found invalid, one left running, one truncated; E_BUSY; the fatal condition. -/
theorem witness_UpStateFollowsTheTable :
    (outcomeState (exec (.upbyte 0x58) (t3Run 3))).upState = .complete ∧
    (outcomeState (exec (.upbyte 0x20) { t1 with upState := .run, expected := 8 })).upState = .invalid ∧
    (outcomeState (exec (.upbyte 0x5A) (t3Run 6))).upState = .run ∧
    (outcomeState (exec .upend (t3Run 3))).upState = .truncated ∧ isNext (exec .upclr (t3Run 3)) = true ∧
    isNext (exec (.upins 1) (t3Run 3)) = true ∧ isNext (exec (.upstart 0) t3) = true ∧ t3.upState ≠ .run ∧
    (outcomeState (exec .nop t3)).upState = .idle ∧
    ({ t3 with err := 0x40 } : State).err.getLsbD 6 = true := by decide

theorem witness_OnlyResetClearsErr : let s := { t3 with err := 0x40, port := [.reset] }
    isNext (step s) = true ∧ s.err.getLsbD 6 = true ∧ (outcomeState (step s)).err.getLsbD 6 = false := by decide

theorem witness_OneWordSetsAtMostOneErrBit : isNext (accept 0x2100000005 State.reset) = true ∧
    (outcomeState (accept 0x2100000005 State.reset)).err ≠ State.reset.err := by decide

/-- An illegal word; a PKDEF with nothing staged. -/
theorem witness_RefusedCommandHasNoOtherEffect : isNext (accept 0xFF00000000 State.reset) = true ∧
    (outcomeState (accept 0xFF00000000 State.reset)).err ≠ State.reset.err ∧
    isNext (accept 0x1100000005 State.reset) = true ∧
    (outcomeState (accept 0x1100000005 State.reset)).err ≠ State.reset.err := by decide

theorem witness_NoWordWritesBothErrAndUpState : isNext (accept 0x2000000000 (t3Run 3)) = true ∧
    (outcomeState (accept 0x2000000000 (t3Run 3))).err ≠ (t3Run 3).err ∧
    isNext (accept 0x2400000000 (t3Run 3)) = true ∧
    (outcomeState (accept 0x2400000000 (t3Run 3))).upState ≠ (t3Run 3).upState := by decide

theorem witness_FatalBlockIgnoresEveryWord : let s := { t3 with err := 0x40, port := [.word 0xFF00000000, .reset] }
    s.err.getLsbD 6 = true ∧ isNext (step s) = true ∧
      isNext (step { s with port := [.reset] }) = true := by decide

/-- A step that inserts a code. -/
theorem witness_StepKeepsTheInvariants : let s := { tightTree with port := [.word 0x2100000062] }
    BlockInv s ∧ isNext (step s) = true :=
  ⟨blockInv_of_small (q := []) (by decide +kernel), by decide⟩

theorem witness_StepIsSafeUnderTheInvariants : BlockInv { t3Run 3 with port := [.word 0x2300000058] } :=
  blockInv_of_small (q := []) (by decide +kernel)

/-- The last CBIT that fits, and the first that does not. -/
theorem witness_StagingRegisterStaysInForm :
    let s := { staged 2 3 (mini 3 4) with port := [.word 0x0200000001] }
    let t := { staged 3 7 (mini 3 4) with port := [.word 0x0200000001] }
    s.cfg.wf ∧ FrontInv s ∧ isNext (step s) = true ∧ FrontInv t ∧ isNext (step t) = true ∧
      (outcomeState (step t)).stgovf = true :=
  ⟨by decide, frontInv_of_small (by decide), by decide, frontInv_of_small (by decide), by decide, by decide⟩

/-- A PKDEF of a code of MAXLEN bits. -/
theorem witness_PackUnitStaysInForm : let s := { staged 3 7 (mini 3 4) with port := [.word 0x1100000001] }
    s.cfg.wf ∧ FrontInv s ∧ PackInv s ∧ isNext (step s) = true ∧ (codeRead (outcomeState (step s)) 1).valid = true :=
  ⟨by decide, frontInv_of_small (by decide), packInv_of_small (by decide +kernel), by decide, by decide⟩

/-- A step that completes a run, one that leaves it running, one in IDLE. -/
theorem witness_CountersStayInRange : let s := { t3Run 3 with port := [.word 0x2300000058] }
    let u := { t3Run 6 with port := [.word 0x230000005A] }
    BlockInv s ∧ isNext (step s) = true ∧ (outcomeState (step s)).upState = .complete ∧ BlockInv u ∧
      isNext (step u) = true ∧ (outcomeState (step u)).upState = .run ∧ isNext (step t3) = true ∧
      (outcomeState (step t3)).upState = .idle :=
  ⟨blockInv_of_small (q := []) (by decide +kernel), by decide, by decide,
    blockInv_of_small (q := []) (by decide +kernel), by decide, by decide, by decide, by decide⟩

theorem witness_StepKeepsTheArenaCanonical : let s := { tightTree with port := [.word 0x2100000062] }
    s.node.wf = true ∧ isNext (step s) = true := by decide

/-- A run that inserts a code and then is refused the same code. -/
theorem witness_TreeStandsForTheInsertedCodes :
    let ws : List CmdWord := [0x0200000001, 0x2100000062, 0x0200000001, 0x2100000063]
    TreeInv t3 ∧ BlockInv (mini 3 4) ∧ (mini 3 4).nextFree = 1 ∧ (∀ w ∈ ws, decode w ≠ .cmd .upclr) ∧
      isNext (runWords ws (mini 3 4)) = true :=
  ⟨t3_inv.tree, mini_inv, by decide, by
    repeat (first | exact List.forall_mem_nil _ | refine List.forall_mem_cons.mpr ⟨by decide, ?_⟩), by decide⟩

/-- Two blocks that differ in an invalid entry, in the sym of an inner node and in a node that is not allocated. -/
theorem witness_UnspecifiedContentsAreNeverObserved :
    let t := { codeWrite 0x61 { valid := false, len := 9, bits := 5 } t3 with
      node := [(0, { innerOf 1 2 with sym := 0x7A }), (1, leafOf 0x61), (2, innerOf 3 4), (3, leafOf 0x62),
        (4, leafOf 0x63), (7, leafOf 0x64)] }
    BlockInv t3 ∧ BlockInv t ∧ SameButUnspecified t3 t ∧ t ≠ t3 := by
  refine ⟨t3_inv, blockInv_of_small (q := []) (by decide +kernel), ⟨rfl, ?_, ?_, by decide, by decide, by decide⟩, ?_⟩
  · intro y
    show (codeRead t3 y).valid = (codeRead (codeWrite 0x61 _ t3) y).valid
    rw [codeRead_codeWrite]
    split
    · rename_i e
      subst e
      decide
    · rfl
  · intro y hy
    have : codeRead t3 y = CodeEntry.blank := codeRead_resetWith Config.standard [] y
    rw [this] at hy
    cases hy
  · intro e
    have := congrArg (fun s : State => s.node) e
    revert this
    decide

/-- A code of one bit, and one of MAXLEN bits. -/
theorem witness_DefcodeLineDefinesTheCode : (mini 3 4).cfg.wf ∧ (mini 3 4).err.getLsbD 6 = false ∧ 255 ≤ 255 ∧
    1 ≤ ['1'].length ∧ ['1', '0', '1'].length ≤ (mini 3 4).cfg.maxLen ∧
    (∀ x ∈ ['1', '0', '1'], x = '0' ∨ x = '1') :=
  ⟨by decide, by decide, Nat.le_refl _, by decide, by decide, by simp⟩

end Sys2Proof.Tests
end

namespace Sys2Proof.Machine

/-! # The pair (L, V) of a Code (R8) -/

/-- The value of a code is the sum of its bits' weights, the first bit's weight being the greatest. -/
theorem codeValue_eq_sum (c : Bits) :
    codeValue c = ∑ k ∈ Finset.range c.length, (c.getD k false).toNat * 2 ^ (c.length - 1 - k) := by
  induction c with
  | nil => rfl
  | cons b c ih =>
    rw [codeValue_cons, ih, List.length_cons, Finset.sum_range_succ', Nat.add_comm]
    congr 1
    refine Finset.sum_congr rfl fun k hk => ?_
    rw [List.getD_cons_succ, show c.length + 1 - 1 - (k + 1) = c.length - 1 - k by omega]

/-- Settles O19: the clauses are the laws of `codeBits` and `codeValue`, one each. -/
theorem codeRegisterHoldsFirstBitHighest : Obligations.CodeRegisterHoldsFirstBitHighest :=
  ⟨fun l v => ⟨length_codeBits l v, getElem?_codeBits l v⟩,
    fun c hc => ⟨codeValue_eq_sum c, codeBits_codeValue hc⟩⟩

end Sys2Proof.Machine

/-! # Running commands: the word of a command, and accepting it -/

namespace Sys2Proof.Machine

/-! ## The word of a command decodes to it (R91 to R98) -/

/-- A byte in the argument of format S (R94): no reserved bit is set, and the operand is the byte. -/
theorem formatS_setWidth (y : BitVec 8) (mk : BitVec 8 → Instr) : formatS (y.setWidth 32) mk = .cmd (mk y) := by
  have hy : (y.setWidth 32).toNat = y.toNat := by
    rw [BitVec.toNat_setWidth]
    omega
  have hreserved : (y.setWidth 32).extractLsb' 8 24 = 0 := by
    rw [argHigh_eq_zero_iff, hy]
    exact y.isLt
  have hoperand : (y.setWidth 32).extractLsb' 0 8 = y := by
    apply BitVec.eq_of_toNat_eq
    rw [toNat_argByte, hy]
    omega
  rw [formatS, if_pos hreserved, hoperand]

theorem decode_encode (i : Instr) : decode (encode i) = .cmd i := by
  cases i with
  | nop | cclr | pkclr | pkflush | upclr | upend => rfl
  | cbit b => cases b <;> rfl
  | upstart n =>
    rw [encode, decode, opField_cmdWord, argField_cmdWord]
    rfl
  | pkdef y | pksym y | upins y | upbyte y =>
    rw [encode, decode, opField_cmdWord, argField_cmdWord]
    exact formatS_setWidth y _

/-! ## Accepting a command (R92) -/

theorem accept_of_decode {w : CmdWord} {i : Instr} {s : State} (hs : s.err.getLsbD 6 = false)
    (hw : decode w = .cmd i) : accept w s = exec i s := by
  rcases accept_cases w s with ⟨hf, -⟩ | ⟨-, ⟨⟨why, hd⟩, -⟩ | ⟨j, hd, e⟩⟩
  · rw [hs] at hf
    cases hf
  · rw [hw] at hd
    cases hd
  · rw [hw] at hd
    cases hd
    exact e

theorem runCmds_cons {s : State} (hs : s.err.getLsbD 6 = false) (i : Instr) (is : List Instr) :
    runCmds (i :: is) s = andThen (exec i s) (runCmds is) := by
  rw [runCmds, List.map_cons, runWords_cons, accept_of_decode hs (decode_encode i)]
  rfl

theorem step_of_word {s : State} {w : CmdWord} {rest : List PortEvent} (h : s.port = .word w :: rest) :
    step s = accept w { s with port := rest } := by
  rw [step, serve, h]

/-- Settles O8: the word at the head of the port is accepted, and a block that is not fatal executes its command. -/
theorem stepRunsTheWordAtThePort : Obligations.StepRunsTheWordAtThePort := by
  intro s w rest i hport herr hw
  rw [step_of_word hport]
  exact accept_of_decode herr hw

end Sys2Proof.Machine

namespace Sys2Proof.Machine

/-! # The port plays no part in a command -/

/-- What follows a branching command is done in each of its branches. -/
theorem andThen_ite (P : Prop) [Decidable P] (o o' : Host.Outcome State Fault Refusal)
    (f : State → Host.Outcome State Fault Refusal) :
    andThen (if P then o else o') f = if P then andThen o f else andThen o' f :=
  apply_ite (andThen · f) P o o'

/-- s with other events at its port. -/
def withPort (p : List PortEvent) (s : State) : State := { s with port := p }

section WithPort

variable (p : List PortEvent) (s : State)

@[simp] theorem withPort_pos : (withPort p s).pos = s.pos := rfl
@[simp] theorem nodeRead_withPort (h : Handle) : nodeRead (withPort p s) h = nodeRead s h := rfl
@[simp] theorem clearStaging_withPort : clearStaging (withPort p s) = withPort p (clearStaging s) := rfl

/-! ## The parts of the commands -/

theorem stageBit_withPort (b : Bool) : stageBit b (withPort p s) = withPort p (stageBit b s) := by
  simp only [stageBit, apply_ite (withPort p)]
  rfl

theorem packBit_withPort (b : Bool) : packBit b (withPort p s) = withPort p (packBit b s) := by
  simp only [packBit, apply_ite (withPort p)]
  rfl

theorem packBits_withPort (bs : Bits) : packBits bs (withPort p s) = withPort p (packBits bs s) := by
  induction bs generalizing s with
  | nil => rfl
  | cons b bs ih => rw [packBits, packBits, packBit_withPort, ih]

theorem growPath_withPort (y : Symbol) (h : Handle) (bs : Bits) :
    growPath y h bs (withPort p s) = withPort p (growPath y h bs s) := by
  induction bs generalizing h s with
  | nil => rfl
  | cons b bs ih => exact ih (growOne h b s) _

theorem insertCode_withPort (y : Symbol) (c : Bits) :
    insertCode y c (withPort p s) = andThen (insertCode y c s) fun t => .next (withPort p t) := by
  rw [insertCode, insertCode, descend_congr (s := s) (t := withPort p s) rfl rfl]
  cases descend s root c with
  | outside h => rfl
  | conflict => rfl
  | absent q rest =>
    dsimp only
    rw [growPath_withPort, andThen_ite]
    rfl

theorem emitLeaf_withPort (y : Symbol) : emitLeaf y (withPort p s) = withPort p (emitLeaf y s) := by
  simp only [emitLeaf, apply_ite (withPort p)]
  rfl

theorem walkBit_withPort (x : Bool) :
    walkBit x (withPort p s) = andThen (walkBit x s) fun t => .next (withPort p t) := by
  simp only [walkBit, nodeRead_withPort, withPort_pos]
  cases nodeRead s s.pos with
  | none => rfl
  | some nd =>
    dsimp only
    cases nodeRead s (nd.child x) with
    | none =>
      simp only [andThen_ite]
      rfl
    | some ch =>
      simp only [andThen_ite, andThen_next, ← emitLeaf_withPort]
      rfl

theorem walkBits_withPort (xs : Bits) :
    walkBits xs (withPort p s) = andThen (walkBits xs s) fun t => .next (withPort p t) := by
  induction xs generalizing s with
  | nil => rfl
  | cons x xs ih =>
    rw [walkBits, walkBits, walkBit_withPort, andThen_ite, andThen_assoc, andThen_assoc]
    simp only [andThen_next, ih]
    rfl

/-! ## Commands and words -/

/-- A command does the same whatever stands at the port, and leaves that as it is. -/
theorem exec_withPort (i : Instr) :
    exec i (withPort p s) = andThen (exec i s) fun t => .next (withPort p t) := by
  cases i with
  | nop | cclr | pkclr | upstart n => rfl
  | cbit b => exact congrArg Host.Outcome.next (stageBit_withPort p s b)
  | upbyte b => exact walkBits_withPort p s (byteBits b)
  | pkflush =>
    rw [exec, exec, execPkflush, execPkflush, andThen_ite]
    rfl
  | upclr =>
    rw [exec, exec, execUpclr, execUpclr, andThen_ite]
    rfl
  | upend =>
    rw [exec, exec, execUpend, execUpend, andThen_next, apply_ite (withPort p)]
    rfl
  | pksym y =>
    rw [exec, exec, execPksym, execPksym, packBits_withPort, andThen_ite]
    rfl
  | pkdef y =>
    rw [exec, exec, execPkdef, execPkdef, andThen_ite, andThen_ite]
    rfl
  | upins y =>
    rw [exec, exec, execUpins, execUpins, clearStaging_withPort, insertCode_withPort, andThen_ite, andThen_ite,
      andThen_ite]
    rfl

theorem accept_withPort (w : CmdWord) :
    accept w (withPort p s) = andThen (accept w s) fun t => .next (withPort p t) := by
  unfold accept
  rw [andThen_ite]
  cases decode w with
  | illegal why => rfl
  | cmd i =>
    dsimp only
    rw [exec_withPort]
    rfl

end WithPort

/-- A step that finds a word at the head of the port accepts it and leaves the rest at the port. -/
theorem step_withPort_word (w : CmdWord) (rest : List PortEvent) (s : State) :
    step (withPort (.word w :: rest) s) = andThen (accept w s) fun t => .next (withPort rest t) :=
  accept_withPort rest s w

theorem runSteps_withPort_words (ws : List CmdWord) (rest : List PortEvent) (s : State) :
    runSteps ws.length (withPort (ws.map .word ++ rest) s) =
      andThen (runWords ws s) fun t => .next (withPort rest t) := by
  induction ws generalizing s with
  | nil => rfl
  | cons w ws ih =>
    rw [List.length_cons, List.map_cons, List.cons_append, runSteps, step_withPort_word, runWords_cons, andThen_assoc,
      andThen_assoc]
    simp only [andThen_next, ih]

theorem runWords_withPort (ws : List CmdWord) (rest : List PortEvent) (s : State) :
    runWords ws (withPort rest s) = andThen (runWords ws s) fun t => .next (withPort rest t) := by
  induction ws generalizing s with
  | nil => rfl
  | cons w ws ih =>
    rw [runWords_cons, runWords_cons, accept_withPort, andThen_assoc, andThen_assoc]
    simp only [andThen_next, ih]

/-- Settles O13: the steps over the port and the run of its words are both the run from s, with `rest` left at the
port. -/
theorem stepsOverThePortAreTheRunOfItsWords : Obligations.StepsOverThePortAreTheRunOfItsWords := by
  intro ws rest s
  calc runSteps ws.length (withPort (ws.map .word ++ rest) s)
      _ = andThen (runWords ws s) fun t => .next (withPort rest t) := runSteps_withPort_words ws rest s
      _ = runWords ws (withPort rest s) := (runWords_withPort ws rest s).symm

end Sys2Proof.Machine

namespace Sys2Proof.Machine

/-! # Loading a code -/

/-! ## Staging a code: CCLR and one CBIT for each bit (R97, R105) -/

theorem stagedBits_stageBit {s : State} {b : Bool} (hc : s.cfg.wf) (hf : FrontInv s)
    (hl : s.stglen.toNat < s.cfg.maxLen) : stagedBits (stageBit b s) = stagedBits s ++ [b] := by
  obtain ⟨hstg, hlen, -⟩ := stageBit_room (b := b) hc hf hl
  have hf' : FrontInv (stageBit b s) := stageBit_front hc hf
  apply codeBits_eq_of_value
  · simp [hlen]
  · rw [Nat.mod_eq_of_lt hf'.stg_lt, hstg, codeValue_snoc, codeValue_stagedBits hf]

/-- The CBITs of a code that has room append it to the staged code and write nothing but the staging register. -/
theorem runCmds_cbits {s : State} {c : Bits} (hc : s.cfg.wf) (hf : FrontInv s) (hs : s.err.getLsbD 6 = false)
    (hl : s.stglen.toNat + c.length ≤ s.cfg.maxLen) :
    ∃ t, runCmds (c.map .cbit) s = .next t ∧ FrontInv t ∧ stagedBits t = stagedBits s ++ c ∧
      t = { s with stg := t.stg, stglen := t.stglen } := by
  induction c generalizing s with
  | nil => exact ⟨s, rfl, hf, by simp, rfl⟩
  | cons b c ih =>
    rw [List.length_cons] at hl
    obtain ⟨-, hlen, hovf⟩ := stageBit_room (b := b) hc hf (by omega)
    have hframe : stageBit b s =
        { s with stg := (stageBit b s).stg, stglen := (stageBit b s).stglen } := by
      rw [stageBit_frame, hovf]
    have hcfg : (stageBit b s).cfg = s.cfg := by rw [hframe]
    have herr : (stageBit b s).err = s.err := by rw [hframe]
    obtain ⟨t, hrun, hft, hbits, ht⟩ := ih (s := stageBit b s) (hcfg ▸ hc) (stageBit_front hc hf) (herr ▸ hs)
      (by rw [hlen, hcfg]; omega)
    refine ⟨t, ?_, hft, ?_, ?_⟩
    · rw [List.map_cons, runCmds_cons hs]
      exact hrun
    · rw [hbits, stagedBits_stageBit hc hf (by omega), List.append_assoc]
      rfl
    · rw [ht, hframe]

/-- The staging commands of a code leave exactly that code staged, whatever was staged before. -/
theorem runCmds_stageCode {s : State} {c : Bits} (hc : s.cfg.wf) (hs : s.err.getLsbD 6 = false)
    (hl : c.length ≤ s.cfg.maxLen) :
    ∃ t, runCmds (stageCode c) s = .next t ∧ FrontInv t ∧ stagedBits t = c ∧
      t = { s with stg := t.stg, stglen := t.stglen, stgovf := false } := by
  obtain ⟨t, hrun, hft, hbits, ht⟩ := runCmds_cbits (s := clearStaging s) (c := c) hc (.of_cleared rfl rfl rfl) hs
    (by simpa using hl)
  refine ⟨t, ?_, hft, hbits, ht⟩
  rw [stageCode, runCmds_cons hs]
  exact hrun

/-! ## Inserting the staged code (R162, R163) -/

/-- UPINS where its descent ends at a free place and the arena has room: the tree gains the staged code, and one node
for each bit past the path that exists. -/
theorem execUpins_insertion {s : State} {p : Handle} {d : Bits} {b : Bool} {bs : Bits} (hi : BlockInv s)
    (hr : s.upState ≠ .run) (hovf : s.stgovf = false) (hl : s.stglen ≠ 0)
    (hd : descend s root (stagedBits s) = .absent p (b :: bs)) (hins : Insertion s (stagedBits s) p d b bs)
    (y : Symbol) :
    ∃ t, exec (.upins y) s = .next t ∧
      (∀ c' y', HasCode t c' y' ↔ HasCode s c' y' ∨ c' = stagedBits s ∧ y' = y) ∧
      t.nextFree.toNat = s.nextFree.toNat + (b :: bs).length ∧
      t = { s with stg := 0, stglen := 0, stgovf := false, node := t.node, nextFree := t.nextFree } := by
  obtain ⟨ht, hins'⟩ := hi.tree.insertion hins.split hins.path hins.inner hins.absent hins.room
  obtain ⟨-, -, -, hN⟩ := hi.cfg
  refine ⟨growPath y p (b :: bs) (clearStaging s), ?_, fun c' y' => ?_, ?_, growPath_frame _ _ _ _⟩
  · show execUpins y s = _
    rw [execUpins, if_neg hr, if_neg (by simp [hovf]), if_neg hl, insertCode, descend_clearStaging, hd]
    exact if_neg (Nat.not_lt.2 hins.room)
  · rw [hins'.hasCode ht hN, hasCode_congr (s := s) (t := clearStaging s) rfl]
  · exact growPath_nextFree y p (b :: bs) (hins'.canGrow ht hN).room

/-- A code that conflicts with none of the tree has a place there, if the arena has room for all its bits. -/
theorem TreeInv.exists_insertion {s : State} (ht : TreeInv s) {c : Bits} (hc : c ≠ []) (hconf : ¬ Conflicts s c)
    (hroom : s.nextFree.toNat + c.length ≤ s.cfg.nNodes) :
    ∃ p d b bs, descend s root c = .absent p (b :: bs) ∧ Insertion s c p d b bs := by
  rcases ht.descend_root c hc with ⟨-, hcf⟩ | ⟨p, d, b, bs, hd, hsplit, hpath, hinner, habs, -⟩
  · exact absurd hcf hconf
  · have hle : (b :: bs).length ≤ c.length := by
      rw [hsplit, List.length_append]
      exact Nat.le_add_left _ _
    exact ⟨p, d, b, bs, hd, hsplit, hpath, hinner, habs, by omega⟩

/-! ## Loading pairs with INSCODE lines (R105) -/

/-- A block that takes INSCODE lines: its invariants hold, ERR is 0, and no decode run is on. -/
structure ReadyToLoad (s : State) : Prop where
  inv : BlockInv s
  err : s.err = 0
  not_run : s.upState ≠ .run

/-- An INSCODE line whose code conflicts with none of the tree and finds room in the arena inserts its pair. -/
theorem runCmds_insCode {s : State} {c : Bits} (hs : ReadyToLoad s) (h1 : 1 ≤ c.length)
    (hl : c.length ≤ s.cfg.maxLen) (hconf : ¬ Conflicts s c) (hroom : s.nextFree.toNat + c.length ≤ s.cfg.nNodes)
    (y : Symbol) :
    ∃ t, runCmds (insCode y c) s = .next t ∧ ReadyToLoad t ∧ t.cfg = s.cfg ∧
      t.nextFree.toNat ≤ s.nextFree.toNat + c.length ∧
      ∀ c' y', HasCode t c' y' ↔ HasCode s c' y' ∨ c' = c ∧ y' = y := by
  obtain ⟨hi, herr, hrun⟩ := hs
  have hnf : s.err.getLsbD 6 = false := by rw [herr]; rfl
  obtain ⟨u, hstage, hfront, rfl, hu⟩ := runCmds_stageCode hi.cfg hnf hl
  have huerr : u.err = s.err := by rw [hu]
  have hucfg : u.cfg = s.cfg := by rw [hu]
  have hunext : u.nextFree = s.nextFree := by rw [hu]
  have huK : HasCode u = HasCode s := hasCode_congr (by rw [hu])
  have hui : BlockInv u := hi.of_front hfront (by rw [hu]) (huerr ▸ hi.err7)
  have hulen : u.stglen ≠ 0 := by
    intro e
    simp [e] at h1
  rw [← hunext, ← hucfg] at hroom
  obtain ⟨p, d, b, bs, hd, hins⟩ := hui.tree.exists_insertion (stagedBits_ne_nil hulen)
    (by rwa [Conflicts, huK]) hroom
  obtain ⟨t, hexec, hK, htnext, ht⟩ := execUpins_insertion hui (by rw [hu]; exact hrun) (by rw [hu]) hulen hd hins y
  refine ⟨t, ?_, ⟨hui.upins hexec, ?_, ?_⟩, ?_, ?_, huK ▸ hK⟩
  · rw [insCode, runCmds_append, hstage, andThen_next, runCmds_cons (huerr ▸ hnf), hexec]
    rfl
  · rw [ht]; exact huerr.trans herr
  · rw [ht, hu]; exact hrun
  · rw [ht]; exact hucfg
  · rw [htnext, hunext, hins.split, List.length_append]
    omega

/-- INSCODE lines of codes that conflict neither with the tree nor with each other insert all their pairs, if the arena
has room for MAXLEN nodes a pair. -/
theorem runCmds_insCodes {s : State} {pairs : List (Symbol × Bits)} (hs : ReadyToLoad s)
    (hlen : ∀ x ∈ pairs, 1 ≤ x.2.length ∧ x.2.length ≤ s.cfg.maxLen)
    (hpf : pairs.Pairwise fun x z => ¬ x.2 <+: z.2 ∧ ¬ z.2 <+: x.2) (hnew : ∀ x ∈ pairs, ¬ Conflicts s x.2)
    (hroom : s.nextFree.toNat + pairs.length * s.cfg.maxLen ≤ s.cfg.nNodes) :
    ∃ t, runCmds (pairs.flatMap fun x => insCode x.1 x.2) s = .next t ∧ t.err = 0 ∧
      ∀ c y, HasCode t c y ↔ HasCode s c y ∨ (y, c) ∈ pairs := by
  induction pairs generalizing s with
  | nil => exact ⟨s, rfl, hs.err, by simp⟩
  | cons x pairs ih =>
    obtain ⟨hx, hpf⟩ := List.pairwise_cons.1 hpf
    obtain ⟨h1, hl⟩ := hlen x List.mem_cons_self
    rw [List.length_cons, Nat.add_one_mul] at hroom
    obtain ⟨u, hrun, hu, hcfg, hnf, hK⟩ := runCmds_insCode hs h1 hl (hnew x List.mem_cons_self) (by omega) x.1
    have hnew' : ∀ z ∈ pairs, ¬ Conflicts u z.2 := by
      rintro z hz ⟨c', y', hc', hpre⟩
      rcases (hK c' y').1 hc' with hold | ⟨rfl, -⟩
      · exact hnew z (List.mem_cons_of_mem _ hz) ⟨c', y', hold, hpre⟩
      · exact hpre.elim (hx z hz).1 (hx z hz).2
    obtain ⟨t, hrun', herr, hK'⟩ := ih hu (fun z hz => hcfg ▸ hlen z (List.mem_cons_of_mem _ hz)) hpf hnew'
      (by rw [hcfg]; omega)
    refine ⟨t, ?_, herr, fun c y => ?_⟩
    · rw [List.flatMap_cons, runCmds_append, hrun]
      exact hrun'
    · rw [hK', hK, List.mem_cons, Prod.ext_iff, or_assoc, and_comm (a := c = x.2)]

/-! ## The bound of R5 -/

/-- A tree of one node, the root, has no code. -/
theorem TreeInv.no_code_of_root_only {s : State} (ht : TreeInv s) (hn : s.nextFree = 1) (c : Bits) (y : Symbol) :
    ¬ HasCode s c y := by
  rintro ⟨h, hpath, hleaf, -⟩
  have hlt := ht.shape.follow_root_lt hpath
  obtain rfl : h = 0 := by
    rw [hn] at hlt
    exact Nat.lt_one_iff.1 hlt
  rw [ht.root_inner] at hleaf
  cases hleaf

/-- There are 256 Symbols (R5). -/
theorem length_le_of_nodup_symbols {ys : List Symbol} (h : ys.Nodup) : ys.length ≤ 256 := by
  have hcard := (h.map (f := BitVec.toFin) fun _ _ => BitVec.toFin_inj.1).length_le_card
  rwa [List.length_map, Fintype.card_fin] at hcard

/-- Settles O37, by induction on the pairs: 256 Symbols with codes of at most 255 bits take at most 65280 nodes beside
the root. -/
theorem defaultArenaHoldsAnyPrefixFreeCode : Obligations.DefaultArenaHoldsAnyPrefixFreeCode := by
  intro s pairs hi herr hrun hnf hN hnodup hlen hpf
  have hempty := hi.tree.no_code_of_root_only hnf
  have hpw : pairs.Pairwise fun x z => ¬ x.2 <+: z.2 ∧ ¬ z.2 <+: x.2 :=
    (List.Nodup.of_map _ hnodup).imp_of_mem fun hx hz hne => ⟨hpf _ hx _ hz hne, hpf _ hz _ hx hne.symm⟩
  have hroom : s.nextFree.toNat + pairs.length * s.cfg.maxLen ≤ s.cfg.nNodes := by
    have hcount := length_le_of_nodup_symbols hnodup
    rw [List.length_map] at hcount
    obtain ⟨-, hM, -⟩ := hi.cfg
    have hmul := Nat.mul_le_mul hcount hM
    rw [hnf, hN]
    show 1 + _ ≤ 65536
    omega
  obtain ⟨t, ht, hterr, hK⟩ := runCmds_insCodes ⟨hi, herr, hrun⟩ hlen hpw
    (fun _ _ ⟨c, y, hc, _⟩ => hempty c y hc) hroom
  exact ⟨t, ht, hterr, fun c y => by simp [hK, hempty]⟩

end Sys2Proof.Machine

namespace Sys2Proof.Machine

/-! # What every step keeps

A step takes nothing, a reset event or a word, and a word is ignored, illegal or a command. So a property of the state is
an invariant when it does not look at the port, holds after a reset, and survives E_ILLCMD and every command. -/

/-- P is kept by each of the things a step can do. -/
structure StepInvariant (P : State → Prop) : Prop where
  withPort : ∀ {s} rest, P s → P (withPort rest s)
  resetWith : ∀ {s} rest, P s → P (State.resetWith s.cfg rest)
  illcmd : ∀ {s}, P s → P (raise .illcmd s)
  exec : ∀ {s t i}, P s → exec i s = .next t → P t

theorem StepInvariant.accept {P : State → Prop} (hP : StepInvariant P) {s t : State} {w : CmdWord} (hs : P s)
    (h : accept w s = .next t) : P t := by
  rcases accept_cases w s with ⟨-, e⟩ | ⟨-, ⟨-, e⟩ | ⟨i, -, e⟩⟩ <;> rw [e] at h
  · cases h; exact hs
  · cases h; exact hP.illcmd hs
  · exact hP.exec hs h

theorem StepInvariant.step {P : State → Prop} (hP : StepInvariant P) {s t : State} (hs : P s)
    (h : step s = .next t) : P t := by
  rcases step_cases s with ⟨-, e⟩ | ⟨rest, -, e⟩ | ⟨w, rest, -, e⟩ <;> rw [e] at h
  · cases h; exact hs
  · cases h; exact hP.resetWith rest hs
  · exact hP.accept (hP.withPort rest hs) h

/-! ## The parameters and the port (R47) -/

/-- Settles O41: an ignored or an illegal word writes ERR at most, and no command writes the parameters or the port. -/
theorem commandsKeepParametersAndPort : Obligations.CommandsKeepParametersAndPort := by
  intro w s t h
  rcases accept_cases w s with ⟨-, e⟩ | ⟨-, ⟨-, e⟩ | ⟨i, -, e⟩⟩ <;> rw [e] at h
  · cases h; exact ⟨rfl, rfl⟩
  · cases h; exact ⟨rfl, rfl⟩
  · exact exec_cfg_port h

/-! ## The staging register (R43) -/

theorem exec_front {i : Instr} {s t : State} (hc : s.cfg.wf) (hf : FrontInv s) (h : exec i s = .next t) :
    FrontInv t := by
  cases i with
  | nop => exact execNop_cases h ▸ hf
  | cclr => exact execCclr_cases h ▸ .of_cleared rfl rfl rfl
  | cbit b => exact execCbit_cases h ▸ stageBit_front hc hf
  | pkdef y => exact execPkdef_frame h ▸ .of_cleared rfl rfl rfl
  | upins y => exact execUpins_frame h ▸ .of_cleared rfl rfl rfl
  | pkclr => exact execPkclr_cases h ▸ hf.congr rfl rfl rfl rfl
  | pksym y => exact execPksym_frame h ▸ hf.congr rfl rfl rfl rfl
  | pkflush => exact execPkflush_frame h ▸ hf.congr rfl rfl rfl rfl
  | upclr => exact execUpclr_frame h ▸ hf.congr rfl rfl rfl rfl
  | upstart n => cases h; exact hf.congr rfl rfl rfl rfl
  | upbyte b => exact walkBits_frame h ▸ hf.congr rfl rfl rfl rfl
  | upend => exact execUpend_frame h ▸ hf.congr rfl rfl rfl rfl

theorem frontInv_stepInvariant : StepInvariant fun s => s.cfg.wf ∧ FrontInv s where
  withPort _ := fun ⟨hc, hf⟩ => ⟨hc, hf.congr rfl rfl rfl rfl⟩
  resetWith _ := fun ⟨hc, _⟩ => ⟨hc, .of_cleared rfl rfl rfl⟩
  illcmd := fun ⟨hc, hf⟩ => ⟨hc, hf.congr rfl rfl rfl rfl⟩
  exec := fun ⟨hc, hf⟩ h => ⟨(exec_cfg_port h).1 ▸ hc, exec_front hc hf h⟩

/-- Settles O52: the form of the staging register is a step invariant of a block with legal parameters. -/
theorem stagingRegisterStaysInForm : Obligations.StagingRegisterStaysInForm := by
  intro s t hc hf h
  obtain ⟨-, hlen, hstg, hovf⟩ := frontInv_stepInvariant.step ⟨hc, hf⟩ h
  exact ⟨hlen, hstg, hovf⟩

/-- Settles O17: CBIT with room appends its bit, and STGOVF stays as it was. -/
theorem cbitExtendsTheStagedCode : Obligations.CbitExtendsTheStagedCode := by
  intro s b hc hf hl
  obtain ⟨-, -, hovf⟩ := stageBit_room (b := b) hc hf hl
  refine ⟨stageBit b s, rfl, stagedBits_stageBit hc hf hl, ?_⟩
  rw [stageBit_frame, hovf]

/-! ## The PACK unit (R44) -/

/-- An accumulator of 0 is in form whatever NBITS is. -/
theorem acc_lt_of_zero {s : State} (h : s.acc = 0) : s.acc.toNat < 2 ^ s.nbits.toNat := by
  rw [h]
  exact Nat.two_pow_pos _

/-- With no valid entry there is nothing to ask of the code table. -/
theorem PackInv.of_none_valid {s : State} (hacc : s.acc.toNat < 2 ^ s.nbits.toNat)
    (hcode : ∀ y, (codeRead s y).valid = false) : PackInv s := by
  refine ⟨hacc, ?_, ?_, ?_⟩ <;> exact fun y hv => absurd hv (by simp [hcode y])

theorem PackInv.resetWith (c : Config) (p : List PortEvent) : PackInv (State.resetWith c p) :=
  .of_none_valid (acc_lt_of_zero rfl) fun y => by rw [codeRead_resetWith]; rfl

/-- The entry that PKDEF writes holds the staged code, whose form R43 gives. -/
theorem PackInv.pkdef {s : State} (hp : PackInv s) (hf : FrontInv s) (hl : s.stglen ≠ 0) (y : Symbol) :
    PackInv (codeWrite y { valid := true, len := s.stglen, bits := s.stg } (clearStaging s)) := by
  refine ⟨hp.acc_lt, ?_, ?_, ?_⟩ <;> intro z <;> rw [codeRead_codeWrite, codeRead_clearStaging] <;> split
  · exact fun _ => stglen_pos hl
  · exact hp.len_pos z
  · exact fun _ => hf.stglen_le
  · exact hp.len_le z
  · exact fun _ => hf.stg_lt
  · exact hp.bits_lt z

theorem exec_pack {i : Instr} {s t : State} (hf : FrontInv s) (hp : PackInv s) (h : exec i s = .next t) :
    PackInv t := by
  cases i with
  | nop => exact execNop_cases h ▸ hp
  | cclr => exact execCclr_cases h ▸ hp.congr hp.acc_lt rfl rfl
  | cbit b => rw [execCbit_cases h, stageBit_frame]; exact hp.congr hp.acc_lt rfl rfl
  | pkclr => exact execPkclr_cases h ▸ .of_none_valid (acc_lt_of_zero rfl) fun z => by rw [codeRead_codeInvalidateAll]
  | pkdef y =>
    rcases execPkdef_cases h with ⟨-, rfl⟩ | ⟨-, -, rfl⟩ | ⟨-, hl, rfl⟩
    · exact hp.congr hp.acc_lt rfl rfl
    · exact hp.congr hp.acc_lt rfl rfl
    · exact hp.pkdef hf hl y
  | pksym y =>
    rcases execPksym_cases h with ⟨-, rfl⟩ | ⟨-, rfl⟩
    · exact hp.congr hp.acc_lt rfl rfl
    · exact hp.congr (packBits_acc _ hp.acc_lt) (by rw [packBits_frame]) (by rw [packBits_frame])
  | pkflush =>
    rcases execPkflush_cases h with ⟨-, rfl⟩ | ⟨-, rfl⟩
    · exact hp
    · exact hp.congr (acc_lt_of_zero rfl) rfl rfl
  | upclr => exact execUpclr_frame h ▸ hp.congr hp.acc_lt rfl rfl
  | upins y => exact execUpins_frame h ▸ hp.congr hp.acc_lt rfl rfl
  | upstart n => cases h; exact hp.congr hp.acc_lt rfl rfl
  | upbyte b => exact walkBits_frame h ▸ hp.congr hp.acc_lt rfl rfl
  | upend => exact execUpend_frame h ▸ hp.congr hp.acc_lt rfl rfl

theorem packInv_stepInvariant : StepInvariant fun s => (s.cfg.wf ∧ FrontInv s) ∧ PackInv s where
  withPort p := fun ⟨hf, hp⟩ => ⟨frontInv_stepInvariant.withPort p hf, hp.congr hp.acc_lt rfl rfl⟩
  resetWith p := fun ⟨hf, _⟩ => ⟨frontInv_stepInvariant.resetWith p hf, .resetWith _ p⟩
  illcmd := fun ⟨hf, hp⟩ => ⟨frontInv_stepInvariant.illcmd hf, hp.congr hp.acc_lt rfl rfl⟩
  exec := fun ⟨hf, hp⟩ h => ⟨frontInv_stepInvariant.exec hf h, exec_pack hf.2 hp h⟩

/-- Settles O53: the form of the PACK unit, together with that of the staging register PKDEF takes its entries from, is
a step invariant. -/
theorem packUnitStaysInForm : Obligations.PackUnitStaysInForm := by
  intro s t hc hf hp h
  obtain ⟨-, hpt⟩ := packInv_stepInvariant.step ⟨⟨hc, hf⟩, hp⟩ h
  exact ⟨Nat.le_of_lt_succ t.nbits.isLt, hpt.acc_lt,
    fun y hv => ⟨hpt.len_pos y hv, hpt.len_le y hv, hpt.bits_lt y hv⟩⟩

/-! ## The whole block (R43 to R46) -/

/-- After a reset the tree is a bare root and every counter is 0. -/
theorem BlockInv.resetWith {c : Config} (hc : c.wf) (p : List PortEvent) : BlockInv (State.resetWith c p) where
  cfg := hc
  front := .of_cleared rfl rfl rfl
  pack := .resetWith c p
  tree := .of_bare rfl rfl hc.2.2.1 rfl (fun b => by cases b <;> rfl) rfl
  count :=
    ⟨fun _ => ⟨rfl, rfl, rfl⟩, Nat.le_refl _, nofun, ⟨nofun, fun h => absurd rfl h.1⟩, Nat.le_refl _, Nat.zero_le _⟩
  walk := nofun
  err7 := by
    show (0x00 : BitVec 8).getLsbD 7 = false
    decide

/-- Settles O49: the default parameters are legal. -/
theorem resetMeetsTheInvariants : Obligations.ResetMeetsTheInvariants := BlockInv.resetWith (by decide) []

theorem BlockInv.withPort {s : State} (hi : BlockInv s) (p : List PortEvent) : BlockInv (withPort p s) where
  cfg := hi.cfg
  front := hi.front.congr rfl rfl rfl rfl
  pack := hi.pack.congr hi.pack.acc_lt rfl rfl
  tree := hi.tree.congr' rfl rfl rfl rfl
  count := hi.count.congr rfl rfl rfl rfl rfl
  walk := hi.walk.congr rfl rfl rfl rfl rfl rfl
  err7 := hi.err7

/-- A command that goes through keeps the invariants. -/
theorem BlockInv.exec {i : Instr} {s t : State} (hi : BlockInv s) (h : exec i s = .next t) : BlockInv t := by
  cases i with
  | nop => exact execNop_cases h ▸ hi
  | cclr => exact execCclr_cases h ▸ hi.clearStaging
  | cbit b =>
    have hframe := stageBit_frame b s
    have herr : (stageBit b s).err = s.err := by rw [hframe]
    rw [execCbit_cases h]
    refine hi.of_front (stageBit_front hi.cfg hi.front) ?_ (herr ▸ hi.err7)
    rw [herr]
    exact hframe
  | pkclr => exact execPkclr_cases h ▸ hi.pkclr
  | pkdef y =>
    rcases execPkdef_cases h with ⟨-, rfl⟩ | ⟨-, -, rfl⟩ | ⟨-, hl, rfl⟩
    · exact hi.clearStaging.raise .long
    · exact hi.clearStaging.raise .empty
    · exact hi.codeWrite hl y
  | pksym y =>
    rcases execPksym_cases h with ⟨-, rfl⟩ | ⟨-, rfl⟩
    · exact hi.raise .nocode
    · exact hi.of_pack (packBits_frame _ s) (packBits_acc _ hi.pack.acc_lt)
  | pkflush =>
    rcases execPkflush_cases h with ⟨-, rfl⟩ | ⟨-, rfl⟩
    · exact hi
    · exact hi.of_pack rfl (acc_lt_of_zero rfl)
  | upclr =>
    rcases execUpclr_cases h with ⟨-, rfl⟩ | ⟨hr, rfl⟩
    · exact hi.raise .busy
    · exact hi.upclr hr
  | upins y => exact hi.upins h
  | upstart n => cases h; exact hi.upstart n
  | upbyte b =>
    obtain ⟨u, hu, hui⟩ := walkBits_inv hi (byteBits b)
    cases hu.symm.trans h
    exact hui
  | upend =>
    rcases execUpend_cases h with ⟨hr, rfl⟩ | ⟨-, rfl⟩
    · exact hi.upend hr
    · exact hi

theorem blockInv_stepInvariant : StepInvariant BlockInv where
  withPort p hi := hi.withPort p
  resetWith p hi := .resetWith hi.cfg p
  illcmd hi := hi.raise .illcmd
  exec hi h := hi.exec h

/-- Settles O50: the reset event and every command keep the invariants. -/
theorem stepKeepsTheInvariants : Obligations.StepKeepsTheInvariants :=
  fun _ _ hi h => blockInv_stepInvariant.step hi h

/-- Settles O54: the counters' ranges are a part of the invariants. -/
theorem countersStayInRange : Obligations.CountersStayInRange := by
  intro s t hi h
  obtain ⟨hidle, hle, hrun, hcomplete, hlow, hhigh⟩ := (stepKeepsTheInvariants s t hi h).count
  exact ⟨hidle, hle, hrun, hcomplete, hlow, hhigh⟩

/-! ## Progress (R45, R174) -/

/-- An effect that branches is safe when each branch is. -/
theorem safe_ite {P : Prop} [Decidable P] {o o' : Host.Outcome State Fault Refusal} (h : P → Safe o)
    (h' : ¬ P → Safe o') : Safe (if P then o else o') :=
  iteInduction h h'

theorem safe_next (s : State) : Safe (.next s) := ⟨s, rfl⟩

/-- The descent of UPINS stays in the arena, so the insertion answers a next state. -/
theorem TreeInv.safe_insertCode {s : State} (ht : TreeInv s) {c : Bits} (hc : c ≠ []) (y : Symbol) :
    Safe (insertCode y c s) := by
  unfold insertCode
  rcases ht.descend_root c hc with ⟨hd, -⟩ | ⟨p, d, b, bs, hd, -⟩ <;> rw [hd]
  · exact safe_next _
  · exact safe_ite (fun _ => safe_next _) fun _ => safe_next _

theorem TreeInv.safe_execUpins {s : State} (ht : TreeInv s) (y : Symbol) : Safe (execUpins y s) := by
  have ht' : TreeInv (clearStaging s) := ht.congr' rfl rfl rfl rfl
  exact safe_ite (fun _ => safe_next _) fun _ => safe_ite (fun _ => safe_next _) fun _ =>
    safe_ite (fun _ => safe_next _) fun hl => ht'.safe_insertCode (stagedBits_ne_nil hl) y

/-- Only UPINS and UPBYTE read the arena; the descent of the one and the walk of the other stay on the tree. -/
theorem BlockInv.safe_exec {s : State} (hi : BlockInv s) (i : Instr) : Safe (Machine.exec i s) := by
  cases i with
  | nop | cclr | cbit b | pkclr | upstart n | upend => exact safe_next _
  | pksym y | pkflush | upclr => exact safe_ite (fun _ => safe_next _) fun _ => safe_next _
  | pkdef y => exact safe_ite (fun _ => safe_next _) fun _ => safe_ite (fun _ => safe_next _) fun _ => safe_next _
  | upins y => exact hi.tree.safe_execUpins y
  | upbyte b =>
    obtain ⟨t, ht, -⟩ := walkBits_inv hi (byteBits b)
    exact ⟨t, ht⟩

theorem BlockInv.safe_accept {s : State} (hi : BlockInv s) (w : CmdWord) : Safe (Machine.accept w s) := by
  rcases accept_cases w s with ⟨-, e⟩ | ⟨-, ⟨-, e⟩ | ⟨i, -, e⟩⟩ <;> rw [e]
  · exact safe_next _
  · exact safe_next _
  · exact hi.safe_exec i

/-- Settles O51: taking nothing or the reset event always goes through, and so does a word, since no command reads
outside the arena. -/
theorem stepIsSafeUnderTheInvariants : Obligations.StepIsSafeUnderTheInvariants := by
  intro s hi
  rcases step_cases s with ⟨-, e⟩ | ⟨rest, -, e⟩ | ⟨w, rest, -, e⟩ <;> rw [e]
  · exact safe_next _
  · exact safe_next _
  · exact (hi.withPort rest).safe_accept w

/-! ## The observation (R10, R34 to R41) -/

/-- Settles O12: the observation and the status port are copies of the registers, and R36's table gives the value of
UP_STATE. -/
theorem statusPortShowsTheRegisters : Obligations.StatusPortShowsTheRegisters := by
  intro s
  have hS1 : s.status.upState = upStateCode s.upState := rfl
  refine ⟨rfl, rfl, rfl, rfl, ?_, ?_, ?_, ?_, ?_, rfl, rfl, rfl, rfl⟩ <;> intro h <;> rw [hS1, h] <;> rfl

end Sys2Proof.Machine

namespace Sys2Proof.Machine

/-! # The two units (R61, R73)

Without PKDEF, a PACK command reads PACK state only, which no other command writes. Besides PACK state it writes ERR,
but every command only sets bits of ERR, so the order does not show. -/

/-! ## A PACK command and the UNPACK state -/

section WithUnpackOf

variable (u s : State)

theorem packBits_withUnpackOf (bs : Bits) : packBits bs (withUnpackOf u s) = withUnpackOf u (packBits bs s) := by
  induction bs generalizing s with
  | nil => rfl
  | cons b bs ih =>
    have hbit : packBit b (withUnpackOf u s) = withUnpackOf u (packBit b s) := by
      simp only [packBit, apply_ite (withUnpackOf u)]
      rfl
    rw [packBits, packBits, hbit, ih]

/-- A PACK command does the same whatever the UNPACK state is, and leaves that as it is. -/
theorem exec_withUnpackOf {i : Instr} (hi : isPackCommand i = true) :
    exec i (withUnpackOf u s) = andThen (exec i s) fun t => .next (withUnpackOf u t) := by
  cases i with
  | pkclr => rfl
  | pkdef y =>
    rw [exec, exec, execPkdef, execPkdef, andThen_ite, andThen_ite]
    rfl
  | pksym y =>
    rw [exec, exec, execPksym, execPksym, packBits_withUnpackOf, andThen_ite]
    rfl
  | pkflush =>
    rw [exec, exec, execPkflush, execPkflush, andThen_ite]
    rfl
  | nop | cclr | cbit b | upclr | upins y | upstart n | upbyte b | upend => cases hi

end WithUnpackOf

/-- A PACK command writes no UNPACK state. -/
theorem exec_pack_frame {i : Instr} (hi : isPackCommand i = true) {s t : State} (h : exec i s = .next t) :
    t = withUnpackOf s t := by
  cases i with
  | pkclr => rw [execPkclr_cases h]; rfl
  | pkdef y => rw [execPkdef_frame h]; rfl
  | pksym y => rw [execPksym_frame h]; rfl
  | pkflush => rw [execPkflush_frame h]; rfl
  | nop | cclr | cbit b | upclr | upins y | upstart n | upbyte b | upend => cases hi

/-! ## Any other command and the PACK state -/

/-- s with the PACK state of u and the bits m set in ERR: what a PACK command other than PKDEF makes of s
(`exec_pack_eq`). -/
def withPackAndErr (u : State) (m : BitVec 8) (s : State) : State := { withPackOf u s with err := s.err ||| m }

theorem withPackAndErr_zero (u s : State) : withPackAndErr u 0 s = withPackOf u s := by
  have herr : s.err ||| 0 = s.err := BitVec.or_zero
  rw [withPackAndErr, herr]
  rfl

section WithPackAndErr

variable (u : State) (m : BitVec 8) (s : State)

@[simp] theorem withPackAndErr_pos : (withPackAndErr u m s).pos = s.pos := rfl
@[simp] theorem nodeRead_withPackAndErr (h : Handle) : nodeRead (withPackAndErr u m s) h = nodeRead s h := rfl
@[simp] theorem clearStaging_withPackAndErr :
    clearStaging (withPackAndErr u m s) = withPackAndErr u m (clearStaging s) := rfl

/-- Bits of ERR are set in either order. -/
@[simp] theorem raise_withPackAndErr (c : ErrCause) :
    raise c (withPackAndErr u m s) = withPackAndErr u m (raise c s) := by
  have herr : s.err ||| m ||| errMask c = s.err ||| errMask c ||| m := by
    rw [BitVec.or_assoc, BitVec.or_comm m, BitVec.or_assoc]
  show { withPackOf u s with err := s.err ||| m ||| errMask c } = _
  rw [herr]
  rfl

theorem stageBit_withPackAndErr (b : Bool) :
    stageBit b (withPackAndErr u m s) = withPackAndErr u m (stageBit b s) := by
  simp only [stageBit, apply_ite (withPackAndErr u m)]
  rfl

theorem growPath_withPackAndErr (y : Symbol) (h : Handle) (bs : Bits) :
    growPath y h bs (withPackAndErr u m s) = withPackAndErr u m (growPath y h bs s) := by
  induction bs generalizing h s with
  | nil => rfl
  | cons b bs ih => exact ih (growOne h b s) _

theorem insertCode_withPackAndErr (y : Symbol) (c : Bits) :
    insertCode y c (withPackAndErr u m s) = andThen (insertCode y c s) fun t => .next (withPackAndErr u m t) := by
  rw [insertCode, insertCode, descend_congr (s := s) (t := withPackAndErr u m s) rfl rfl]
  cases descend s root c with
  | outside h => rfl
  | conflict => exact congrArg Host.Outcome.next (raise_withPackAndErr u m s .conflict)
  | absent p rest =>
    dsimp only
    rw [growPath_withPackAndErr, raise_withPackAndErr, andThen_ite]
    rfl

theorem emitLeaf_withPackAndErr (y : Symbol) :
    emitLeaf y (withPackAndErr u m s) = withPackAndErr u m (emitLeaf y s) := by
  simp only [emitLeaf, apply_ite (withPackAndErr u m)]
  rfl

theorem walkBit_withPackAndErr (x : Bool) :
    walkBit x (withPackAndErr u m s) = andThen (walkBit x s) fun t => .next (withPackAndErr u m t) := by
  simp only [walkBit, nodeRead_withPackAndErr, withPackAndErr_pos]
  cases nodeRead s s.pos with
  | none => rfl
  | some nd =>
    dsimp only
    cases nodeRead s (nd.child x) with
    | none =>
      rw [andThen_ite]
      rfl
    | some ch =>
      simp only [andThen_ite, andThen_next, ← emitLeaf_withPackAndErr]
      rfl

theorem walkBits_withPackAndErr (xs : Bits) :
    walkBits xs (withPackAndErr u m s) = andThen (walkBits xs s) fun t => .next (withPackAndErr u m t) := by
  induction xs generalizing s with
  | nil => rfl
  | cons x xs ih =>
    rw [walkBits, walkBits, walkBit_withPackAndErr, andThen_ite, andThen_assoc, andThen_assoc]
    simp only [andThen_next, ih]
    rfl

/-- A command that is no PACK command does the same whatever the PACK state and ERR are, leaves the PACK state as it is
and sets the same bits of ERR. -/
theorem exec_withPackAndErr {i : Instr} (hi : isPackCommand i = false) :
    exec i (withPackAndErr u m s) = andThen (exec i s) fun t => .next (withPackAndErr u m t) := by
  cases i with
  | nop | cclr | upstart n => rfl
  | cbit b => exact congrArg Host.Outcome.next (stageBit_withPackAndErr u m s b)
  | upbyte b => exact walkBits_withPackAndErr u m s (byteBits b)
  | upclr =>
    rw [exec, exec, execUpclr, execUpclr, raise_withPackAndErr, andThen_ite]
    rfl
  | upins y =>
    simp only [exec, execUpins, clearStaging_withPackAndErr, raise_withPackAndErr, insertCode_withPackAndErr,
      andThen_ite]
    rfl
  | upend =>
    rw [exec, exec, execUpend, execUpend, andThen_next, apply_ite (withPackAndErr u m)]
    rfl
  | pkclr | pkdef y | pksym y | pkflush => cases hi

end WithPackAndErr

/-- Only the PACK commands write PACK state. -/
theorem exec_nonpack_frame {i : Instr} (hi : isPackCommand i = false) {s t : State} (h : exec i s = .next t) :
    t = withPackOf s t := by
  cases i with
  | nop => rw [execNop_cases h]; rfl
  | cclr => rw [execCclr_cases h]; rfl
  | cbit b => rw [execCbit_cases h, stageBit_frame]; rfl
  | upclr => rw [execUpclr_frame h]; rfl
  | upins y => rw [execUpins_frame h]; rfl
  | upstart n => cases h; rfl
  | upbyte b => rw [walkBits_frame h]; rfl
  | upend => rw [execUpend_frame h]; rfl
  | pkclr | pkdef y | pksym y | pkflush => cases hi

theorem isPackCommand_of_unpack {i : Instr} (hi : isUnpackCommand i = true) : isPackCommand i = false := by
  cases i with
  | upclr | upins y | upstart n | upbyte b | upend => rfl
  | nop | cclr | cbit b | pkclr | pkdef y | pksym y | pkflush => cases hi

/-! ## A PACK command and any other command commute -/

theorem packBits_withPackOf (bs : Bits) (s t : State) :
    packBits bs (withPackOf s t) = withPackOf (packBits bs s) t := by
  induction bs generalizing s with
  | nil => rfl
  | cons b bs ih =>
    have hbit : packBit b (withPackOf s t) = withPackOf (packBit b s) t := by
      simp only [packBit, apply_ite (withPackOf · t)]
      rfl
    rw [packBits, packBits, hbit, ih]

/-- A PACK command other than PKDEF reads PACK state only, and gives new PACK state and bits to set in ERR. -/
theorem exec_pack_eq {i : Instr} (hi : isPackCommand i = true) (hd : ∀ y, i ≠ .pkdef y) (s : State) :
    ∃ u m, ∀ t, exec i (withPackOf s t) = .next (withPackAndErr u m t) := by
  cases i with
  | pkclr =>
    refine ⟨codeInvalidateAll { s with acc := 0, nbits := 0 }, 0, fun t => ?_⟩
    rw [withPackAndErr_zero]
    rfl
  | pksym y =>
    cases hv : (codeRead s y).valid with
    | false => exact ⟨s, errMask .nocode, fun t => if_neg (ne_true_of_eq_false hv)⟩
    | true =>
      refine ⟨packBits (codeBits (codeRead s y).len.toNat (codeRead s y).bits) s, 0, fun t => ?_⟩
      rw [withPackAndErr_zero, ← packBits_withPackOf]
      exact if_pos hv
  | pkflush =>
    by_cases hn : s.nbits = 0
    · refine ⟨s, 0, fun t => ?_⟩
      rw [withPackAndErr_zero]
      exact if_pos hn
    · refine ⟨emitPk (s.acc <<< (8 - s.nbits.toNat)) { s with acc := 0, nbits := 0 }, 0, fun t => ?_⟩
      rw [withPackAndErr_zero]
      exact if_neg hn
  | pkdef y => exact absurd rfl (hd y)
  | nop | cclr | cbit b | upclr | upins y | upstart n | upbyte b | upend => cases hi

/-- A PACK command other than PKDEF and a command that is no PACK command give the same outcome in either order, a fault
included. -/
theorem exec_comm {p i : Instr} (hp : isPackCommand p = true) (hd : ∀ y, p ≠ .pkdef y)
    (hi : isPackCommand i = false) (s : State) :
    andThen (exec i s) (exec p) = andThen (exec p s) (exec i) := by
  obtain ⟨u, m, hpack⟩ := exec_pack_eq hp hd s
  have hs : exec p s = .next (withPackAndErr u m s) := hpack s
  rw [hs, andThen_next, exec_withPackAndErr u m s hi]
  cases h : exec i s with
  | next t =>
    rw [andThen_next, andThen_next, exec_nonpack_frame hi h]
    exact hpack t
  | fault r => rfl
  | refused r => rfl

/-! ## Runs -/

/-- A run that does not end fatal was not fatal before. -/
theorem not_fatal_before_run {is : List Instr} {s t : State} (h : runCmds is s = .next t)
    (ht : t.err.getLsbD 6 = false) : s.err.getLsbD 6 = false :=
  Bool.eq_false_of_not_eq_true fun hs => Bool.eq_false_iff.1 ht (runWords_err_mono h hs)

theorem not_fatal_before_exec {i : Instr} {s t : State} (h : exec i s = .next t) (ht : t.err.getLsbD 6 = false) :
    s.err.getLsbD 6 = false :=
  Bool.eq_false_of_not_eq_true fun hs => Bool.eq_false_iff.1 ht (exec_err_mono h hs)

/-- A run from a state that is not fatal, taken apart at its first command. -/
theorem runCmds_cons_eq_next {i : Instr} {is : List Instr} {s t : State} (hs : s.err.getLsbD 6 = false) :
    runCmds (i :: is) s = .next t ↔ ∃ u, exec i s = .next u ∧ runCmds is u = .next t := by
  rw [runCmds_cons hs]
  refine ⟨andThen_eq_next, ?_⟩
  rintro ⟨u, hu, ht⟩
  rw [hu, andThen_next, ht]

/-- A command that is no PACK command can be put off until some PACK commands, no PKDEF among them, have run. -/
theorem runCmds_pack_comm {ps : List Instr} {i : Instr} (hi : isPackCommand i = false)
    (hps : ∀ p ∈ ps, isPackCommand p = true ∧ ∀ y, p ≠ .pkdef y) {s t u : State} (hs : s.err.getLsbD 6 = false)
    (hu : exec i s = .next u) (hu6 : u.err.getLsbD 6 = false) (ht : runCmds ps u = .next t) :
    ∃ v, runCmds ps s = .next v ∧ exec i v = .next t := by
  induction ps generalizing s u with
  | nil =>
    cases ht
    exact ⟨s, rfl, hu⟩
  | cons p ps ih =>
    obtain ⟨⟨hp, hd⟩, hps⟩ := List.forall_mem_cons.1 hps
    obtain ⟨u', hu', ht⟩ := (runCmds_cons_eq_next hu6).1 ht
    have hcomm := exec_comm hp hd hi s
    rw [hu, andThen_next, hu'] at hcomm
    obtain ⟨s', hs', hsu'⟩ := andThen_eq_next hcomm.symm
    have hnofatal : ∀ y, p ≠ .upins y := fun y e => by rw [e] at hp; cases hp
    obtain ⟨v, hv, hvt⟩ := ih hps (exec_not_fatal hs' hnofatal hs) hsu' (exec_not_fatal hu' hnofatal hu6) ht
    exact ⟨v, (runCmds_cons_eq_next hs).2 ⟨s', hs', hv⟩, hvt⟩

/-- Packing first leaves the very state that the interleaved run leaves. -/
theorem runCmds_pack_first {is : List Instr} {s t : State} (his : ∀ i ∈ is, ∀ y, i ≠ .pkdef y)
    (h : runCmds is s = .next t) (ht : t.err.getLsbD 6 = false) :
    runCmds (is.filter isPackCommand ++ is.filter fun i => !isPackCommand i) s = .next t := by
  induction is generalizing s with
  | nil => exact h
  | cons i is ih =>
    obtain ⟨hi, his⟩ := List.forall_mem_cons.1 his
    have hs := not_fatal_before_run h ht
    obtain ⟨u, hu, hut⟩ := (runCmds_cons_eq_next hs).1 h
    have hfirst := ih his hut
    cases hpack : isPackCommand i with
    | true =>
      rw [List.filter_cons_of_pos hpack, List.filter_cons_of_neg (by simp [hpack]), List.cons_append]
      exact (runCmds_cons_eq_next hs).2 ⟨u, hu, hfirst⟩
    | false =>
      rw [List.filter_cons_of_neg (by simp [hpack]), List.filter_cons_of_pos (by simp [hpack]), runCmds_append]
      rw [runCmds_append] at hfirst
      obtain ⟨v, huv, hvt⟩ := andThen_eq_next hfirst
      have hps : ∀ p ∈ is.filter isPackCommand, isPackCommand p = true ∧ ∀ y, p ≠ .pkdef y := fun p hp =>
        ⟨(List.mem_filter.1 hp).2, his p (List.mem_filter.1 hp).1⟩
      obtain ⟨w, hw, hwv⟩ := runCmds_pack_comm hpack hps hs hu (not_fatal_before_run hut ht) huv
      have hw6 := not_fatal_before_exec hwv (not_fatal_before_run hvt ht)
      rw [hw, andThen_next]
      exact (runCmds_cons_eq_next hw6).2 ⟨v, hwv, hvt⟩

/-- Settles O39: each command that is no PACK command is put off, one after another, behind the PACK commands that
follow it, and the run then ends in the same state. -/
theorem interleavingGivesTheSameStreams : Obligations.InterleavingGivesTheSameStreams :=
  fun _ _ t his h ht => ⟨t, runCmds_pack_first his h ht, rfl, rfl⟩

/-- Settles O38: exchanging the state of the other unit commutes with the command, and the commands' frames do not hold
the other unit's state. -/
theorem unitsNeitherReadNorWriteEachOther : Obligations.UnitsNeitherReadNorWriteEachOther := by
  intro i s u
  refine ⟨exec_withUnpackOf u s, fun hi => ?_, fun hi _ => exec_pack_frame hi,
    fun hi _ => exec_nonpack_frame (isPackCommand_of_unpack hi)⟩
  have hexchange := exec_withPackAndErr u 0 s (isPackCommand_of_unpack hi)
  simpa only [withPackAndErr_zero] using hexchange

end Sys2Proof.Machine

namespace Sys2Proof.Machine

/-! # The output streams (R64) -/

/-- PKSYM's loop over a Code appends at most 32 bytes: at most 7 pending bits and 255 new ones. -/
theorem packBits_pkOut {bs : Bits} (hbs : bs.length ≤ 255) (s : State) :
    ∃ ps, (packBits bs s).pkOut = s.pkOut ++ ps ∧ ps.length ≤ 32 := by
  obtain ⟨ps, hps, hbits⟩ := packBits_spec bs s
  obtain ⟨hlen, -⟩ := packBits_counts hbits
  have hpending : s.nbits.toNat < 8 := s.nbits.isLt
  exact ⟨ps, hps, by omega⟩

theorem exec_pkOut_of_ne {i : Instr} {s t : State} (hsym : ∀ y, i ≠ .pksym y) (hflush : i ≠ .pkflush)
    (h : exec i s = .next t) : t.pkOut = s.pkOut := by
  cases i with
  | pkclr => rw [execPkclr_cases h]; rfl
  | pkdef y => rw [execPkdef_frame h]
  | pksym y => exact absurd rfl (hsym y)
  | pkflush => exact absurd rfl hflush
  | nop | cclr | cbit b | upclr | upins y | upstart n | upbyte b | upend =>
    rw [exec_nonpack_frame rfl h]
    rfl

theorem execPksym_pkOut {y : Symbol} {s t : State} (h : execPksym y s = .next t) :
    ∃ ps, t.pkOut = s.pkOut ++ ps ∧ ps.length ≤ 32 := by
  rcases execPksym_cases h with ⟨-, rfl⟩ | ⟨-, rfl⟩
  · exact ⟨[], by simp⟩
  · have hlen : (codeRead s y).len.toNat < 256 := (codeRead s y).len.isLt
    exact packBits_pkOut (by rw [length_codeBits]; omega) s

theorem execPkflush_pkOut {s t : State} (h : execPkflush s = .next t) :
    ∃ ps, t.pkOut = s.pkOut ++ ps ∧ (ps = [] ∨ ps.length = 1) := by
  rcases execPkflush_cases h with ⟨-, rfl⟩ | ⟨-, rfl⟩
  · exact ⟨[], by simp⟩
  · exact ⟨_, rfl, .inr rfl⟩

theorem exec_pkOut {i : Instr} {s t : State} (h : exec i s = .next t) :
    ∃ ps, t.pkOut = s.pkOut ++ ps ∧ ps.length ≤ 32 ∧
      (ps ≠ [] → (∃ y, i = .pksym y) ∨ i = .pkflush ∧ ps.length = 1) := by
  by_cases hsym : ∃ y, i = .pksym y
  · obtain ⟨y, rfl⟩ := hsym
    obtain ⟨ps, hps, hle⟩ := execPksym_pkOut h
    exact ⟨ps, hps, hle, fun _ => .inl ⟨y, rfl⟩⟩
  by_cases hflush : i = .pkflush
  · subst hflush
    obtain ⟨ps, hps, rfl | hone⟩ := execPkflush_pkOut h
    · exact ⟨[], hps, Nat.zero_le _, fun hne => absurd rfl hne⟩
    · exact ⟨ps, hps, by omega, fun _ => .inr ⟨rfl, hone⟩⟩
  · refine ⟨[], ?_, Nat.zero_le _, fun hne => absurd rfl hne⟩
    rw [exec_pkOut_of_ne (not_exists.1 hsym) hflush h, List.append_nil]

theorem emitLeaf_upOut (y : Symbol) (s : State) : (emitLeaf y s).upOut = s.upOut ++ [y] := by
  rw [emitLeaf]
  split <;> rfl

theorem walkBit_upOut {s t : State} {x : Bool} (h : walkBit x s = .next t) :
    ∃ us, t.upOut = s.upOut ++ us ∧ us.length ≤ 1 := by
  rw [walkBit] at h
  split at h
  · cases h
  · split at h
    · cases h
      exact ⟨[], by simp⟩
    · split at h
      · cases h
      · dsimp only at h
        split at h
        · cases h
          exact ⟨_, emitLeaf_upOut _ _, Nat.le_refl 1⟩
        · cases h
          exact ⟨[], by simp⟩

/-- The walk appends at most one byte for each bit. -/
theorem walkBits_upOut {s t : State} {xs : Bits} (h : walkBits xs s = .next t) :
    ∃ us, t.upOut = s.upOut ++ us ∧ us.length ≤ xs.length := by
  induction xs generalizing s with
  | nil =>
    cases h
    exact ⟨[], by simp⟩
  | cons x xs ih =>
    rw [walkBits] at h
    split at h
    · obtain ⟨v, hv, hvt⟩ := andThen_eq_next h
      obtain ⟨us, hus, hle⟩ := walkBit_upOut hv
      obtain ⟨us', hus', hle'⟩ := ih hvt
      refine ⟨us ++ us', by rw [hus', hus, List.append_assoc], ?_⟩
      rw [List.length_append, List.length_cons]
      omega
    · cases h
      exact ⟨[], by simp⟩

theorem exec_upOut_of_ne_upbyte {i : Instr} {s t : State} (hi : ∀ b, i ≠ .upbyte b) (h : exec i s = .next t) :
    t.upOut = s.upOut := by
  cases i with
  | nop => rw [execNop_cases h]
  | cclr => rw [execCclr_cases h]; rfl
  | cbit b => rw [execCbit_cases h, stageBit_frame]
  | pkclr | pkdef y | pksym y | pkflush => rw [exec_pack_frame rfl h]; rfl
  | upclr => rw [execUpclr_frame h]
  | upins y => rw [execUpins_frame h]
  | upstart n => cases h; rfl
  | upbyte b => exact absurd rfl (hi b)
  | upend => rw [execUpend_frame h]

theorem exec_upOut {i : Instr} {s t : State} (h : exec i s = .next t) :
    ∃ us, t.upOut = s.upOut ++ us ∧ us.length ≤ 8 ∧ (us ≠ [] → ∃ b, i = .upbyte b) := by
  by_cases hi : ∃ b, i = .upbyte b
  · obtain ⟨b, rfl⟩ := hi
    obtain ⟨us, hus, hle⟩ := walkBits_upOut h
    exact ⟨us, hus, hle, fun _ => ⟨b, rfl⟩⟩
  · refine ⟨[], ?_, Nat.zero_le _, fun hne => absurd rfl hne⟩
    rw [exec_upOut_of_ne_upbyte (not_exists.1 hi) h, List.append_nil]

/-- Settles O40: an ignored or an illegal word emits nothing, and a command emits at most what its loop counts. -/
theorem streamsOnlyGrow : Obligations.StreamsOnlyGrow := by
  intro w s t h
  rcases accept_cases w s with ⟨-, e⟩ | ⟨-, ⟨-, e⟩ | ⟨i, hd, e⟩⟩ <;> rw [e] at h
  · cases h
    exact ⟨[], [], by simp⟩
  · cases h
    exact ⟨[], [], by simp⟩
  · obtain ⟨ps, hps, hple, hpby⟩ := exec_pkOut h
    obtain ⟨us, hus, hule, huby⟩ := exec_upOut h
    simp only [hd, Decoded.cmd.injEq]
    exact ⟨ps, us, hps, hus, hple, hule, hpby, huby⟩

end Sys2Proof.Machine

namespace Sys2Proof.Machine

/-! # The node arena (R63) -/

/-! ## The canonical form (log 5) -/

theorem exec_node_wf {i : Instr} {s t : State} (hw : s.node.wf = true) (h : exec i s = .next t) :
    t.node.wf = true := by
  cases i with
  | upclr =>
    rcases execUpclr_cases h with ⟨-, rfl⟩ | ⟨-, rfl⟩
    · exact hw
    · exact Memory.wf_write hw _ _
  | upins y =>
    rcases execUpins_outcome h with ⟨c, -, rfl⟩ | ⟨-, -, -, p, rest, -, -, rfl⟩
    · exact hw
    · exact growPath_wf (s := clearStaging s) hw y p rest
  | nop => exact execNop_cases h ▸ hw
  | cclr => exact execCclr_cases h ▸ hw
  | cbit b => rw [execCbit_cases h, stageBit_frame]; exact hw
  | pkclr | pkdef y | pksym y | pkflush => exact exec_pack_frame rfl h ▸ hw
  | upstart n => cases h; exact hw
  | upbyte b => exact walkBits_frame h ▸ hw
  | upend => exact execUpend_frame h ▸ hw

theorem node_wf_stepInvariant : StepInvariant fun s => s.node.wf = true where
  withPort _ hw := hw
  resetWith p _ := Memory.wf_reset _ p
  illcmd hw := hw
  exec hw h := exec_node_wf hw h

/-- Settles O55: UPCLR and UPINS alone write the arena, and every write keeps the canonical form. -/
theorem stepKeepsTheArenaCanonical : Obligations.StepKeepsTheArenaCanonical :=
  fun _ _ hw h => node_wf_stepInvariant.step hw h

/-! ## The 41 bits of a node -/

theorem Node.pack_leaf (nd : Node) : nd.pack.getLsbD 40 = nd.leaf := by
  rw [Node.pack, BitVec.getLsbD_append, BitVec.getLsbD_append, BitVec.getLsbD_append]
  exact BitVec.getLsbD_ofBool nd.leaf 0 |>.trans (Bool.true_and _)

theorem Node.pack_sym (nd : Node) : nd.pack.extractLsb' 32 8 = nd.sym := by
  rw [Node.pack, BitVec.extractLsb'_append_eq_of_le (by decide), BitVec.extractLsb'_append_eq_of_le (by decide)]
  exact BitVec.extractLsb'_append_eq_right

theorem Node.pack_c1 (nd : Node) : nd.pack.extractLsb' 16 16 = nd.c1 := by
  rw [Node.pack, BitVec.extractLsb'_append_eq_of_le (by decide)]
  exact BitVec.extractLsb'_append_eq_right

theorem Node.pack_c0 (nd : Node) : nd.pack.extractLsb' 0 16 = nd.c0 := BitVec.extractLsb'_append_eq_right

theorem Node.unpack_pack (nd : Node) : Node.unpack nd.pack = nd := by
  rw [Node.unpack, Node.pack_leaf, Node.pack_sym, Node.pack_c1, Node.pack_c0]

/-- Four neighbouring fields of 41 bits, put together again, are the 41 bits. -/
theorem Node.pack_unpack (v : BitVec 41) : (Node.unpack v).pack = v := by
  have hleaf : BitVec.ofBool (v.getLsbD 40) = v.extractLsb' 40 1 := by
    apply BitVec.eq_of_getLsbD_eq
    intro k hk
    simp [Nat.lt_one_iff.1 hk]
  calc (Node.unpack v).pack
      _ = v.extractLsb' 40 1 ++ v.extractLsb' 32 8 ++ v.extractLsb' 16 16 ++ v.extractLsb' 0 16 := by
        rw [← hleaf]
        rfl
      _ = v.extractLsb' 0 41 := by
        rw [BitVec.extractLsb'_append_extractLsb'_eq_extractLsb' (by decide),
          BitVec.extractLsb'_append_extractLsb'_eq_extractLsb' (by decide),
          BitVec.extractLsb'_append_extractLsb'_eq_extractLsb' (by decide)]
      _ = v := BitVec.extractLsb'_eq_self

/-- Settles O60: the layout gives the fields, and from it both round trips follow. -/
theorem nodeFieldsFillFortyOneBits : Obligations.NodeFieldsFillFortyOneBits :=
  ⟨Node.unpack_pack, Node.pack_unpack,
    fun nd => ⟨Node.pack_leaf nd, Node.pack_sym nd, Node.pack_c1 nd, Node.pack_c0 nd⟩⟩

end Sys2Proof.Machine

/-! # Decoding a word: the op, the reserved bits, the command -/

namespace Sys2Proof.Machine

/-! ## The answers of the decoder (R92 steps 2 and 3) -/

/-- The ops of the rows of R98. -/
def assignedOps : List (BitVec 8) :=
  [0x00, 0x01, 0x02, 0x10, 0x11, 0x12, 0x13, 0x20, 0x21, 0x22, 0x23, 0x24]

theorem opField_opcodeRows : opcodeRows.map (fun r => opField r.1) = assignedOps := by decide

theorem mem_assignedOps_iff (op : BitVec 8) : op ∈ assignedOps ↔ ∃ r ∈ opcodeRows, op = opField r.1 := by
  rw [← opField_opcodeRows, List.mem_map]
  simp only [eq_comm]

/-- What the format of an assigned op can answer: a reserved bit is set, or the command whose word is op and arg. -/
def FormatAnswer (op : BitVec 8) (arg : BitVec 32) (d : Decoded) : Prop :=
  d = .illegal .reservedBits ∨ ∃ i, d = .cmd i ∧ encode i = cmdWord op arg

section Formats

variable {op : BitVec 8} (arg : BitVec 32)

theorem formatZ_answer {i : Instr} (hi : encode i = cmdWord op 0) : FormatAnswer op arg (formatZ arg i) := by
  rw [formatZ]
  split
  case isTrue harg => exact .inr ⟨i, rfl, harg ▸ hi⟩
  case isFalse => exact .inl rfl

theorem formatB_answer {mk : Bool → Instr} (hmk : ∀ b, encode (mk b) = cmdWord op ((BitVec.ofBool b).setWidth 32)) :
    FormatAnswer op arg (formatB arg mk) := by
  rw [formatB]
  split
  case isTrue harg =>
    refine .inr ⟨_, rfl, (hmk _).trans (congrArg _ ?_)⟩
    rw [argTop_eq_zero_iff] at harg
    apply BitVec.eq_of_toNat_eq
    rw [BitVec.toNat_setWidth, BitVec.toNat_ofBool, BitVec.getLsbD, Nat.toNat_testBit]
    omega
  case isFalse => exact .inl rfl

theorem formatS_answer {mk : BitVec 8 → Instr} (hmk : ∀ y, encode (mk y) = cmdWord op (y.setWidth 32)) :
    FormatAnswer op arg (formatS arg mk) := by
  rw [formatS]
  split
  case isTrue harg =>
    refine .inr ⟨_, rfl, (hmk _).trans (congrArg _ ?_)⟩
    rw [argHigh_eq_zero_iff] at harg
    apply BitVec.eq_of_toNat_eq
    rw [BitVec.toNat_setWidth, toNat_argByte]
    omega
  case isFalse => exact .inl rfl

theorem formatN_answer {mk : BitVec 32 → Instr} (hmk : ∀ n, encode (mk n) = cmdWord op n) :
    FormatAnswer op arg (formatN arg mk) :=
  .inr ⟨mk arg, rfl, hmk arg⟩

end Formats

/-- All that the decoder can answer. -/
theorem decode_cases (w : CmdWord) :
    (opField w ∉ assignedOps ∧ decode w = .illegal .unassignedOp) ∨
      (opField w ∈ assignedOps ∧ FormatAnswer (opField w) (argField w) (decode w)) := by
  by_cases hop : opField w ∈ assignedOps
  · refine .inr ⟨hop, ?_⟩
    rw [decode]
    generalize opField w = op at hop
    simp only [assignedOps, List.mem_cons, List.not_mem_nil, or_false] at hop
    rcases hop with rfl | rfl | rfl | rfl | rfl | rfl | rfl | rfl | rfl | rfl | rfl | rfl
    · exact formatZ_answer _ rfl
    · exact formatZ_answer _ rfl
    · exact formatB_answer _ fun _ => rfl
    · exact formatZ_answer _ rfl
    · exact formatS_answer _ fun _ => rfl
    · exact formatS_answer _ fun _ => rfl
    · exact formatZ_answer _ rfl
    · exact formatZ_answer _ rfl
    · exact formatS_answer _ fun _ => rfl
    · exact formatN_answer _ fun _ => rfl
    · exact formatS_answer _ fun _ => rfl
    · exact formatZ_answer _ rfl
  · refine .inl ⟨hop, ?_⟩
    simp only [assignedOps, List.mem_cons, List.not_mem_nil, or_false, not_or, ← BitVec.toNat_inj] at hop
    obtain ⟨h1, h2, h3, h4, h5, h6, h7, h8, h9, h10, h11, h12⟩ := hop
    rw [decode]
    split <;> trivial

/-- Settles O1: the round trip is that of the formats, one for each command. -/
theorem decodeOfEncodeIsTheCommand : Obligations.DecodeOfEncodeIsTheCommand := decode_encode

/-- Settles O2: a format gives a command only where all its reserved bits are 0, as its encoder writes them. -/
theorem encodeOfDecodeIsTheWord : Obligations.EncodeOfDecodeIsTheWord := by
  intro w i hw
  rcases decode_cases w with ⟨-, hd⟩ | ⟨-, hd | ⟨j, hd, hj⟩⟩ <;> rw [hw] at hd <;> cases hd
  exact hj.trans (cmdWord_fields w)

theorem decode_eq_cmd_iff (w : CmdWord) (i : Instr) : decode w = .cmd i ↔ encode i = w :=
  ⟨encodeOfDecodeIsTheWord w i, fun h => h ▸ decode_encode i⟩

/-- Settles O7: six of the words are those of their commands; the decoder evaluates on the other four. -/
theorem listedWordsDecode : Obligations.ListedWordsDecode :=
  ⟨decode_encode (.pksym 0x61), decode_encode (.cbit true), decode_encode (.cbit false), decode_encode (.upins 0x62),
    decode_encode (.upstart 4294967295), decode_encode .upend, rfl, rfl, rfl, rfl⟩

/-! ## Masks and matches (R96, R98) -/

/-- The words of one op with an operand in the low k bits of the argument are those that agree with the op under a mask
of all bits from k up. -/
theorem exists_operand_iff {k : Nat} (hk : k ≤ 32) (op : BitVec 8) (w : CmdWord) :
    (∃ x : BitVec k, cmdWord op (x.setWidth 32) = w) ↔ w &&& (BitVec.allOnes 40 <<< k) = cmdWord op 0 := by
  have hdvd : 2 ^ k ∣ op.toNat * 2 ^ 32 := Dvd.dvd.mul_left (Nat.pow_dvd_pow 2 hk) _
  have hop : (cmdWord op 0).toNat = op.toNat * 2 ^ 32 := by
    simp [toNat_cmdWord]
  have hword (x : BitVec k) : (cmdWord op (x.setWidth 32)).toNat = op.toNat * 2 ^ 32 + x.toNat := by
    rw [toNat_cmdWord, BitVec.toNat_setWidth_of_le hk]
  rw [and_highMask_eq_iff w _ k (by rw [hop, Nat.mod_eq_zero_of_dvd hdvd]), hop]
  constructor
  · rintro ⟨x, rfl⟩
    rw [hword, Nat.add_div_of_dvd_right hdvd, Nat.div_eq_of_lt x.isLt, Nat.add_zero]
  · intro h
    refine ⟨w.setWidth k, BitVec.eq_of_toNat_eq ?_⟩
    rw [hword, BitVec.toNat_setWidth, ← Nat.div_mul_cancel hdvd, ← h, Nat.div_add_mod']

theorem and_fullMask_eq_iff (w m : CmdWord) : m = w ↔ w &&& 0xFFFFFFFFFF = m := by
  rw [show w &&& 0xFFFFFFFFFF = w from BitVec.and_allOnes, eq_comm]

theorem exists_bitWord_iff (op : BitVec 8) (w : CmdWord) :
    (∃ b, cmdWord op ((BitVec.ofBool b).setWidth 32) = w) ↔ w &&& 0xFFFFFFFFFE = cmdWord op 0 := by
  refine Iff.trans ?_ (exists_operand_iff (k := 1) (by decide) op w)
  constructor
  · rintro ⟨b, hb⟩
    exact ⟨_, hb⟩
  · rintro ⟨x, hx⟩
    rcases BitVec.eq_zero_or_eq_one x with rfl | rfl
    · exact ⟨false, hx⟩
    · exact ⟨true, hx⟩

theorem exists_byteWord_iff (op : BitVec 8) (w : CmdWord) :
    (∃ y : BitVec 8, cmdWord op (y.setWidth 32) = w) ↔ w &&& 0xFFFFFFFF00 = cmdWord op 0 :=
  exists_operand_iff (by decide) op w

theorem exists_countWord_iff (op : BitVec 8) (w : CmdWord) :
    (∃ n, cmdWord op n = w) ↔ w &&& 0xFF00000000 = cmdWord op 0 := by
  refine Iff.trans ?_ (exists_operand_iff (k := 32) (by decide) op w)
  simp only [BitVec.setWidth_eq]

theorem toNat_of_byteWord {op y : BitVec 8} {w : CmdWord} (h : cmdWord op (y.setWidth 32) = w) :
    y.toNat = w.toNat % 256 := by
  rw [← h, toNat_cmdWord, BitVec.toNat_setWidth]
  omega

/-- Settles O3: a word is a command if and only if it is the command's word, or one of them where the format has an
operand, and those are told by the row's mask. -/
theorem wordIsCommandIffMaskMatches : Obligations.WordIsCommandIffMaskMatches := by
  intro w
  simp only [decode_eq_cmd_iff]
  refine ⟨and_fullMask_eq_iff w _, and_fullMask_eq_iff w _, exists_bitWord_iff 0x02 w, and_fullMask_eq_iff w _,
    exists_byteWord_iff 0x11 w, exists_byteWord_iff 0x12 w, and_fullMask_eq_iff w _, and_fullMask_eq_iff w _,
    exists_byteWord_iff 0x21 w, exists_countWord_iff 0x22 w, exists_byteWord_iff 0x23 w, and_fullMask_eq_iff w _,
    ?_, ?_, ?_⟩
  · rintro b rfl
    cases b <;> rfl
  · rintro y (h | h | h | h) <;> exact toNat_of_byteWord h
  · rintro n rfl
    rw [encode, toNat_cmdWord]
    omega

/-! ## The words that match a row, and the others -/

/-- The word of a command stands in the command's row. -/
theorem matchesRow_encode (i : Instr) : MatchesRow (encode i) := by
  obtain ⟨r, hr, hmask, -⟩ : Laws.TableRow.Statement i := by
    cases i with
    | nop => exact Laws.TableRow.nop
    | cclr => exact Laws.TableRow.cclr
    | cbit b => exact Laws.TableRow.cbit b
    | pkclr => exact Laws.TableRow.pkclr
    | pkdef y => exact Laws.TableRow.pkdef y
    | pksym y => exact Laws.TableRow.pksym y
    | pkflush => exact Laws.TableRow.pkflush
    | upclr => exact Laws.TableRow.upclr
    | upins y => exact Laws.TableRow.upins y
    | upstart n => exact Laws.TableRow.upstart n
    | upbyte b => exact Laws.TableRow.upbyte b
    | upend => exact Laws.TableRow.upend
  exact ⟨r, hr, hmask⟩

theorem matchesRow_iff (w : CmdWord) : MatchesRow w ↔ ∃ i, decode w = .cmd i := by
  constructor
  · rintro ⟨r, hr, h⟩
    obtain ⟨hnop, hcclr, hcbit, hpkclr, hpkdef, hpksym, hpkflush, hupclr, hupins, hupstart, hupbyte, hupend, -⟩ :=
      wordIsCommandIffMaskMatches w
    simp only [opcodeRows, List.mem_cons, List.not_mem_nil, or_false] at hr
    rcases hr with rfl | rfl | rfl | rfl | rfl | rfl | rfl | rfl | rfl | rfl | rfl | rfl
    · exact ⟨_, hnop.2 h⟩
    · exact ⟨_, hcclr.2 h⟩
    · exact (hcbit.2 h).imp' .cbit fun _ => id
    · exact ⟨_, hpkclr.2 h⟩
    · exact (hpkdef.2 h).imp' .pkdef fun _ => id
    · exact (hpksym.2 h).imp' .pksym fun _ => id
    · exact ⟨_, hpkflush.2 h⟩
    · exact ⟨_, hupclr.2 h⟩
    · exact (hupins.2 h).imp' .upins fun _ => id
    · exact (hupstart.2 h).imp' .upstart fun _ => id
    · exact (hupbyte.2 h).imp' .upbyte fun _ => id
    · exact ⟨_, hupend.2 h⟩
  · rintro ⟨i, hw⟩
    rw [← encodeOfDecodeIsTheWord w i hw]
    exact matchesRow_encode i

/-- Every row's mask holds the whole op field, so a word that matches a row has the row's op. -/
theorem opField_of_matches {w : CmdWord} {r : CmdWord × CmdWord} (hr : r ∈ opcodeRows) (h : w &&& r.2 = r.1) :
    opField w = opField r.1 := by
  have hmask : ∀ r ∈ opcodeRows, opField r.2 = 0xFF := by simp [opcodeRows, opField]
  rw [← h, opField, opField, BitVec.extractLsb'_and, ← opField, ← opField, hmask r hr]
  exact BitVec.and_allOnes.symm

/-- No two rows have the same op, so a word with a row's op that does not match this row matches none. -/
theorem not_matchesRow_of_op {w : CmdWord} {r : CmdWord × CmdWord} (hr : r ∈ opcodeRows)
    (hop : opField w = opField r.1) (h : w &&& r.2 ≠ r.1) : ¬ MatchesRow w := by
  have hnodup : (opcodeRows.map fun r => opField r.1).Nodup := by
    rw [opField_opcodeRows]
    decide
  rintro ⟨r', hr', h'⟩
  obtain rfl := List.inj_on_of_nodup_map hnodup hr hr' (hop.symm.trans (opField_of_matches hr' h'))
  exact h h'

/-- Settles O5: the decoder's answers are told apart by whether the op is that of a row and the word matches one. -/
theorem decodeChecksOpcodeThenReservedBits : Obligations.DecodeChecksOpcodeThenReservedBits := by
  intro w
  have hassigned : opField w ∈ assignedOps ↔ ∃ r ∈ opcodeRows, w.extractLsb' 32 8 = r.1.extractLsb' 32 8 :=
    mem_assignedOps_iff _
  have hnone : (∀ r ∈ opcodeRows, w.extractLsb' 32 8 ≠ r.1.extractLsb' 32 8) ↔ opField w ∉ assignedOps := by
    simp [hassigned]
  rw [hnone, ← hassigned, matchesRow_iff]
  rcases decode_cases w with ⟨hop, hd⟩ | ⟨hop, hd | ⟨i, hd, -⟩⟩ <;> simp [hop, hd]

/-! ## Accepting a word (R92) -/

theorem accept_of_fatal {s : State} (hs : s.err.getLsbD 6 = true) (w : CmdWord) : accept w s = .next s := by
  rcases accept_cases w s with ⟨-, e⟩ | ⟨hf, -⟩
  · exact e
  · rw [hs] at hf
    cases hf

/-- Settles O4: such a word decodes to no command, and E_ILLCMD is ERR bit 0. -/
theorem illegalWordSetsOnlyIllcmd : Obligations.IllegalWordSetsOnlyIllcmd := by
  intro w s hw hs
  rcases accept_cases w s with ⟨hf, -⟩ | ⟨-, ⟨-, e⟩ | ⟨i, hd, -⟩⟩
  · rw [hs] at hf
    cases hf
  · exact e
  · exact absurd ((matchesRow_iff w).2 ⟨i, hd⟩) hw

/-- Settles O6: in the second and the third step the word matches no row, in the fourth it decodes to its command. -/
theorem acceptTakesTheFourSteps : Obligations.AcceptTakesTheFourSteps := by
  intro w s
  refine ⟨fun hs => accept_of_fatal hs w, fun hs hop => ?_, fun hs => ?_, fun hs hw => ?_⟩
  · exact illegalWordSetsOnlyIllcmd w s (fun ⟨r, hr, h⟩ => hop r hr (opField_of_matches hr h)) hs
  · rintro ⟨r, hr, hop, h⟩
    exact illegalWordSetsOnlyIllcmd w s (not_matchesRow_of_op hr hop h) hs
  · obtain ⟨i, hd⟩ := (matchesRow_iff w).1 hw
    exact ⟨i, hd, encodeOfDecodeIsTheWord w i hd, accept_of_decode hs hd⟩

/-- Settles O48: a fatal block ignores the words of a run and the word at its port, and a reset leaves ERR at 0. -/
theorem fatalBlockIgnoresEveryWord : Obligations.FatalBlockIgnoresEveryWord := by
  refine ⟨fun ws s hs => runWords_fatal hs ws, fun s t hs h => ?_⟩
  rcases step_cases s with ⟨hp, e⟩ | ⟨rest, hp, e⟩ | ⟨w, rest, hp, e⟩ <;> rw [e] at h
  · cases h
    exact .inr (by rw [hp, List.tail_nil, ← hp])
  · cases h
    exact .inl ⟨rest, hp, BitVec.getLsbD_zero⟩
  · rw [accept_of_fatal (s := { s with port := rest }) hs] at h
    cases h
    exact .inr (by rw [hp, List.tail_cons])

end Sys2Proof.Machine

namespace Sys2Proof.Machine

/-! # Assembling a script line (R104, R105) -/

theorem isSome_assembleLine (c : Config) (l : ScriptLine) : (assembleLine c l).isSome = l.wf c := by
  rw [assembleLine]
  cases l.wf c <;> rfl

/-- Settles O59: a line is encoded if and only if it passes its check, and that is the comparison with its range. -/
theorem outOfRangeLinesAreNeverEncoded : Obligations.OutOfRangeLinesAreNeverEncoded := by
  intro c n
  simp only [isSome_assembleLine]
  exact ⟨decide_eq_true_iff, decide_eq_true_iff, decide_eq_true_iff, decide_eq_true_iff, decide_eq_true_iff,
    decide_eq_true_iff⟩

/-! ## A DEFCODE line -/

theorem execPkdef_defines {s : State} (hovf : s.stgovf = false) (hl : s.stglen ≠ 0) (y : Symbol) :
    exec (.pkdef y) s =
      .next (codeWrite y { valid := true, len := s.stglen, bits := s.stg } (clearStaging s)) := by
  rw [exec, execPkdef, if_neg (by simp [hovf]), if_neg hl]

/-- The commands of a DEFCODE line give the Symbol its code, whatever was staged before, and leave the staging register
empty. -/
theorem runCmds_defCode {s : State} {c : Bits} (hc : s.cfg.wf) (hs : s.err.getLsbD 6 = false) (h1 : 1 ≤ c.length)
    (hl : c.length ≤ s.cfg.maxLen) (y : Symbol) :
    ∃ t, runCmds (defCode y c) s = .next t ∧ (codeRead t y).valid = true ∧
      codeBits (codeRead t y).len.toNat (codeRead t y).bits = c ∧
      (∀ z, z ≠ y → codeRead t z = codeRead s z) ∧
      t = { s with stg := 0, stglen := 0, stgovf := false, code := t.code } := by
  obtain ⟨u, hstage, -, hbits, hu⟩ := runCmds_stageCode hc hs hl
  have hulen : u.stglen ≠ 0 := by
    intro e
    rw [← hbits, length_stagedBits, e] at h1
    exact absurd h1 (by decide)
  have huerr : u.err = s.err := by rw [hu]
  have hucode : u.code = s.code := by rw [hu]
  refine ⟨codeWrite y { valid := true, len := u.stglen, bits := u.stg } (clearStaging u), ?_, ?_, ?_, ?_, ?_⟩
  · rw [defCode, runCmds_append, hstage, andThen_next, runCmds_cons (huerr ▸ hs),
      execPkdef_defines (by rw [hu]) hulen]
    rfl
  · rw [codeRead_codeWrite, if_pos rfl]
  · rw [codeRead_codeWrite, if_pos rfl]
    exact hbits
  · intro z hz
    rw [codeRead_codeWrite, if_neg hz]
    exact codeRead_congr hucode z
  · rw [hu]
    rfl

theorem length_defCode (y : Symbol) (c : Bits) : (defCode y c).length = c.length + 2 := by
  simp [defCode, stageCode]

theorem wf_defcode {c : Config} {y : Nat} {code : List Char} (hy : y ≤ 255) (h1 : 1 ≤ code.length)
    (hl : code.length ≤ c.maxLen) (hcode : ∀ x ∈ code, x = '0' ∨ x = '1') :
    (ScriptLine.defcode y code).wf c = true := by
  simpa [ScriptLine.wf, byteOperandOk, codeStringOk, hy, hl] using ⟨h1, hcode⟩

/-- Settles O58: the line passes its checks, its words are those of `defCode`, and their run defines the code. -/
theorem defcodeLineDefinesTheCode : Obligations.DefcodeLineDefinesTheCode := by
  intro s y code hc hs hy h1 hl hcode
  have hlen : (codeOfString code).length = code.length := List.length_map ..
  obtain ⟨t, hrun, ht⟩ := runCmds_defCode hc hs (hlen ▸ h1) (hlen ▸ hl) (BitVec.ofNat 8 y)
  refine ⟨(expandLine (.defcode y code)).map encode, t, if_pos (wf_defcode hy h1 hl hcode), ?_, hrun, ht⟩
  rw [List.length_map, expandLine, length_defCode, hlen]

end Sys2Proof.Machine

namespace Sys2Proof.Machine

/-! # The front end: NOP, CCLR, CBIT (R120 to R122) -/

/-- A word with a row's op that does not match the row has a reserved bit set (R92 step 3). -/
theorem decode_eq_reservedBits {w : CmdWord} {r : CmdWord × CmdWord} (hr : r ∈ opcodeRows)
    (hop : opField w = opField r.1) (h : w &&& r.2 ≠ r.1) : decode w = .illegal .reservedBits :=
  (decodeChecksOpcodeThenReservedBits w).2.2 ⟨not_matchesRow_of_op hr hop h, r, hr, hop⟩

/-- Settles O14: the row of NOP has the full mask, so that only its own word matches it. -/
theorem nopChangesNothing : Obligations.NopChangesNothing := by
  refine ⟨decode_encode .nop, fun w hop hw => ?_, fun _ => rfl⟩
  refine decode_eq_reservedBits (r := (0x0000000000, 0xFFFFFFFFFF)) (by decide) hop fun h => hw ?_
  exact ((and_fullMask_eq_iff w 0).2 h).symm

/-- Settles O15: the word is that of CCLR, and the new state is that of `clearStaging`. -/
theorem cclrClearsTheStagingRegister : Obligations.CclrClearsTheStagingRegister :=
  ⟨decode_encode .cclr, fun _ => rfl⟩

/-- `toNat_shiftIn` without room for the bit: what is shifted out of the register is lost. -/
theorem toNat_shiftIn_mod (v : CodeReg) (b : Bool) :
    ((v <<< 1) ||| (BitVec.ofBool b).setWidth 255).toNat = (2 * v.toNat + b.toNat) % 2 ^ 255 := by
  have hb : ((BitVec.ofBool b).setWidth 255).toNat = b.toNat := by cases b <;> rfl
  have hb1 := Bool.toNat_le b
  have hshift : (v <<< 1).toNat = 2 ^ 1 * (v.toNat % 2 ^ 254) := by
    rw [BitVec.toNat_shiftLeft, Nat.shiftLeft_eq]
    omega
  rw [BitVec.toNat_or, hb, hshift, ← Nat.two_pow_add_eq_or_of_lt (by omega)]
  omega

/-- What CBIT makes of STG, whatever STG holds: the MAXLEN low bits of 2·STG + b (R7). -/
theorem toNat_shiftInCode_mod {c : Config} (hc : c.maxLen ≤ 255) (v : CodeReg) (b : Bool) :
    (shiftInCode c v b).toNat = (2 * v.toNat + b.toNat) % 2 ^ c.maxLen := by
  have hdvd : 2 ^ c.maxLen ∣ 2 ^ 255 := Nat.pow_dvd_pow 2 hc
  have hlt : (2 * v.toNat + b.toNat) % 2 ^ c.maxLen < 2 ^ 255 :=
    (Nat.mod_lt _ (Nat.two_pow_pos _)).trans_le (Nat.le_of_dvd (Nat.two_pow_pos _) hdvd)
  rw [shiftInCode, fitCode, toNat_shiftIn_mod, Nat.mod_mod_of_dvd _ hdvd, BitVec.toNat_ofNat, Nat.mod_eq_of_lt hlt]

/-- Settles O16: the words are those of the two CBITs, a word that matches CBIT's row is one of them, and the two
branches are those of `stageBit`. -/
theorem cbitAppendsOneBit : Obligations.CbitAppendsOneBit := by
  refine ⟨decode_encode (.cbit false), decode_encode (.cbit true), fun w hop harg => ?_, fun s b hc => ⟨?_, ?_⟩⟩
  · refine decode_eq_reservedBits (r := (0x0200000000, 0xFFFFFFFFFE)) (by decide) hop fun h => harg ?_
    obtain ⟨b, rfl⟩ := (exists_bitWord_iff 0x02 w).2 h
    cases b <;> rfl
  · exact fun hfull => congrArg Host.Outcome.next (if_pos hfull)
  · obtain ⟨-, hM, -⟩ := hc
    exact fun hroom => ⟨shiftInCode s.cfg s.stg b, toNat_shiftInCode_mod hM s.stg b,
      congrArg Host.Outcome.next (if_neg hroom)⟩

/-! # The commands that do not use the staging register (R123) -/

/-- s with another content of the staging register. -/
def withStaging (v : CodeReg) (l : BitVec 8) (o : Bool) (s : State) : State :=
  { s with stg := v, stglen := l, stgovf := o }

section WithStaging

variable (v : CodeReg) (l : BitVec 8) (o : Bool) (s : State)

@[simp] theorem withStaging_pos : (withStaging v l o s).pos = s.pos := rfl
@[simp] theorem nodeRead_withStaging (h : Handle) : nodeRead (withStaging v l o s) h = nodeRead s h := rfl

theorem emitLeaf_withStaging (y : Symbol) : emitLeaf y (withStaging v l o s) = withStaging v l o (emitLeaf y s) := by
  simp only [emitLeaf, apply_ite (withStaging v l o)]
  rfl

theorem walkBit_withStaging (x : Bool) :
    walkBit x (withStaging v l o s) = andThen (walkBit x s) fun t => .next (withStaging v l o t) := by
  simp only [walkBit, nodeRead_withStaging, withStaging_pos]
  cases nodeRead s s.pos with
  | none => rfl
  | some nd =>
    dsimp only
    cases nodeRead s (nd.child x) with
    | none =>
      rw [andThen_ite]
      rfl
    | some ch =>
      simp only [andThen_ite, andThen_next, ← emitLeaf_withStaging]
      rfl

theorem walkBits_withStaging (xs : Bits) :
    walkBits xs (withStaging v l o s) = andThen (walkBits xs s) fun t => .next (withStaging v l o t) := by
  induction xs generalizing s with
  | nil => rfl
  | cons x xs ih =>
    rw [walkBits, walkBits, walkBit_withStaging, andThen_ite, andThen_assoc, andThen_assoc]
    simp only [andThen_next, ih]
    rfl

/-- A PACK command other than PKDEF reads PACK state only (`exec_pack_eq`), and the staging register is none. -/
theorem exec_pack_withStaging {i : Instr} (hi : isPackCommand i = true) (hd : ∀ y, i ≠ .pkdef y) :
    exec i (withStaging v l o s) = andThen (exec i s) fun t => .next (withStaging v l o t) := by
  obtain ⟨u, m, hpack⟩ := exec_pack_eq hi hd s
  have hs : exec i s = .next (withPackAndErr u m s) := hpack s
  rw [hs]
  exact hpack (withStaging v l o s)

/-- A command that does not use the staging register does the same whatever is staged, and leaves that as it is. -/
theorem exec_withStaging {i : Instr} (hi : usesStaging i = false) :
    exec i (withStaging v l o s) = andThen (exec i s) fun t => .next (withStaging v l o t) := by
  cases i with
  | nop | upstart n => rfl
  | pkclr | pksym y | pkflush => exact exec_pack_withStaging v l o s rfl nofun
  | upclr =>
    rw [exec, exec, execUpclr, execUpclr, andThen_ite]
    rfl
  | upbyte b => exact walkBits_withStaging v l o s (byteBits b)
  | upend =>
    rw [exec, exec, execUpend, execUpend, andThen_next, apply_ite (withStaging v l o)]
    rfl
  | cclr | cbit b | pkdef y | upins y => cases hi

end WithStaging

/-- Settles O42: exchanging the staged content commutes with the command. -/
theorem otherCommandsIgnoreTheStagingRegister : Obligations.OtherCommandsIgnoreTheStagingRegister :=
  fun _ s v l o hi => exec_withStaging v l o s hi

/-- Only CCLR, CBIT, PKDEF and UPINS write the staging register. -/
theorem exec_staging_frame {i : Instr} (hi : usesStaging i = false) {s t : State} (h : exec i s = .next t) :
    t = withStaging s.stg s.stglen s.stgovf t := by
  have hown : exec i s = _ := exec_withStaging s.stg s.stglen s.stgovf s hi
  rw [h, andThen_next] at hown
  exact Host.Outcome.next.inj hown

/-! # The law of the loader (R123)

As many of the bits c as fit are staged, and STGOVF tells whether all did: this holds of the empty staging register with
no bits, and each word of a loading run keeps it with the bit it stages, if any. -/

/-- s is not fatal, its parameters are g, and its staging register is what the bits c leave in an empty one. -/
structure HasLoaded (g : Config) (c : Bits) (s : State) : Prop where
  cfg : s.cfg = g
  not_fatal : s.err.getLsbD 6 = false
  front : FrontInv s
  bits : stagedBits s = c.take g.maxLen
  ovf : s.stgovf = decide (g.maxLen < c.length)

section HasLoaded

variable {g : Config} {c : Bits} {s t : State}

theorem HasLoaded.of_empty (hf : FrontInv s) (hl : s.stglen = 0) (hovf : s.stgovf = false)
    (hs : s.err.getLsbD 6 = false) : HasLoaded s.cfg [] s where
  cfg := rfl
  not_fatal := hs
  front := hf
  bits := by rw [stagedBits, hl, List.take_nil]; rfl
  ovf := hovf

theorem HasLoaded.stglen_eq (h : HasLoaded g c s) : s.stglen.toNat = min g.maxLen c.length := by
  rw [← length_stagedBits, h.bits, List.length_take]

theorem HasLoaded.stg_eq (h : HasLoaded g c s) : s.stg.toNat = codeValue (c.take g.maxLen) := by
  rw [← codeValue_stagedBits h.front, h.bits]

/-- What does not write the parameters or the staging register keeps what is loaded, unless it makes the block fatal. -/
theorem HasLoaded.congr (h : HasLoaded g c s) (hcfg : t.cfg = s.cfg) (ht : t.err.getLsbD 6 = false)
    (hframe : t = withStaging s.stg s.stglen s.stgovf t) : HasLoaded g c t := by
  have hstg : t.stg = s.stg := by rw [hframe]; rfl
  have hlen : t.stglen = s.stglen := by rw [hframe]; rfl
  have hovf : t.stgovf = s.stgovf := by rw [hframe]; rfl
  refine ⟨hcfg.trans h.cfg, ht, h.front.congr hstg hlen hovf hcfg, ?_, hovf.trans h.ovf⟩
  rw [stagedBits, hstg, hlen]
  exact h.bits

theorem HasLoaded.stageBit (h : HasLoaded g c s) (hg : g.wf) (b : Bool) :
    HasLoaded g (c ++ [b]) (stageBit b s) := by
  have hlen := h.stglen_eq
  have hsnoc : (c ++ [b]).length = c.length + 1 := List.length_append
  obtain ⟨rfl, hs, hf, hbits, hovf⟩ := h
  have hf' := stageBit_front (b := b) hg hf
  rcases stageBit_cases b s with ⟨hfull, e⟩ | ⟨hroom, e⟩
  · rw [e] at hf' ⊢
    refine ⟨rfl, hs, hf', ?_, (decide_eq_true (by omega)).symm⟩
    rw [List.take_append_of_le_length (by omega)]
    exact hbits
  · have hstaged := stagedBits_stageBit (b := b) hg hf (by omega)
    rw [e] at hf' hstaged ⊢
    refine ⟨rfl, hs, hf', ?_, ?_⟩
    · rw [hstaged, hbits, List.take_of_length_le (by omega), List.take_of_length_le (by omega)]
    · exact hovf.trans (by rw [decide_eq_false (by omega), decide_eq_false (by omega)])

/-- An illegal word or a command that does not use the staging register keeps what is loaded. UPINS, the one command
that can make the block fatal, is none of them. -/
theorem HasLoaded.accept_keepsStaging (h : HasLoaded g c s) {w : CmdWord} (hw : keepsStaging w = true)
    (ht : accept w s = .next t) : HasLoaded g c t := by
  rcases accept_cases w s with ⟨hf, -⟩ | ⟨-, ⟨-, e⟩ | ⟨i, hd, e⟩⟩
  · rw [h.not_fatal] at hf
    cases hf
  · rw [e] at ht
    cases ht
    refine h.congr rfl ?_ rfl
    rw [raise_err, setErr_getLsbD, h.not_fatal]
    rfl
  · rw [e] at ht
    have hi : usesStaging i = false := by simpa [keepsStaging, hd] using hw
    refine h.congr (exec_cfg_port ht).1 (exec_not_fatal ht ?_ h.not_fatal) (exec_staging_frame hi ht)
    rintro y rfl
    cases hi

theorem stagedBit?_of_keepsStaging {w : CmdWord} (hw : keepsStaging w = true) : stagedBit? w = none := by
  rw [stagedBit?]
  split
  next b hd => simp [keepsStaging, hd, usesStaging] at hw
  next => rfl

theorem stagedBit?_of_cbit {w : CmdWord} {b : Bool} (hw : decode w = .cmd (.cbit b)) : stagedBit? w = some b := by
  rw [stagedBit?, hw]

/-- A run whose only staging commands are CBITs loads their bits in order. -/
theorem HasLoaded.runWords (h : HasLoaded g c s) (hg : g.wf) {ws : List CmdWord}
    (hws : ∀ w ∈ ws, keepsStaging w = true ∨ ∃ b, decode w = .cmd (.cbit b)) (ht : runWords ws s = .next t) :
    HasLoaded g (c ++ ws.filterMap stagedBit?) t := by
  induction ws generalizing c s with
  | nil =>
    cases ht
    rwa [List.filterMap_nil, List.append_nil]
  | cons w ws ih =>
    obtain ⟨hw, hws⟩ := List.forall_mem_cons.1 hws
    obtain ⟨u, hu, hut⟩ := andThen_eq_next ht
    rcases hw with hw | ⟨b, hw⟩
    · rw [List.filterMap_cons_none (stagedBit?_of_keepsStaging hw)]
      exact ih (h.accept_keepsStaging hw hu) hws hut
    · rw [accept_of_decode h.not_fatal hw] at hu
      rw [List.filterMap_cons_some (stagedBit?_of_cbit hw), List.append_cons]
      exact ih (execCbit_cases hu ▸ h.stageBit hg b) hws hut

end HasLoaded

/-- The value of the first n bits of a code, in terms of the whole code's bits. -/
theorem codeValue_take_eq_sum {n : Nat} {c : Bits} (hn : n ≤ c.length) :
    codeValue (c.take n) = ∑ k ∈ Finset.range n, (c.getD k false).toNat * 2 ^ (n - 1 - k) := by
  rw [codeValue_eq_sum, List.length_take_of_le hn]
  refine Finset.sum_congr rfl fun k hk => ?_
  rw [List.getD_eq_getElem?_getD, List.getElem?_take_of_lt (Finset.mem_range.1 hk), List.getD_eq_getElem?_getD]

/-- Settles O18: the run loads c into the empty staging register, and STG is the value of the bits that fit. -/
theorem loaderStagesTheBitsInOrder : Obligations.LoaderStagesTheBitsInOrder := by
  intro ws s t c hc hf hl hovf hs hws hbits hrun
  have h : HasLoaded s.cfg c t := hbits ▸ (HasLoaded.of_empty hf hl hovf hs).runWords hc hws hrun
  have hlen := h.stglen_eq
  refine ⟨fun hfit => ⟨?_, by omega, ?_⟩, fun hlong => ⟨?_, by omega, ?_⟩⟩
  · exact h.ovf.trans (decide_eq_false (Nat.not_lt.2 hfit))
  · rw [h.stg_eq, List.take_of_length_le hfit, codeValue_eq_sum]
  · exact h.ovf.trans (decide_eq_true hlong)
  · rw [h.stg_eq, codeValue_take_eq_sum hlong.le]

end Sys2Proof.Machine

namespace Sys2Proof.Machine

/-! # The bits of a byte stream (R65, R66) -/

/-- The first n bits of a code of n + k bits are those of its register shifted right by k. -/
theorem codeBits_add (n k : Nat) (v : CodeReg) : codeBits (n + k) v = codeBits n (v >>> k) ++ codeBits k v := by
  induction n with
  | zero => rw [Nat.zero_add, codeBits_zero, List.nil_append]
  | succ n ih =>
    rw [Nat.add_right_comm, codeBits_succ, ih, codeBits_succ, List.cons_append, BitVec.getLsbD_ushiftRight,
      Nat.add_comm k]

theorem codeBits_eq_replicate {n : Nat} {v : CodeReg} (h : ∀ i, i < n → v.getLsbD i = false) :
    codeBits n v = List.replicate n false := by
  induction n with
  | zero => rfl
  | succ n ih => rw [codeBits_succ, h n (Nat.lt_succ_self n), ih fun i hi => h i (by omega), List.replicate_succ]

/-- A left shift by 8 - n brings the n low bits of a byte to its high-order positions, with zeros below. -/
theorem byteBits_shiftLeft (a : Byte) {n : Nat} (hn : n ≤ 8) :
    byteBits (a <<< (8 - n)) = codeBits n (a.setWidth 255) ++ List.replicate (8 - n) false := by
  have hsplit := codeBits_add n (8 - n) ((a <<< (8 - n)).setWidth 255)
  rw [Nat.add_sub_cancel' hn] at hsplit
  rw [byteBits_eq_codeBits, hsplit]
  congr 1
  · refine codeBits_congr fun i hi => ?_
    have h255 : 8 - n + i < 255 := by omega
    have h8 : 8 - n + i < 8 := by omega
    have hi255 : i < 255 := by omega
    rw [BitVec.getLsbD_ushiftRight, BitVec.getLsbD_setWidth, BitVec.getLsbD_shiftLeft, BitVec.getLsbD_setWidth,
      Nat.add_sub_cancel_left]
    simp [h255, h8, hi255]
  · refine codeBits_eq_replicate fun i hi => ?_
    simp [hi]

theorem streamBits_cons (b : Byte) (bs : List Byte) : streamBits (b :: bs) = byteBits b ++ streamBits bs := rfl

/-- Position 7 - m of byte j is bit 8j + m of the stream. -/
theorem getElem?_streamBits {bs : List Byte} {j m : Nat} {b : Byte} (hj : bs[j]? = some b) (hm : m < 8) :
    (streamBits bs)[8 * j + m]? = some (b.getLsbD (7 - m)) := by
  induction bs generalizing j with
  | nil => cases hj
  | cons c bs ih =>
    rw [streamBits_cons]
    cases j with
    | zero =>
      cases hj
      have h255 : 7 - m < 255 := by omega
      rw [Nat.mul_zero, Nat.zero_add, List.getElem?_append_left hm, byteBits_eq_codeBits, getElem?_codeBits 8 _ m hm]
      simp [h255]
    | succ j =>
      have hle : (byteBits c).length ≤ 8 * (j + 1) + m := by
        rw [length_byteBits]
        omega
      rw [List.getElem?_append_right hle, length_byteBits, show 8 * (j + 1) + m - 8 = 8 * j + m by omega]
      exact ih hj

/-- Zeros at the end do not show where a bit beyond the end reads as 0. -/
theorem getD_append_replicate_false (B : Bits) (k i : Nat) :
    (B ++ List.replicate k false).getD i false = B.getD i false := by
  rcases Nat.lt_or_ge i B.length with hi | hi
  · exact List.getD_append _ _ _ _ hi
  · rw [List.getD_append_right _ _ _ _ hi, List.getD_eq_default _ _ hi, List.getD_eq_getElem?_getD,
      List.getElem?_replicate]
    split <;> rfl

/-! # The words of the PACK unit with an operand -/

theorem cmdWord_byte_eq_append (op y : BitVec 8) : cmdWord op (y.setWidth 32) = op ++ (0#24 ++ y) := by
  rw [cmdWord, BitVec.setWidth_eq_append (by decide)]
  rfl

/-! # PKCLR and PKDEF (R140, R141) -/

/-- Settles O20: only the valid bits, ACC and NBITS are written. -/
theorem pkclrEmptiesTheTable : Obligations.PkclrEmptiesTheTable :=
  ⟨decode_encode .pkclr, fun _ => ⟨_, rfl, codeRead_codeInvalidateAll _, rfl⟩⟩

/-- Settles O21: the three clauses are the three branches of PKDEF. -/
theorem pkdefDefinesTheStagedCode : Obligations.PkdefDefinesTheStagedCode := by
  refine ⟨fun y => cmdWord_byte_eq_append 0x11 y ▸ decode_encode (.pkdef y), fun s y => ⟨?_, ?_, ?_⟩⟩
  · exact fun hovf => if_pos hovf
  · intro hovf hlen
    rw [exec, execPkdef, if_neg (ne_true_of_eq_false hovf), if_pos hlen]
    rfl
  · intro hovf hlen
    refine ⟨_, execPkdef_defines hovf hlen y, ?_, fun z hz => ?_, rfl⟩
    · rw [codeRead_codeWrite, if_pos rfl]
    · rw [codeRead_codeWrite, if_neg hz, codeRead_clearStaging]

/-! # What changes the code table (R142) -/

/-- The entry a successful PKDEF writes in state s. -/
def stagedEntry (s : State) : CodeEntry := { valid := true, len := s.stglen, bits := s.stg }

theorem exec_code_of_ne {i : Instr} {s t : State} (hclr : i ≠ .pkclr) (hdef : ∀ y, i ≠ .pkdef y)
    (h : exec i s = .next t) : t.code = s.code := by
  cases i with
  | pkclr => exact absurd rfl hclr
  | pkdef y => exact absurd rfl (hdef y)
  | pksym y => rw [execPksym_frame h]
  | pkflush => rw [execPkflush_frame h]
  | nop | cclr | cbit b | upclr | upins y | upstart n | upbyte b | upend =>
    rw [exec_nonpack_frame rfl h]
    rfl

theorem codeRead_of_pkdefSucceeds {w : CmdWord} {s t : State} {y : Symbol} (hw : pkdefSucceeds w s y)
    (h : accept w s = .next t) : codeRead t y = stagedEntry s := by
  obtain ⟨hd, hs, hovf, hlen⟩ := hw
  rw [accept_of_decode hs hd, execPkdef_defines hovf hlen] at h
  cases h
  rw [codeRead_codeWrite, if_pos rfl]
  rfl

/-- All that accepting a word can do to an entry: leave it as it is, or what PKCLR and a PKDEF that succeeds do. -/
theorem codeRead_of_accept {w : CmdWord} {s t : State} (h : accept w s = .next t) (y : Symbol) :
    codeRead t y = codeRead s y ∨ decode w = .cmd .pkclr ∧ (codeRead t y).valid = false ∨ pkdefSucceeds w s y := by
  rcases accept_cases w s with ⟨-, e⟩ | ⟨hs, ⟨-, e⟩ | ⟨i, hd, e⟩⟩ <;> rw [e] at h
  · cases h
    exact .inl rfl
  · cases h
    exact .inl rfl
  by_cases hclr : i = .pkclr
  · subst hclr
    rw [execPkclr_cases h, codeRead_codeInvalidateAll]
    exact .inr (.inl ⟨hd, rfl⟩)
  by_cases hdef : ∃ z, i = .pkdef z
  · obtain ⟨z, rfl⟩ := hdef
    rcases execPkdef_cases h with ⟨-, rfl⟩ | ⟨-, -, rfl⟩ | ⟨hovf, hlen, rfl⟩
    · exact .inl rfl
    · exact .inl rfl
    · by_cases hz : y = z
      · exact .inr (.inr ⟨hz ▸ hd, hs, hovf, hlen⟩)
      · rw [codeRead_codeWrite, if_neg hz]
        exact .inl rfl
  · exact .inl (codeRead_congr (exec_code_of_ne hclr (not_exists.1 hdef) h) y)

/-! ## Over a run, the last PKDEF that succeeds counts -/

/-- Word k of the run of ws from s meets state u, and is a PKDEF of y that succeeds there. -/
structure SucceedsAt (ws : List CmdWord) (s : State) (y : Symbol) (k : Nat) (u : State) : Prop where
  run : runWords (ws.take k) s = .next u
  word : ∃ w, ws[k]? = some w ∧ pkdefSucceeds w u y

theorem succeedsAt_iff {ws : List CmdWord} {s u : State} {y : Symbol} {k : Nat} :
    SucceedsAt ws s y k u ↔ ∃ pre w post,
      ws = pre ++ w :: post ∧ pre.length = k ∧ runWords pre s = .next u ∧ pkdefSucceeds w u y := by
  constructor
  · rintro ⟨hrun, w, hw, hsucc⟩
    obtain ⟨hk, rfl⟩ := List.getElem?_eq_some_iff.1 hw
    refine ⟨ws.take k, ws[k], ws.drop (k + 1), ?_, List.length_take_of_le hk.le, hrun, hsucc⟩
    rw [List.getElem_cons_drop, List.take_append_drop]
  · rintro ⟨pre, w, post, rfl, rfl, hrun, hsucc⟩
    exact ⟨by rwa [List.take_left], w, by simp, hsucc⟩

section SucceedsAt

variable {w : CmdWord} {ws : List CmdWord} {s t u v : State} {y : Symbol} {k : Nat}

theorem SucceedsAt.state_unique (h : SucceedsAt ws s y k u) (h' : SucceedsAt ws s y k v) : u = v :=
  Host.Outcome.next.inj (h.run.symm.trans h'.run)

theorem succeedsAt_cons_zero : SucceedsAt (w :: ws) s y 0 u ↔ s = u ∧ pkdefSucceeds w u y := by
  constructor
  · rintro ⟨hrun, w', hw, hsucc⟩
    cases hrun
    cases hw
    exact ⟨rfl, hsucc⟩
  · rintro ⟨rfl, hsucc⟩
    exact ⟨rfl, w, rfl, hsucc⟩

theorem succeedsAt_cons_succ (hv : accept w s = .next v) :
    SucceedsAt (w :: ws) s y (k + 1) u ↔ SucceedsAt ws v y k u := by
  have hrun : runWords ((w :: ws).take (k + 1)) s = runWords (ws.take k) v := by
    rw [List.take_succ_cons, runWords_cons, hv, andThen_next]
  exact ⟨fun ⟨h, hw⟩ => ⟨hrun ▸ h, hw⟩, fun ⟨h, hw⟩ => ⟨hrun ▸ h, hw⟩⟩

/-- After a run without PKCLR an entry is as before where no PKDEF of its Symbol succeeded, and holds what was staged at
the last one otherwise. -/
theorem codeRead_of_runWords (hws : ∀ w ∈ ws, decode w ≠ .cmd .pkclr) (h : runWords ws s = .next t) :
    ((∀ k u, ¬ SucceedsAt ws s y k u) ∧ codeRead t y = codeRead s y) ∨
      ∃ k u, SucceedsAt ws s y k u ∧ (∀ k' u', k < k' → ¬ SucceedsAt ws s y k' u') ∧
        codeRead t y = stagedEntry u := by
  induction ws generalizing s with
  | nil =>
    cases h
    exact .inl ⟨fun k u ⟨_, w, hw, _⟩ => (nomatch hw), rfl⟩
  | cons w ws ih =>
    obtain ⟨hw, hws⟩ := List.forall_mem_cons.1 hws
    obtain ⟨v, hv, hvt⟩ := andThen_eq_next h
    rcases ih hws hvt with ⟨hnone, hcode⟩ | ⟨k, u, hk, hlast, hcode⟩
    · have hlater (k : Nat) (u : State) : ¬ SucceedsAt (w :: ws) s y (k + 1) u := fun hu =>
        hnone k u ((succeedsAt_cons_succ hv).1 hu)
      by_cases hsucc : pkdefSucceeds w s y
      · refine .inr ⟨0, s, succeedsAt_cons_zero.2 ⟨rfl, hsucc⟩, fun k' u' hk' => ?_, ?_⟩
        · obtain ⟨k, rfl⟩ := Nat.exists_eq_succ_of_ne_zero hk'.ne'
          exact hlater k u'
        · rw [hcode, codeRead_of_pkdefSucceeds hsucc hv]
      · refine .inl ⟨fun k u hu => ?_, ?_⟩
        · cases k with
          | zero =>
            obtain ⟨rfl, hu⟩ := succeedsAt_cons_zero.1 hu
            exact hsucc hu
          | succ k => exact hlater k u hu
        · rcases codeRead_of_accept hv y with e | ⟨hd, -⟩ | hu
          · rw [hcode, e]
          · exact absurd hd hw
          · exact absurd hu hsucc
    · refine .inr ⟨k + 1, u, (succeedsAt_cons_succ hv).2 hk, fun k' u' hk' hu' => ?_, hcode⟩
      obtain ⟨j, rfl⟩ := Nat.exists_eq_succ_of_ne_zero (Nat.ne_zero_of_lt hk')
      exact hlast j u' (Nat.lt_of_succ_lt_succ hk') ((succeedsAt_cons_succ hv).1 hu')

end SucceedsAt

/-- Settles O22: at one word the change is that of PKCLR or of a PKDEF that succeeds, and over a run the last of these
PKDEFs counts. -/
theorem codeTableHoldsTheLastDefinition : Obligations.CodeTableHoldsTheLastDefinition := by
  refine ⟨fun w s t y h hne => ?_, fun ws s t y hinvalid hws h => ⟨⟨fun hvalid => ?_, ?_⟩, ?_⟩⟩
  · rcases codeRead_of_accept h y with e | hclr | hdef
    · exact absurd e hne
    · exact .inl hclr
    · exact .inr ⟨hdef, codeRead_of_pkdefSucceeds hdef h⟩
  · rcases codeRead_of_runWords (y := y) hws h with ⟨-, e⟩ | ⟨k, u, hk, -⟩
    · rw [e, hinvalid] at hvalid
      cases hvalid
    · obtain ⟨pre, w, post, e, -, hu⟩ := succeedsAt_iff.1 hk
      exact ⟨pre, w, post, u, e, hu⟩
  · rintro ⟨pre, w, post, u, e, hu⟩
    rcases codeRead_of_runWords (y := y) hws h with ⟨hnone, -⟩ | ⟨_, _, -, -, hcode⟩
    · exact absurd (succeedsAt_iff.2 ⟨pre, w, post, e, rfl, hu⟩) (hnone _ u)
    · rw [hcode]
      rfl
  · intro pre w post u e hrun hsucc hlater
    have hu := succeedsAt_iff.2 ⟨pre, w, post, e, rfl, hrun, hsucc⟩
    have hlast (k : Nat) (v : State) (hk : pre.length < k) : ¬ SucceedsAt ws s y k v := fun hv => by
      obtain ⟨pre', w', post', e', rfl, hrun', hsucc'⟩ := succeedsAt_iff.1 hv
      exact hlater pre' w' post' v e' hk hrun' hsucc'
    rcases codeRead_of_runWords (y := y) hws h with ⟨hnone, -⟩ | ⟨k, v, hv, hlast', hcode⟩
    · exact absurd hu (hnone _ u)
    · obtain rfl : k = pre.length :=
        Nat.le_antisymm (Nat.not_lt.1 fun hk => hlast k v hk hv) (Nat.not_lt.1 fun hk => hlast' _ u hk hu)
      rw [hcode, hv.state_unique hu]
      rfl

/-! # Packing (R143 to R145) -/

/-- The bits of the code of Symbol y. -/
def codeOf (s : State) (y : Symbol) : Bits := codeBits (codeRead s y).len.toNat (codeRead s y).bits

theorem codeOf_congr {s t : State} (h : t.code = s.code) : codeOf t = codeOf s := by
  funext y
  rw [codeOf, codeOf, codeRead_congr h]

theorem execPksym_defined {s : State} {y : Symbol} (hv : (codeRead s y).valid = true) :
    exec (.pksym y) s = .next (packBits (codeOf s y) s) := if_pos hv

/-- Settles O23: the loop over the code's bits gathers them after the pending ones. -/
theorem pksymAppendsTheCode : Obligations.PksymAppendsTheCode := by
  refine ⟨fun y => cmdWord_byte_eq_append 0x12 y ▸ decode_encode (.pksym y), fun s y => ⟨fun hv => ?_, fun hv => ?_⟩⟩
  · exact if_neg (ne_true_of_eq_false hv)
  · obtain ⟨out, hout, hbits⟩ := packBits_spec (codeOf s y) s
    obtain ⟨hbytes, hpending⟩ := packBits_counts hbits
    rw [codeOf, length_codeBits] at hbytes hpending
    exact ⟨_, out, execPksym_defined hv, hout ▸ packBits_frame _ s, hbits, hbytes, hpending, packBits_acc _⟩

theorem execPkflush_pending {s : State} (hn : s.nbits ≠ 0) :
    exec .pkflush s = .next { s with acc := 0, nbits := 0, pkOut := s.pkOut ++ [s.acc <<< (8 - s.nbits.toNat)] } :=
  if_neg hn

theorem byteBits_lastByte (s : State) : byteBits (s.acc <<< (8 - s.nbits.toNat)) =
    pendingBits s ++ List.replicate (8 - s.nbits.toNat) false :=
  byteBits_shiftLeft s.acc s.nbits.isLt.le

/-- Settles O24: the shift of ACC brings the pending bits to the top of the byte. -/
theorem pkflushPadsTheLastByte : Obligations.PkflushPadsTheLastByte :=
  ⟨decode_encode .pkflush, fun s => ⟨fun hn => if_pos hn,
    fun hn => ⟨_, execPkflush_pending hn, byteBits_lastByte s⟩⟩⟩

/-- PKFLUSH brings the pending bits out, with fewer than eight zeros after them. -/
theorem execPkflush_bits {s t : State} (h : execPkflush s = .next t) :
    ∃ out k, t.pkOut = s.pkOut ++ out ∧ k < 8 ∧ streamBits out = pendingBits s ++ List.replicate k false := by
  rcases execPkflush_cases h with ⟨hn, rfl⟩ | ⟨hn, rfl⟩
  · refine ⟨[], 0, (List.append_nil _).symm, by decide, ?_⟩
    rw [pendingBits_of_nbits_zero hn]
    rfl
  · have hpos : s.nbits.toNat ≠ 0 := fun e => hn (BitVec.eq_of_toNat_eq e)
    refine ⟨[s.acc <<< (8 - s.nbits.toNat)], 8 - s.nbits.toNat, rfl, by omega, ?_⟩
    rw [streamBits_singleton, byteBits_lastByte]

/-! ## The bits that a run packs

A run packs B when the bytes it emits and the bits it leaves pending are the bits pending before and then B. This
composes, so the packing function is an induction over the words of the run. -/

/-- From s to t the bits B are packed, and the code table is as before. -/
structure Packs (s : State) (B : Bits) (t : State) : Prop where
  code : t.code = s.code
  bits : ∃ out, t.pkOut = s.pkOut ++ out ∧ streamBits out ++ pendingBits t = pendingBits s ++ B

section Packs

variable {s t u : State} {B C : Bits}

/-- Where the PACK state is as before, no bits are packed. -/
theorem Packs.of_withPackOf (h : t = withPackOf s t) : Packs s [] t := by
  rw [h]
  exact ⟨rfl, [], (List.append_nil _).symm, (List.append_nil _).symm⟩

theorem Packs.trans (h : Packs s B t) (h' : Packs t C u) : Packs s (B ++ C) u := by
  obtain ⟨out, hout, hbits⟩ := h.bits
  obtain ⟨out', hout', hbits'⟩ := h'.bits
  refine ⟨h'.code.trans h.code, out ++ out', by rw [hout', hout, List.append_assoc], ?_⟩
  rw [streamBits_append, List.append_assoc, hbits', ← List.append_assoc, hbits, List.append_assoc]

theorem Packs.pksym {y : Symbol} (hv : (codeRead s y).valid = true) (h : exec (.pksym y) s = .next t) :
    Packs s (codeOf s y) t := by
  rw [execPksym_defined hv] at h
  cases h
  exact ⟨by rw [packBits_frame], packBits_spec _ s⟩

theorem packedSymbol?_of_pksym {w : CmdWord} {y : Symbol} (hw : decode w = .cmd (.pksym y)) :
    packedSymbol? w = some y := by
  rw [packedSymbol?, hw]

theorem packedSymbol?_of_forall_ne {w : CmdWord} (hw : ∀ y, decode w ≠ .cmd (.pksym y)) : packedSymbol? w = none := by
  rw [packedSymbol?]
  split
  next y hd => exact absurd hd (hw y)
  next => rfl

/-- A word whose command, if it is a PACK command, is the PKSYM of a Symbol with a code. -/
theorem accept_packs {w : CmdWord} (hw : ∀ i, decode w = .cmd i → isPackCommand i = true → ∃ y, i = .pksym y)
    (hvalid : ∀ y, packedSymbol? w = some y → (codeRead s y).valid = true) (hs : s.err.getLsbD 6 = false)
    (h : accept w s = .next t) : Packs s ((packedSymbol? w).toList.flatMap (codeOf s)) t := by
  rcases accept_cases w s with ⟨hf, -⟩ | ⟨-, ⟨⟨why, hd⟩, e⟩ | ⟨i, hd, e⟩⟩
  · rw [hs] at hf
    cases hf
  · rw [e] at h
    cases h
    rw [packedSymbol?_of_forall_ne (by simp [hd])]
    exact .of_withPackOf rfl
  · rw [e] at h
    cases hi : isPackCommand i with
    | true =>
      obtain ⟨y, rfl⟩ := hw i hd hi
      have hy := packedSymbol?_of_pksym hd
      rw [hy, Option.toList_some, List.flatMap_singleton]
      exact .pksym (hvalid y hy) h
    | false =>
      have hne : ∀ y, i ≠ .pksym y := by
        rintro y rfl
        cases hi
      rw [packedSymbol?_of_forall_ne (by simpa [hd] using hne)]
      exact .of_withPackOf (exec_nonpack_frame hi h)

/-- A run whose PACK commands are PKSYMs of Symbols with codes packs these codes in order. -/
theorem runWords_packs {ws : List CmdWord}
    (hws : ∀ w ∈ ws, ∀ i, decode w = .cmd i → isPackCommand i = true → ∃ y, i = .pksym y)
    (hvalid : ∀ y ∈ ws.filterMap packedSymbol?, (codeRead s y).valid = true)
    (h : runWords ws s = .next t) (ht : t.err.getLsbD 6 = false) :
    Packs s ((ws.filterMap packedSymbol?).flatMap (codeOf s)) t := by
  induction ws generalizing s with
  | nil =>
    cases h
    exact .of_withPackOf rfl
  | cons w ws ih =>
    have hs : s.err.getLsbD 6 = false :=
      Bool.eq_false_of_not_eq_true fun hs => ne_true_of_eq_false ht (runWords_err_mono h hs)
    obtain ⟨hw, hws⟩ := List.forall_mem_cons.1 hws
    obtain ⟨u, hu, hut⟩ := andThen_eq_next h
    rw [List.filterMap_eq_flatMap_toList, List.flatMap_cons, ← List.filterMap_eq_flatMap_toList] at hvalid ⊢
    have hfirst := accept_packs hw (fun y hy => hvalid y (by simp [hy])) hs hu
    have hrest := ih hws (fun y hy => by
      rw [codeRead_congr hfirst.code]
      exact hvalid y (List.mem_append_right _ hy)) hut
    rw [codeOf_congr hfirst.code] at hrest
    rw [List.flatMap_append]
    exact hfirst.trans hrest

/-- PKFLUSH after a stream: all its bits are out, in whole bytes, and what was out before is their whole bytes without
the zeros. -/
theorem Packs.pkflush (h : Packs s B t) (hs : s.nbits = 0) (hu : execPkflush t = .next u) :
    ∃ out k, u.pkOut = s.pkOut ++ out ∧ k < 8 ∧ streamBits out = B ++ List.replicate k false ∧
      t.pkOut = s.pkOut ++ out.take (B.length / 8) := by
  obtain ⟨out, hout, hbits⟩ := h.bits
  obtain ⟨pad, k, hpad, hk, hpbits⟩ := execPkflush_bits hu
  rw [pendingBits_of_nbits_zero hs, List.nil_append] at hbits
  have hlen : out.length = B.length / 8 := by
    have hl := congrArg List.length hbits
    rw [List.length_append, length_streamBits, length_pendingBits] at hl
    have := t.nbits.isLt
    omega
  refine ⟨out ++ pad, k, by rw [hpad, hout, List.append_assoc], hk, ?_, ?_⟩
  · rw [streamBits_append, hpbits, ← List.append_assoc, hbits]
  · rw [List.take_left' hlen, hout]

end Packs

/-! ## PACK commands always complete -/

theorem runCmds_pack_completes {is : List Instr} (his : ∀ i ∈ is, isPackCommand i = true ∧ ∀ y, i ≠ .pkdef y)
    {s : State} (hs : s.err.getLsbD 6 = false) : ∃ t, runCmds is s = .next t ∧ t.err.getLsbD 6 = false := by
  induction is generalizing s with
  | nil => exact ⟨s, rfl, hs⟩
  | cons i is ih =>
    obtain ⟨⟨hi, hdef⟩, his⟩ := List.forall_mem_cons.1 his
    obtain ⟨v, m, hexec⟩ := exec_pack_eq hi hdef s
    have hne : ∀ y, i ≠ .upins y := by
      rintro y rfl
      cases hi
    obtain ⟨t, ht, ht6⟩ := ih his (exec_not_fatal (hexec s) hne hs)
    exact ⟨t, (runCmds_cons_eq_next hs).2 ⟨_, hexec s, ht⟩, ht6⟩

/-- Settles O25: the run packs B, the PKFLUSH brings B out with zeros after it, and PACK commands always complete. -/
theorem packingFunction : Obligations.PackingFunction := by
  intro s ws syms B hn hs hws hsyms hvalid hB
  refine ⟨fun t u ht ht6 hu => ?_, fun e => ?_⟩
  · have hpacks : Packs s B t := by
      rw [hsyms] at hvalid hB
      exact hB ▸ runWords_packs hws hvalid ht ht6
    obtain ⟨v, hv, hvu⟩ := (runCmds_cons_eq_next ht6).1 hu
    cases hvu
    obtain ⟨out, k, hout, hk, hbits, hbefore⟩ := hpacks.pkflush hn hv
    refine ⟨out, hout, ?_, fun j b hj m hm => ?_, hbefore⟩
    · have hl := congrArg List.length hbits
      rw [length_streamBits, List.length_append, List.length_replicate] at hl
      omega
    · have hbit := getElem?_streamBits hj hm
      rw [hbits] at hbit
      rw [← getD_append_replicate_false B k, List.getD_eq_getElem?_getD, hbit, Option.getD_some]
  · obtain ⟨t, ht, ht6⟩ := runCmds_pack_completes (is := syms.map .pksym)
      (List.forall_mem_map.2 fun _ _ => ⟨rfl, nofun⟩) hs
    obtain ⟨u, hu, -⟩ := runCmds_pack_completes (is := [.pkflush]) (List.forall_mem_singleton.2 ⟨rfl, nofun⟩) ht6
    rw [runCmds, List.map_map] at ht
    exact ⟨t, u, e ▸ ht, ht6, hu⟩

/-! ## One Symbol only (R147) -/

theorem filterMap_packedSymbol?_pksyms (syms : List Symbol) :
    (syms.map fun y => encode (.pksym y)).filterMap packedSymbol? = syms := by
  rw [List.filterMap_map]
  exact (List.filterMap_congr fun y _ => packedSymbol?_of_pksym (decode_encode (.pksym y))).trans List.filterMap_some

theorem byte_eq_zero {b : Byte} (h : ∀ m, m < 8 → b.getLsbD (7 - m) = false) : b = 0 := by
  refine BitVec.eq_of_getLsbD_eq fun i hi => ?_
  have hbit := h (7 - i) (by omega)
  rw [show 7 - (7 - i) = i by omega] at hbit
  rw [hbit]
  exact BitVec.getLsbD_zero.symm

/-- Settles O26: the packing function on n zero bits. -/
theorem singleSymbolStreamPacksToZeros : Obligations.SingleSymbolStreamPacksToZeros := by
  intro s y n hn hs hy
  have hcode : codeOf s y = [false] := by
    rw [codeOf, hy]
    rfl
  obtain ⟨hbytes, hcompletes⟩ := packingFunction s ((List.replicate n y).map fun y => encode (.pksym y))
    (List.replicate n y) (List.replicate n false) hn hs
    (List.forall_mem_map.2 fun z _ i hi _ => ⟨z, Decoded.cmd.inj (hi.symm.trans (decode_encode _))⟩)
    (filterMap_packedSymbol?_pksyms _).symm
    (fun z hz => by rw [List.eq_of_mem_replicate hz, hy])
    (by
      change _ = (List.replicate n y).flatMap (codeOf s)
      rw [List.flatMap_replicate, hcode, List.flatten_replicate_singleton])
  obtain ⟨t, u, ht, ht6, hu⟩ := hcompletes rfl
  obtain ⟨out, hout, hlen, hzero, -⟩ := hbytes t u ht ht6 hu
  refine ⟨u, ?_, ?_⟩
  · rw [List.map_replicate] at ht
    rw [runCmds_append, runCmds, List.map_replicate, ht, andThen_next, hu]
  · rw [List.length_replicate] at hlen
    rw [hout, List.eq_replicate_iff.2 ⟨hlen, fun b hb => ?_⟩]
    obtain ⟨j, hj⟩ := List.mem_iff_getElem?.1 hb
    refine byte_eq_zero fun m hm => ?_
    rw [hzero j b hj m hm]
    exact getD_append_replicate_false [] n _

end Sys2Proof.Machine

namespace Sys2Proof.Machine

/-! # The commands of the UNPACK unit in one step: UPCLR, UPSTART, UPEND (R161, R164, R170) -/

/-- Settles O31: the word is that of UPSTART, and the two clauses are the two values of UP_STATE. -/
theorem upstartBeginsARun : Obligations.UpstartBeginsARun := by
  refine ⟨fun n => decode_encode (.upstart n), fun s n => ⟨?_, fun hn => ?_⟩⟩
  · rintro rfl
    rfl
  · rw [exec, execUpstart, if_neg hn]
    rfl

/-- Settles O33: the word is that of UPEND, and the two clauses are its two branches. -/
theorem upendTruncatesARun : Obligations.UpendTruncatesARun :=
  ⟨decode_encode .upend, fun _ => ⟨fun hr => congrArg Host.Outcome.next (if_pos hr),
    fun hr => congrArg Host.Outcome.next (if_neg hr)⟩⟩

/-- Where the root is no leaf and has no children there is no code. -/
theorem no_code_of_bare_root {s : State} (hleaf : (s.nodeAt 0).leaf = false) (hchild : ∀ b, s.childAt 0 b = 0)
    (c : Bits) (y : Symbol) : ¬ HasCode s c y := by
  rintro ⟨h, hpath, hl, -⟩
  cases c with
  | nil =>
    cases hpath
    rw [hleaf] at hl
    cases hl
  | cons b c =>
    rw [follow, if_pos (hchild b)] at hpath
    cases hpath

/-- Settles O27: UPCLR clears the root and frees every other node by setting NEXT_FREE. -/
theorem upclrEmptiesTheTree : Obligations.UpclrEmptiesTheTree := by
  refine ⟨decode_encode .upclr, fun s => ⟨fun hr => if_pos hr, fun hr hw => ?_⟩⟩
  have hnode := nodeAt_nodeModify (s := { s with nextFree := 1, pos := root }) hw root Node.cleared
  have hroot := hnode 0
  rw [root_toNat, if_pos rfl] at hroot
  refine ⟨_, if_neg hr, ?_, ?_, ?_, ?_, fun h hh => ?_, no_code_of_bare_root ?_ fun b => ?_, rfl⟩
  · rw [hroot]; rfl
  · rw [hroot]; rfl
  · rw [hroot]; rfl
  · rw [hroot]; rfl
  · rw [hnode, root_toNat, if_neg hh]; rfl
  · rw [hroot]; rfl
  · rw [State.childAt, hroot, Node.child_cleared]; rfl

/-! # UPINS (R162, R163) -/

/-- Settles O28: the three clauses are the first three branches of UPINS. -/
theorem upinsRefusesInTheFixedOrder : Obligations.UpinsRefusesInTheFixedOrder := by
  refine ⟨fun y => cmdWord_byte_eq_append 0x21 y ▸ decode_encode (.upins y), fun s y => ⟨?_, ?_, ?_⟩⟩
  · exact fun hr => if_pos hr
  · intro hr hovf
    rw [exec, execUpins, if_neg hr, if_pos hovf]
    rfl
  · intro hr hovf hl
    rw [exec, execUpins, if_neg hr, if_neg (ne_true_of_eq_false hovf), if_pos hl]
    rfl

section Upins

variable {s : State} {p : Handle}

/-- UPINS that passes checks 1 to 3. -/
theorem exec_upins_checked (hr : s.upState ≠ .run) (hovf : s.stgovf = false) (hl : s.stglen ≠ 0) (y : Symbol) :
    exec (.upins y) s = insertCode y (stagedBits s) (clearStaging s) := by
  rw [exec, execUpins, if_neg hr, if_neg (ne_true_of_eq_false hovf), if_neg hl]

/-- Check 4 of UPINS. -/
theorem insertCode_conflict {c : Bits} (hd : descend s root c = .conflict) (y : Symbol) :
    insertCode y c s = .next (raise .conflict s) := by
  rw [insertCode, hd]

/-- Check 5 of UPINS, and the insertion. -/
theorem insertCode_absent {c rest : Bits} (hd : descend s root c = .absent p rest) (y : Symbol) :
    insertCode y c s = if s.nextFree.toNat + rest.length > s.cfg.nNodes then .next (raise .alloc s)
      else .next (growPath y p rest s) := by
  rw [insertCode, hd]

/-- Where the descent of a code ends at an absent child and the arena has room, the code can be inserted. -/
theorem TreeInv.insertion_of_absent (ht : TreeInv s) {c rest : Bits} (hc : c ≠ [])
    (hd : descend s root c = .absent p rest) (hroom : s.nextFree.toNat + rest.length ≤ s.cfg.nNodes) :
    ∃ d b bs, rest = b :: bs ∧ Insertion s c p d b bs := by
  rcases ht.descend_root c hc with ⟨hd', -⟩ | ⟨_, d, b, bs, hd', hsplit, hpath, hinner, habs, -⟩ <;>
    cases hd.symm.trans hd'
  exact ⟨d, b, bs, rfl, hsplit, hpath, hinner, habs, hroom⟩

end Upins

/-- Settles O29: the descent tells a conflict from an absent child, and the bits left where it ends are as many as the
prefixes of the code that are no node yet. -/
theorem upinsInsertsTheCodeInTheAbstractTree : Obligations.UpinsInsertsTheCodeInTheAbstractTree := by
  rintro s y _ m hi hr hovf hl rfl hm
  have hexec := exec_upins_checked hr hovf hl y
  rcases hi.tree.descend_root _ (stagedBits_ne_nil hl) with
    ⟨hd, hconf⟩ | ⟨p, d, b, bs, hd, hsplit, hpath, hinner, habs, hconf⟩
  · rw [← descend_clearStaging] at hd
    exact ⟨fun _ => hexec.trans (insertCode_conflict hd y), fun h => absurd hconf h, fun h => absurd hconf h,
      fun h => absurd hconf h⟩
  · obtain rfl : m = (b :: bs).length := hm.trans (hi.tree.ncard_new hsplit hpath habs)
    refine ⟨fun h => absurd h hconf, fun _ => ⟨Nat.succ_pos _, ?_⟩, fun _ hfull => ?_, fun _ hroom => ?_⟩
    · rw [hsplit, List.length_append]
      exact Nat.le_add_left _ _
    · rw [hexec, insertCode_absent ((descend_clearStaging s _ _).trans hd)]
      exact if_pos hfull
    · exact execUpins_insertion hi hr hovf hl hd ⟨hsplit, hpath, hinner, habs, hroom⟩ y

/-- Settles O30: the arena after the insertion is that of `growPath_nodeAt`. -/
theorem upinsWritesOnlyTheNewPath : Obligations.UpinsWritesOnlyTheNewPath := by
  intro s y p b bs hi hr hovf hl hd hroom
  obtain ⟨-, -, -, hN⟩ := hi.cfg
  obtain ⟨d, _, _, ⟨⟩, hins⟩ := hi.clearStaging.tree.insertion_of_absent (stagedBits_ne_nil hl) hd hroom
  have hg := hins.canGrow hi.clearStaging.tree hN
  obtain ⟨hold, hp, hnew⟩ := growPath_nodeAt hg.canonical y p b bs hg.lt hg.room
  have hnf := growPath_nextFree y p (b :: bs) hg.room
  refine ⟨growPath y p (b :: bs) (clearStaging s), ?_, growPath_frame _ _ _ _, hnf, fun h hne hh => ?_, ?_, ?_, ?_, ?_,
    fun i hlt => ?_⟩
  · rw [exec_upins_checked hr hovf hl, insertCode_absent hd]
    exact if_neg (Nat.not_lt.2 hroom)
  · rw [hnf] at hh
    exact hold h hne hh
  · rw [hp, Node.child_setChild, if_pos rfl]
    refine (BitVec.toNat_ofNat _ _).trans (Nat.mod_eq_of_lt ?_)
    have := hg.room
    rw [List.length_cons] at this
    omega
  · rw [hp, Node.child_setChild, if_neg (by simp)]
    rfl
  · rw [hp, Node.leaf_setChild]
    rfl
  · rw [hp, Node.sym_setChild]
    rfl
  · obtain ⟨hleaf, hsym, hchild⟩ := hnew i hlt
    exact ⟨(Bool.eq_iff_iff.1 hleaf).trans decide_eq_true_iff, hsym, hchild⟩

end Sys2Proof.Machine

namespace Sys2Proof.Machine

/-! # The walk of UPBYTE (R166, R167) -/

theorem emitLeaf_cases (y : Symbol) (s : State) :
    ((emitLeaf y s).upState = s.upState ∨
      (emitLeaf y s).upState = .complete ∧ (emitLeaf y s).decoded = (emitLeaf y s).expected) ∧
    (emitLeaf y s).pos = root := by
  rw [emitLeaf]
  split
  case isTrue heq => exact ⟨.inr ⟨rfl, heq⟩, rfl⟩
  case isFalse => exact ⟨.inl rfl, rfl⟩

/-- Where UP_STATE stands after a bit of the walk, or after some bits of it, that the arena of s decides (R171). -/
def WalkedTo (s t : State) : Prop :=
  t.upState = .run ∨ (t.upState = .complete ∧ t.decoded = t.expected ∧ t.pos = root) ∨
    (t.upState = .invalid ∧ ∃ x, s.childAt t.pos.toNat x = 0)

theorem walkBit_walkedTo {s t : State} {x : Bool} (hr : s.upState = .run) (h : walkBit x s = .next t) :
    WalkedTo s t := by
  rw [walkBit] at h
  split at h
  · cases h
  next nd hnd =>
    obtain ⟨-, rfl⟩ := nodeRead_eq_some hnd
    split at h
    next hnil =>
      cases h
      exact .inr (.inr ⟨rfl, x, congrArg BitVec.toNat hnil⟩)
    next =>
      split at h
      · cases h
      next ch _ =>
        dsimp only at h
        split at h
        · cases h
          obtain ⟨hrun | ⟨hcomplete, hcount⟩, hpos⟩ :=
            emitLeaf_cases ch.sym { s with bitpos := s.bitpos + 1, pos := (s.nodeAt s.pos.toNat).child x }
          · exact .inl (hrun.trans hr)
          · exact .inr (.inl ⟨hcomplete, hcount, hpos⟩)
        · cases h
          exact .inl hr

theorem walkBits_walkedTo {s t : State} {xs : Bits} (hr : s.upState = .run) (h : walkBits xs s = .next t) :
    WalkedTo s t := by
  induction xs generalizing s with
  | nil =>
    cases h
    exact .inl hr
  | cons x xs ih =>
    rw [walkBits, if_pos hr] at h
    obtain ⟨u, hu, hut⟩ := andThen_eq_next h
    have hnode : u.node = s.node := by rw [walkBit_frame hu]
    by_cases hur : u.upState = .run
    · have hwalk := ih hur hut
      simpa only [WalkedTo, childAt_congr hnode] using hwalk
    · rw [walkBits_of_ne_run xs hur] at hut
      cases hut
      exact walkBit_walkedTo hr hu

theorem walkBits_append (xs zs : Bits) (s : State) :
    walkBits (xs ++ zs) s = andThen (walkBits xs s) (walkBits zs) := by
  induction xs generalizing s with
  | nil => rfl
  | cons x xs ih =>
    rw [List.cons_append, walkBits, walkBits, andThen_ite, andThen_assoc]
    split
    case isTrue => exact congrArg (andThen (walkBit x s)) (funext ih)
    case isFalse hr => rw [andThen_next, walkBits_of_ne_run zs hr]

/-- Settles O32: the walk over the bits of one byte is the greedy parse of `walkBits_parse`. -/
theorem upbyteParsesTheNextByte : Obligations.UpbyteParsesTheNextByte := by
  refine ⟨fun b => cmdWord_byte_eq_append 0x23 b ▸ decode_encode (.upbyte b), fun s b => walkBits_of_ne_run _, ?_⟩
  rintro s b q _ hi hr hq rfl
  have hbitpos : s.bitpos.toNat ≤ s.decoded.toNat * s.cfg.maxLen + q.length := by
    obtain ⟨q', hq', hle⟩ := hi.walk hr
    rwa [hi.tree.shape.follow_inj hq hq']
  obtain ⟨t, ys, p, hwalk, hparse, hout, hdec, hpos, cs, q', hcs, htake, hq'⟩ :=
    walkBits_parse hi hr hq hbitpos (byteBits b)
  refine ⟨t, ys, p, cs, q', hwalk, hparse, hout, hdec, hpos, hcs, htake, hq', fun hcomplete => ?_, walkBits_frame hwalk⟩
  rcases walkBits_walkedTo hr hwalk with h | ⟨-, -, hroot⟩ | ⟨h, -⟩
  · rw [hcomplete] at h
    cases h
  · exact hroot
  · rw [hcomplete] at h
    cases h

/-! # The state machine of UP_STATE (R171) -/

/-- The commands that do not drive a decode run leave UP_STATE as it is. -/
theorem exec_upState_of_ne {i : Instr} {s t : State} (h : exec i s = .next t) (hstart : ∀ n, i ≠ .upstart n)
    (hbyte : ∀ b, i ≠ .upbyte b) (hend : i ≠ .upend) : t.upState = s.upState := by
  cases i with
  | nop => rw [execNop_cases h]
  | cclr => rw [execCclr_cases h]; rfl
  | cbit b => rw [execCbit_cases h, stageBit_frame]
  | pkclr | pkdef y | pksym y | pkflush => rw [exec_pack_frame rfl h]; rfl
  | upclr => rw [execUpclr_frame h]
  | upins y => rw [execUpins_frame h]
  | upstart n => exact absurd rfl (hstart n)
  | upbyte b => exact absurd rfl (hbyte b)
  | upend => exact absurd rfl hend

/-- UPINS and UPCLR are refused during a run (R195). -/
theorem exec_busy {i : Instr} {s t : State} (hi : i = .upclr ∨ ∃ y, i = .upins y) (hr : s.upState = .run)
    (h : exec i s = .next t) : t = raise .busy s ∨ t = raise .busy (clearStaging s) := by
  rcases hi with rfl | ⟨y, rfl⟩
  · rw [exec, execUpclr, if_pos hr] at h
    cases h
    exact .inl rfl
  · rw [exec, execUpins, if_pos hr] at h
    cases h
    exact .inr rfl

/-- Outside RUN, UPBYTE and UPEND do nothing. -/
theorem exec_feed_of_ne_run {i : Instr} {s : State} (hi : (∃ b, i = .upbyte b) ∨ i = .upend) (hr : s.upState ≠ .run) :
    exec i s = .next s := by
  rcases hi with ⟨b, rfl⟩ | rfl
  · exact walkBits_of_ne_run _ hr
  · exact (upendTruncatesARun.2 s).2 hr

theorem exec_upend_of_run {s : State} (hr : s.upState = .run) :
    exec .upend s = .next { s with upState := .truncated } :=
  (upendTruncatesARun.2 s).1 hr

/-- No command brings UP_STATE back to IDLE. -/
theorem idle_before_exec {i : Instr} {s t : State} (h : exec i s = .next t) (ht : t.upState = .idle) :
    s.upState = .idle := by
  cases i with
  | upstart n =>
    cases h
    dsimp only at ht
    split at ht <;> cases ht
  | upbyte b =>
    by_cases hr : s.upState = .run
    · rcases walkBits_walkedTo hr h with e | ⟨e, -⟩ | ⟨e, -⟩ <;> rw [ht] at e <;> cases e
    · rw [exec_feed_of_ne_run (.inl ⟨b, rfl⟩) hr] at h
      cases h
      exact ht
  | upend =>
    rcases execUpend_cases h with ⟨-, rfl⟩ | ⟨-, rfl⟩
    · cases ht
    · exact ht
  | nop | cclr | cbit b | pkclr | pkdef y | pksym y | pkflush | upclr | upins y =>
    rw [← exec_upState_of_ne h nofun nofun nofun, ht]

/-- Settles O43: the columns of the table one by one. -/
theorem upStateFollowsTheTable : Obligations.UpStateFollowsTheTable := by
  refine ⟨rfl, fun w s hs => accept_of_fatal hs w, fun i s t h => ⟨?_, ?_, ?_, fun hi hr => ?_, fun hi hr => ?_,
    exec_upState_of_ne h, idle_before_exec h⟩⟩
  · rintro n rfl
    cases h
    rfl
  · rintro b rfl hr
    rcases walkBits_walkedTo hr h with hrun | ⟨hcomplete, hcount, -⟩ | hinvalid
    · exact .inl hrun
    · exact .inr (.inl ⟨hcomplete, hcount⟩)
    · exact .inr (.inr hinvalid)
  · rintro rfl hr
    rw [exec_upend_of_run hr] at h
    cases h
    rfl
  · rw [exec_feed_of_ne_run hi hr] at h
    cases h
    rfl
  · rcases exec_busy hi hr h with rfl | rfl <;> exact ⟨rfl, rfl⟩

/-! # The greedy parse is unique (R169) -/

section Parse

variable {K : Bits → Symbol → Prop}

theorem IsCodePrefix.of_prefix {p q : Bits} (hq : IsCodePrefix K q) (hp : p <+: q) : IsCodePrefix K p := by
  obtain ⟨c, y, hc, hqc⟩ := hq
  exact ⟨c, y, hc, hp.trans hqc⟩

/-- No code lies on the path to a node, unless it ends there. -/
theorem PrefixFree.code_eq_of_prefix (hK : PrefixFree K) {c q : Bits} {y : Symbol} (hc : K c y) (hcq : c <+: q)
    (hq : q = [] ∨ IsCodePrefix K q) : c = q := by
  rcases hq with rfl | ⟨c', y', hc', hqc'⟩
  · exact List.prefix_nil.1 hcq
  · obtain ⟨rfl, -⟩ := hK c y c' y' hc hc' (hcq.trans hqc')
    exact hcq.eq_of_length_le hqc'.length_le

/-- Of two beginnings of the same bits, either the first begins with the second, or the second begins with the first and
its next bit. -/
theorem prefix_or_snoc_prefix {q c rest zs : Bits} {b : Bool} (h : q ++ b :: rest = c ++ zs) :
    c <+: q ∨ q ++ [b] <+: c := by
  have hc : c <+: q ++ b :: rest := ⟨zs, h.symm⟩
  have hq : q ++ [b] <+: q ++ b :: rest := ⟨rest, by simp⟩
  rcases Nat.lt_or_ge q.length c.length with hlt | hge
  · exact .inr (List.prefix_of_prefix_length_le hq hc (by simpa using hlt))
  · exact .inl (List.prefix_of_prefix_length_le hc (List.prefix_append _ _) hge)

/-- The bits xs begin with no code, and the parse ends in state v after p of them: at a bit that leads outside the
prefixes of the codes, or where the bits end. -/
inductive ParseStops (K : Bits → Symbol → Prop) : Bits → Nat → UpState → Prop
  | invalid (q : Bits) (b : Bool) (xs : Bits) : (q = [] ∨ IsCodePrefix K q) → (∀ y, ¬ K q y) →
      ¬ IsCodePrefix K (q ++ [b]) → ParseStops K (q ++ b :: xs) q.length .invalid
  | more (xs : Bits) : (xs = [] ∨ IsCodePrefix K xs) → (∀ y, ¬ K xs y) → ParseStops K xs xs.length .run

/-- All that a parse with a Symbol still expected can be. -/
theorem Parse.cases_succ {n p : Nat} {xs : Bits} {ys : List Symbol} {v : UpState} (h : Parse K (n + 1) xs ys p v) :
    (∃ c y xs' ys' p', xs = c ++ xs' ∧ ys = y :: ys' ∧ p = c.length + p' ∧ K c y ∧ Parse K n xs' ys' p' v) ∨
      (ys = [] ∧ ParseStops K xs p v) := by
  cases h with
  | code n c y xs ys p v hc hrest => exact .inl ⟨c, y, xs, ys, p, rfl, rfl, rfl, hc, hrest⟩
  | invalid n q b xs hq hnone hb => exact .inr ⟨rfl, .invalid q b xs hq hnone hb⟩
  | more n xs hxs hnone => exact .inr ⟨rfl, .more xs hxs hnone⟩

/-- A parse does not stop where a code follows. -/
theorem ParseStops.not_code (hK : PrefixFree K) {xs : Bits} {p : Nat} {v : UpState} (h : ParseStops K xs p v)
    {c : Bits} {y : Symbol} (hc : K c y) : ¬ c <+: xs := by
  intro hcxs
  cases h with
  | invalid q b rest hq hnone hb =>
    obtain ⟨zs, hzs⟩ := hcxs
    rcases prefix_or_snoc_prefix hzs.symm with hcq | hqc
    · exact hnone y (hK.code_eq_of_prefix hc hcq hq ▸ hc)
    · exact hb ⟨c, y, hc, hqc⟩
  | more _ hxs hnone => exact hnone y (hK.code_eq_of_prefix hc hcxs hxs ▸ hc)

/-- A node is not on a path past a bit that leads outside the prefixes of the codes. -/
theorem not_snoc_prefix_of_node {q r : Bits} {b : Bool} (hb : ¬ IsCodePrefix K (q ++ [b]))
    (hr : r = [] ∨ IsCodePrefix K r) : ¬ q ++ [b] <+: r := by
  intro hqr
  rcases hr with rfl | hr
  · exact absurd (List.prefix_nil.1 hqr) (by simp)
  · exact hb (hr.of_prefix hqr)

theorem ParseStops.unique {xs : Bits} {p p' : Nat} {v v' : UpState} (h : ParseStops K xs p v)
    (h' : ParseStops K xs p' v') : p = p' ∧ v = v' := by
  cases h with
  | invalid q b rest hq hnone hb =>
    generalize hxs : q ++ b :: rest = xs at h'
    cases h' with
    | invalid q' b' rest' hq' hnone' hb' =>
      rcases prefix_or_snoc_prefix hxs with hqq | hqq
      · rcases prefix_or_snoc_prefix hxs.symm with hqq' | hqq'
        · exact ⟨hqq'.length_le.antisymm hqq.length_le, rfl⟩
        · exact absurd hqq' (not_snoc_prefix_of_node hb' hq)
      · exact absurd hqq (not_snoc_prefix_of_node hb hq')
    | more _ hnode => exact absurd ⟨rest, by simp [← hxs]⟩ (not_snoc_prefix_of_node hb hnode)
  | more _ hnode hnone =>
    cases h' with
    | invalid q' b' rest' hq' hnone' hb' => exact absurd ⟨rest', by simp⟩ (not_snoc_prefix_of_node hb' hnode)
    | more _ => exact ⟨rfl, rfl⟩

/-- The bits have one greedy parse: by induction on the Symbols expected, since two codes that begin the same bits are
equal. -/
theorem Parse.unique (hK : PrefixFree K) {n p p' : Nat} {xs : Bits} {ys ys' : List Symbol} {v v' : UpState}
    (h : Parse K n xs ys p v) (h' : Parse K n xs ys' p' v') : ys' = ys ∧ p' = p ∧ v' = v := by
  induction n generalizing xs ys ys' p p' with
  | zero =>
    cases h
    cases h'
    exact ⟨rfl, rfl, rfl⟩
  | succ n ih =>
    rcases h.cases_succ with ⟨c, y, zs, us, r, rfl, rfl, rfl, hc, hrest⟩ | ⟨rfl, hstop⟩
    · rcases h'.cases_succ with ⟨c', y', zs', us', r', hxs, rfl, rfl, hc', hrest'⟩ | ⟨-, hstop'⟩
      · obtain ⟨rfl, rfl⟩ : c = c' ∧ y = y' := by
          rcases List.prefix_or_prefix_of_prefix ⟨zs, rfl⟩ ⟨zs', hxs.symm⟩ with hpre | hpre
          · exact hK c y c' y' hc hc' hpre
          · obtain ⟨rfl, rfl⟩ := hK c' y' c y hc' hc hpre
            exact ⟨rfl, rfl⟩
        obtain rfl := List.append_cancel_left hxs
        obtain ⟨rfl, rfl, rfl⟩ := ih hrest hrest'
        exact ⟨rfl, rfl, rfl⟩
      · exact absurd (List.prefix_append c zs) (hstop'.not_code hK hc)
    · rcases h'.cases_succ with ⟨c', y', zs', us', r', rfl, -, -, hc', -⟩ | ⟨rfl, hstop'⟩
      · exact absurd (List.prefix_append c' zs') (hstop.not_code hK hc')
      · obtain ⟨rfl, rfl⟩ := hstop.unique hstop'
        exact ⟨rfl, rfl, rfl⟩

/-- A run that waits for more has consumed all its bits. -/
theorem Parse.consumed_of_run {n p : Nat} {xs : Bits} {ys : List Symbol} {v : UpState} (h : Parse K n xs ys p v)
    (hv : v = .run) : p = xs.length := by
  induction h with
  | count xs => cases hv
  | code n c y xs ys p v hc hrest ih => rw [List.length_append, ih hv]
  | invalid n q b xs hq hnone hb => cases hv
  | more n xs hxs hnone => rfl

/-- The codes of some Symbols, one after another, parse to these Symbols, whatever bits follow. -/
theorem parse_of_codes {syms : List Symbol} {code : Symbol → Bits} (hcode : ∀ y ∈ syms, K (code y) y) (pad : Bits) :
    Parse K syms.length (syms.flatMap code ++ pad) syms (syms.flatMap code).length .complete := by
  induction syms with
  | nil => exact .count pad
  | cons y syms ih =>
    obtain ⟨hy, hcode⟩ := List.forall_mem_cons.1 hcode
    rw [List.flatMap_cons, List.append_assoc, List.length_append]
    exact .code _ _ _ _ _ _ _ hy (ih hcode)

end Parse

/-! # A decode run (R169) -/

/-- The bytes fed to the block are walked as one bit sequence. -/
theorem runCmds_upbytes {s : State} (hs : s.err.getLsbD 6 = false) (bs : List Byte) :
    runCmds (bs.map .upbyte) s = walkBits (streamBits bs) s := by
  induction bs generalizing s with
  | nil => rfl
  | cons b bs ih =>
    rw [List.map_cons, runCmds_cons hs, streamBits_cons, walkBits_append]
    show andThen (walkBits (byteBits b) s) _ = _
    cases h : walkBits (byteBits b) s with
    | next u =>
      rw [andThen_next, andThen_next]
      exact ih (by rw [walkBits_frame h]; exact hs)
    | fault r => rfl
    | refused r => rfl

/-- A decode run walks the greedy parse of its bytes' bits over the codes of the tree. -/
theorem runCmds_decode {s : State} (hi : BlockInv s) (hs : s.err.getLsbD 6 = false) (n : BitVec 32) (bs : List Byte) :
    ∃ t ys, runCmds (.upstart n :: bs.map .upbyte) s = .next t ∧
      Parse (HasCode s) n.toNat (streamBits bs) ys t.bitpos.toNat t.upState ∧
      t.upOut = s.upOut ++ ys ∧ t.decoded.toNat = ys.length ∧
      t = { s with
        expected := t.expected, pos := t.pos, bitpos := t.bitpos, decoded := t.decoded, upState := t.upState,
        upOut := t.upOut } := by
  obtain ⟨u, hu, hstart⟩ : ∃ u, u = { s with
      expected := n, decoded := 0, bitpos := 0, pos := root, upState := if n = 0 then .complete else .run } ∧
      exec (.upstart n) s = .next u := ⟨_, rfl, rfl⟩
  have hnode : u.node = s.node := by rw [hu]
  have hcount : u.expected.toNat - u.decoded.toNat = n.toNat := by rw [hu]; rfl
  have hbitpos : u.bitpos.toNat = 0 := by rw [hu]; rfl
  have hdecoded : u.decoded.toNat = 0 := by rw [hu]; rfl
  have hout : u.upOut = s.upOut := by rw [hu]
  have hrun : runCmds (.upstart n :: bs.map .upbyte) s = walkBits (streamBits bs) u := by
    rw [runCmds_cons hs, hstart, andThen_next, runCmds_upbytes (by rw [hu]; exact hs)]
  by_cases hn : n = 0
  · have hstate : u.upState = .complete := by rw [hu]; exact if_pos hn
    refine ⟨u, [], hrun.trans (walkBits_of_ne_run _ (by rw [hstate]; nofun)), ?_, by rw [hout, List.append_nil],
      hdecoded, by rw [hu]⟩
    rw [hn, hstate, hbitpos]
    exact .count _
  · have hstate : u.upState = .run := by rw [hu]; exact if_neg hn
    obtain ⟨t, ys, p, hwalk, hparse, hout', hdec, hpos, -⟩ := walkBits_parse (hi.exec hstart) hstate (q := [])
      (by rw [hu]; rfl) (by rw [hbitpos]; exact Nat.zero_le _) (streamBits bs)
    refine ⟨t, ys, hrun.trans hwalk, ?_, by rw [hout', hout], by rw [hdec, hdecoded, Nat.zero_add], ?_⟩
    · rw [hasCode_congr hnode, hcount, List.nil_append] at hparse
      rw [hbitpos, Nat.zero_add, List.length_nil, Nat.add_zero] at hpos
      rwa [hpos]
    · rw [walkBits_frame hwalk, hu]

/-- Settles O34: the run is a greedy parse, and there is only one. -/
theorem decodingFunction : Obligations.DecodingFunction := by
  intro s n bs hi hs
  obtain ⟨t, ys, hrun, hparse, hout, hdec, ht⟩ := runCmds_decode hi hs n bs
  refine ⟨t, ys, hrun, hout, hdec, fun ys' p v => ⟨hparse.unique hi.tree.shape.prefixFree, ?_⟩, fun hr => ⟨?_, ?_⟩⟩
  · rintro ⟨rfl, rfl, rfl⟩
    exact hparse
  · rw [runCmds_cons (by rw [ht]; exact hs), exec_upend_of_run hr]
    rfl
  · rw [hparse.consumed_of_run hr, length_streamBits]

/-! # The round trip (R173) -/

theorem packBits_append (xs zs : Bits) (s : State) : packBits (xs ++ zs) s = packBits zs (packBits xs s) := by
  induction xs generalizing s with
  | nil => rfl
  | cons x xs ih => exact ih (packBit x s)

/-- Packing Symbols that have codes is packing the bits of these codes, in order. -/
theorem runCmds_pksyms {s : State} {syms : List Symbol} (hs : s.err.getLsbD 6 = false)
    (hvalid : ∀ y ∈ syms, (codeRead s y).valid = true) :
    runCmds (syms.map .pksym) s = .next (packBits (syms.flatMap (codeOf s)) s) := by
  induction syms generalizing s with
  | nil => rfl
  | cons y syms ih =>
    obtain ⟨hy, hvalid⟩ := List.forall_mem_cons.1 hvalid
    have hcode : (packBits (codeOf s y) s).code = s.code := by rw [packBits_frame]
    rw [List.map_cons, runCmds_cons hs, execPksym_defined hy, andThen_next,
      ih (by rw [packBits_frame]; exact hs) (by simpa only [codeRead_congr hcode] using hvalid), codeOf_congr hcode,
      List.flatMap_cons, packBits_append]

/-- Packing and flushing Symbols that have codes brings out the codes' bits, with fewer than eight zeros after them. -/
theorem runCmds_pack_flush {s : State} {syms : List Symbol} (hn : s.nbits = 0) (hs : s.err.getLsbD 6 = false)
    (hvalid : ∀ y ∈ syms, (codeRead s y).valid = true) :
    ∃ t bytes k, runCmds (syms.map .pksym ++ [.pkflush]) s = .next t ∧ t.pkOut = s.pkOut ++ bytes ∧ k < 8 ∧
      streamBits bytes = syms.flatMap (codeOf s) ++ List.replicate k false ∧
      t = { s with acc := t.acc, nbits := t.nbits, pkOut := t.pkOut } := by
  have hframe := packBits_frame (syms.flatMap (codeOf s)) s
  have hpacks : Packs s (syms.flatMap (codeOf s)) (packBits (syms.flatMap (codeOf s)) s) :=
    ⟨by rw [hframe], packBits_spec _ s⟩
  obtain ⟨t, ht⟩ : Safe (execPkflush (packBits (syms.flatMap (codeOf s)) s)) :=
    safe_ite (fun _ => safe_next _) fun _ => safe_next _
  obtain ⟨bytes, k, hout, hk, hbits, -⟩ := hpacks.pkflush hn ht
  refine ⟨t, bytes, k, ?_, hout, hk, hbits, ?_⟩
  · rw [runCmds_append, runCmds_pksyms hs hvalid, andThen_next, runCmds_cons (by rw [hframe]; exact hs)]
    show andThen (execPkflush _) _ = _
    rw [ht]
    rfl
  · rw [execPkflush_frame ht, hframe]

/-- Settles O35: the packed bytes are the codes of the Symbols and some zeros, and the greedy parse of these gives the
Symbols back. -/
theorem roundTrip : Obligations.RoundTrip := by
  intro s u pairs syms T hn hs htable hi hu htree hsyms hlen hT
  have hloaded : ∀ y ∈ syms, (codeRead s y).valid = true ∧ HasCode u (codeOf s y) y := by
    intro y hy
    obtain ⟨x, hx, rfl⟩ := List.mem_map.1 (hsyms y hy)
    obtain ⟨hvalid, hcode⟩ := htable x hx
    refine ⟨hvalid, ?_⟩
    rw [codeOf, hcode]
    exact htree x hx
  obtain ⟨s', bytes, k, hpack, hout, hk, hbits, hs'⟩ := runCmds_pack_flush hn hs fun y hy => (hloaded y hy).1
  obtain ⟨u', ys, hrun, hparse, hupOut, hdec, hu'⟩ := runCmds_decode hi hu (BitVec.ofNat 32 syms.length) bytes
  have hB : (syms.flatMap (codeOf s)).length = T := by
    rw [hT, List.length_flatMap]
    simp only [codeOf, length_codeBits]
  rw [BitVec.toNat_ofNat, Nat.mod_eq_of_lt hlen, hbits] at hparse
  obtain ⟨rfl, hbitpos, hstate⟩ :=
    (parse_of_codes (fun y hy => (hloaded y hy).2) _).unique hi.tree.shape.prefixFree hparse
  have hbytes := congrArg List.length hbits
  rw [length_streamBits, List.length_append, List.length_replicate, hB] at hbytes
  have herr : u'.err = u.err := by rw [hu']
  refine ⟨s', u', bytes, hpack, hout, by omega, hs', hrun, hupOut, hstate, herr, hdec, hbitpos.trans hB, ?_⟩
  rw [runCmds_cons (herr ▸ hu), exec_feed_of_ne_run (.inr rfl) (by rw [hstate]; nofun)]
  rfl

end Sys2Proof.Machine

namespace Sys2Proof.Machine

/-! # The tree over a run (R160) -/

/-- The paths of the arena are the prefixes of the codes, and one of them leads to each node, so NEXT_FREE counts
them. -/
theorem TreeInv.nextFree_eq_ncard {s : State} (ht : TreeInv s) :
    s.nextFree.toNat = Set.ncard { p : Bits | p = [] ∨ IsCodePrefix (HasCode s) p } := by
  have hpaths : { p : Bits | p = [] ∨ IsCodePrefix (HasCode s) p } = { p : Bits | ∃ h, follow s 0 p = some h } :=
    Set.ext fun p => (ht.isNode_iff p).symm
  have hinj : Set.InjOn (follow s 0) { p : Bits | ∃ h, follow s 0 p = some h } := by
    rintro p ⟨h, hp⟩ p' - e
    exact ht.shape.follow_inj hp (e ▸ hp)
  have himage : follow s 0 '' { p : Bits | ∃ h, follow s 0 p = some h } = some '' Set.Iio s.nextFree.toNat := by
    ext o
    constructor
    · rintro ⟨p, ⟨h, hp⟩, rfl⟩
      exact ⟨h, ht.shape.follow_root_lt hp, hp.symm⟩
    · rintro ⟨h, hlt, rfl⟩
      obtain ⟨p, hp⟩ := ht.shape.reached h hlt
      exact ⟨p, ⟨h, hp⟩, hp⟩
  rw [hpaths, ← hinj.ncard_image, himage, Set.ncard_image_of_injective _ (Option.some_injective _),
    Set.ncard_Iio_nat]

/-- Only UPCLR and UPINS write the tree. -/
theorem exec_tree_of_ne {i : Instr} {s t : State} (h : exec i s = .next t) (hclr : i ≠ .upclr)
    (hins : ∀ y, i ≠ .upins y) : t.node = s.node ∧ t.nextFree = s.nextFree := by
  cases i with
  | nop => rw [execNop_cases h]; exact ⟨rfl, rfl⟩
  | cclr => rw [execCclr_cases h]; exact ⟨rfl, rfl⟩
  | cbit b => rw [execCbit_cases h, stageBit_frame]; exact ⟨rfl, rfl⟩
  | pkclr | pkdef y | pksym y | pkflush => rw [exec_pack_frame rfl h]; exact ⟨rfl, rfl⟩
  | upclr => exact absurd rfl hclr
  | upins y => exact absurd rfl (hins y)
  | upstart n => cases h; exact ⟨rfl, rfl⟩
  | upbyte b => rw [walkBits_frame h]; exact ⟨rfl, rfl⟩
  | upend => rw [execUpend_frame h]; exact ⟨rfl, rfl⟩

/-- UPINS is refused, or takes new nodes and the tree gains the staged code. -/
theorem exec_upins_hasCode {y : Symbol} {s t : State} (hi : BlockInv s) (h : exec (.upins y) s = .next t) :
    (∃ c, t = raise c (clearStaging s)) ∨
      (s.nextFree.toNat < t.nextFree.toNat ∧ t.code = s.code ∧
        ∀ c' y', HasCode t c' y' ↔ HasCode s c' y' ∨ c' = stagedBits s ∧ y' = y) := by
  rcases execUpins_outcome h with ⟨c, -, ht⟩ | ⟨hr, hovf, hl, p, rest, hd, hroom, -⟩
  · exact .inl ⟨c, ht⟩
  · obtain ⟨d, b, bs, rfl, hins⟩ := hi.tree.insertion_of_absent (stagedBits_ne_nil hl) hd hroom
    obtain ⟨u, hu, hK, hnf, hframe⟩ := execUpins_insertion hi hr hovf hl hd hins y
    cases h.symm.trans hu
    exact .inr ⟨by rw [hnf, List.length_cons]; omega, by rw [hframe], hK⟩

/-- What accepting a word other than UPCLR does to the tree: a UPINS that takes new nodes adds the staged code, and
nothing else adds or removes one. -/
theorem hasCode_of_accept {w : CmdWord} {s t : State} (hi : BlockInv s) (hw : decode w ≠ .cmd .upclr)
    (h : accept w s = .next t) (c : Bits) (y : Symbol) :
    HasCode t c y ↔ HasCode s c y ∨
      (decode w = .cmd (.upins y) ∧ c = stagedBits s ∧ t.nextFree ≠ s.nextFree) := by
  have of_same (hn : t.node = s.node) (hf : t.nextFree = s.nextFree) : HasCode t c y ↔ HasCode s c y ∨
      (decode w = .cmd (.upins y) ∧ c = stagedBits s ∧ t.nextFree ≠ s.nextFree) := by
    rw [hasCode_congr hn, hf]
    simp
  rcases accept_cases w s with ⟨-, e⟩ | ⟨-, ⟨-, e⟩ | ⟨i, hd, e⟩⟩ <;> rw [e] at h
  · cases h
    exact of_same rfl rfl
  · cases h
    exact of_same rfl rfl
  · by_cases hins : ∃ z, i = .upins z
    · obtain ⟨z, rfl⟩ := hins
      rcases exec_upins_hasCode hi h with ⟨_, rfl⟩ | ⟨hgrown, -, hK⟩
      · exact of_same rfl rfl
      · have hnf : t.nextFree ≠ s.nextFree := fun e => hgrown.ne (by rw [e])
        rw [hK, hd, Decoded.cmd.injEq, Instr.upins.injEq, eq_comm (a := z)]
        simp [hnf, and_comm]
    · obtain ⟨hn, hf⟩ := exec_tree_of_ne h (fun e => hw (e ▸ hd)) (not_exists.1 hins)
      exact of_same hn hf

/-- Some UPINS y in the run of ws from s takes new nodes, with c staged. -/
def InsertedBy (ws : List CmdWord) (s : State) (c : Bits) (y : Symbol) : Prop :=
  ∃ pre w post u v, ws = pre ++ w :: post ∧ runWords pre s = .next u ∧ accept w u = .next v ∧
    decode w = .cmd (.upins y) ∧ c = stagedBits u ∧ v.nextFree ≠ u.nextFree

theorem insertedBy_cons {w : CmdWord} {ws : List CmdWord} {s v : State} (hv : accept w s = .next v) (c : Bits)
    (y : Symbol) : InsertedBy (w :: ws) s c y ↔
      (decode w = .cmd (.upins y) ∧ c = stagedBits s ∧ v.nextFree ≠ s.nextFree) ∨ InsertedBy ws v c y := by
  constructor
  · rintro ⟨pre, w', post, u, v', e, hrun, hacc, hins⟩
    rcases List.cons_eq_append_iff.1 e with ⟨rfl, e⟩ | ⟨pre, rfl, rfl⟩
    · cases e
      cases hrun
      cases hv.symm.trans hacc
      exact .inl hins
    · rw [runWords_cons, hv, andThen_next] at hrun
      exact .inr ⟨pre, w', post, u, v', rfl, hrun, hacc, hins⟩
  · rintro (hins | ⟨pre, w', post, u, v', rfl, hrun, hrest⟩)
    · exact ⟨[], w, ws, s, v, rfl, rfl, hv, hins⟩
    · refine ⟨w :: pre, w', post, u, v', rfl, ?_, hrest⟩
      rw [runWords_cons, hv, andThen_next, hrun]

theorem hasCode_of_runWords {ws : List CmdWord} {s t : State} (hi : BlockInv s)
    (hws : ∀ w ∈ ws, decode w ≠ .cmd .upclr) (h : runWords ws s = .next t) (c : Bits) (y : Symbol) :
    HasCode t c y ↔ HasCode s c y ∨ InsertedBy ws s c y := by
  induction ws generalizing s with
  | nil =>
    cases h
    simp [InsertedBy]
  | cons w ws ih =>
    obtain ⟨hw, hws⟩ := List.forall_mem_cons.1 hws
    obtain ⟨u, hu, hut⟩ := andThen_eq_next h
    rw [ih (blockInv_stepInvariant.accept hi hu) hws hut, hasCode_of_accept hi hw hu, or_assoc, insertedBy_cons hu]

/-- Settles O56: the shape of the tree gives the first half, an induction over the run the second. -/
theorem treeStandsForTheInsertedCodes : Obligations.TreeStandsForTheInsertedCodes := by
  refine ⟨fun s ht => ⟨ht.shape.prefixFree, ht.shape.no_empty_code, ht.isNode_iff,
    fun _ _ _ => ht.shape.follow_inj, ht.nextFree_eq_ncard⟩, fun ws s t hi hn hws h c y => ?_⟩
  rw [hasCode_of_runWords hi hws h]
  exact or_iff_right (hi.tree.no_code_of_root_only hn c y)

/-! # Loading both units with DEFCODE and INSCODE lines (R105, R173) -/

/-! ## Runs -/

/-- What every step keeps, a run keeps. -/
theorem StepInvariant.runCmds {P : State → Prop} (hP : StepInvariant P) {is : List Instr} {s t : State} (hs : P s)
    (h : runCmds is s = .next t) : P t := by
  induction is generalizing s with
  | nil =>
    cases h
    exact hs
  | cons i is ih =>
    obtain ⟨u, hu, hut⟩ := andThen_eq_next h
    exact ih (hP.accept hs hu) hut

/-- The invariants and the parameters are kept together. -/
theorem blockInv_cfg_stepInvariant (g : Config) : StepInvariant fun s => BlockInv s ∧ s.cfg = g where
  withPort p := fun ⟨hi, hg⟩ => ⟨hi.withPort p, hg⟩
  resetWith p := fun ⟨hi, hg⟩ => ⟨.resetWith hi.cfg p, hg⟩
  illcmd := fun ⟨hi, hg⟩ => ⟨hi.raise .illcmd, hg⟩
  exec := fun ⟨hi, hg⟩ h => ⟨hi.exec h, (exec_cfg_port h).1.trans hg⟩

theorem getLsbD_of_eq_zero {e : BitVec 8} (h : e = 0) (k : Nat) : e.getLsbD k = false := by
  rw [h]
  exact BitVec.getLsbD_zero

/-- A run that ends without errors had none before. -/
theorem err_zero_before_run {is : List Instr} {s t : State} (h : runCmds is s = .next t) (ht : t.err = 0) :
    s.err = 0 := by
  refine BitVec.eq_of_getLsbD_eq fun k _ => ?_
  rw [getLsbD_of_eq_zero (e := 0) rfl]
  refine Bool.eq_false_of_not_eq_true fun hk => ?_
  exact ne_true_of_eq_false (getLsbD_of_eq_zero ht k) (runWords_err_mono h hk)

theorem setErr_ne_zero (e : BitVec 8) (c : ErrCause) : setErr e c ≠ 0 := fun h =>
  ne_true_of_eq_false (getLsbD_of_eq_zero h (errBit c)) (by simp [setErr_getLsbD])

/-! ## The lines of a loading run -/

theorem insCode_injective {y y' : Symbol} {c c' : Bits} (h : insCode y c = insCode y' c') : y = y' ∧ c = c' := by
  obtain ⟨hstage, hins⟩ := List.append_inj' h rfl
  cases hins
  refine ⟨rfl, List.map_injective_iff.2 (fun _ _ => Instr.cbit.inj) (List.tail_eq_of_cons_eq hstage)⟩

theorem defCode_ne_insCode (y y' : Symbol) (c c' : Bits) : defCode y c ≠ insCode y' c' := by
  intro h
  obtain ⟨-, hlast⟩ := List.append_inj' h rfl
  cases hlast

/-- A block of commands that use no staging register is no DEFCODE or INSCODE line, since these begin with CCLR. -/
theorem line_ne_of_not_usesStaging {b : List Instr} (hb : ∀ i ∈ b, usesStaging i = false) (y : Symbol) (c : Bits) :
    defCode y c ≠ b ∧ insCode y c ≠ b := by
  constructor <;> rintro rfl <;> exact absurd (hb .cclr List.mem_cons_self) (by decide)

/-- The table gives the pair's Symbol the pair's code. -/
def HasEntry (s : State) (x : Symbol × Bits) : Prop := (codeRead s x.1).valid = true ∧ codeOf s x.1 = x.2

theorem HasEntry.congr {s t : State} {x : Symbol × Bits} (hx : HasEntry s x) (h : codeRead t x.1 = codeRead s x.1) :
    HasEntry t x := by
  rw [HasEntry, codeOf, h]
  exact hx

/-- From s to t the blocks among the lines of the pairs are loaded: a DEFCODE line into the table, an INSCODE line into
the tree. -/
structure Loads (pairs : List (Symbol × Bits)) (blocks : List (List Instr)) (s t : State) : Prop where
  entry : ∀ x ∈ pairs, HasEntry s x ∨ defCode x.1 x.2 ∈ blocks → HasEntry t x
  code : ∀ c y, HasCode t c y ↔ HasCode s c y ∨ (y, c) ∈ pairs ∧ insCode y c ∈ blocks

section Loads

variable {pairs : List (Symbol × Bits)} {s t u : State}

theorem Loads.nil : Loads pairs [] s s := ⟨fun _ _ h => h.resolve_right List.not_mem_nil, by simp⟩

theorem Loads.cons {b : List Instr} {blocks : List (List Instr)} (h : Loads pairs [b] s u)
    (h' : Loads pairs blocks u t) : Loads pairs (b :: blocks) s t := by
  refine ⟨fun x hx hor => h'.entry x hx ?_, fun c y => ?_⟩
  · rw [List.mem_cons, ← or_assoc] at hor
    exact hor.imp_left fun hb => h.entry x hx (hb.imp_right List.mem_singleton.2)
  · rw [h'.code, h.code, List.mem_singleton, List.mem_cons, or_assoc, ← and_or_left]

theorem loads_defCode {x : Symbol × Bits} (hnodup : (pairs.map Prod.fst).Nodup) (hx : x ∈ pairs) (hi : BlockInv s)
    (hs : s.err = 0) (h1 : 1 ≤ x.2.length) (hl : x.2.length ≤ s.cfg.maxLen)
    (h : runCmds (defCode x.1 x.2) s = .next t) : Loads pairs [defCode x.1 x.2] s t := by
  obtain ⟨u, hu, hvalid, hcode, hother, hframe⟩ := runCmds_defCode hi.cfg (getLsbD_of_eq_zero hs 6) h1 hl x.1
  cases h.symm.trans hu
  have hnode : t.node = s.node := by rw [hframe]
  refine ⟨fun z hz hor => ?_, fun c y => ?_⟩
  · by_cases hsym : z.1 = x.1
    · obtain rfl := List.inj_on_of_nodup_map hnodup hz hx hsym
      exact ⟨hvalid, hcode⟩
    · have hne : defCode z.1 z.2 ≠ defCode x.1 x.2 := by
        intro e
        obtain ⟨-, hlast⟩ := List.append_inj' e rfl
        exact hsym (Instr.pkdef.inj (List.head_eq_of_cons_eq hlast))
      exact (hor.resolve_right fun hmem => hne (List.mem_singleton.1 hmem)).congr (hother z.1 hsym)
  · rw [hasCode_congr hnode, List.mem_singleton]
    simp [(defCode_ne_insCode x.1 y x.2 c).symm]

theorem loads_insCode {x : Symbol × Bits} (hx : x ∈ pairs) (hi : BlockInv s) (hs : s.err = 0)
    (hl : x.2.length ≤ s.cfg.maxLen) (h : runCmds (insCode x.1 x.2) s = .next t) (ht : t.err = 0) :
    Loads pairs [insCode x.1 x.2] s t := by
  have hs6 := getLsbD_of_eq_zero hs 6
  obtain ⟨u, hstage, hfront, hbits, hu⟩ := runCmds_stageCode hi.cfg hs6 hl
  have huerr : u.err = s.err := by rw [hu]
  have hcode : u.code = s.code := by rw [hu]
  have hnode : u.node = s.node := by rw [hu]
  have hui : BlockInv u := hi.of_front hfront (by rw [hu]) (huerr ▸ hi.err7)
  rw [insCode, runCmds_append, hstage, andThen_next] at h
  obtain ⟨v, hv, hvt⟩ := (runCmds_cons_eq_next (huerr ▸ hs6)).1 h
  cases hvt
  rcases exec_upins_hasCode hui hv with ⟨c, rfl⟩ | ⟨-, hcode', hK⟩
  · exact absurd ht (setErr_ne_zero _ c)
  · refine ⟨fun z hz hor => ?_, fun c y => ?_⟩
    · have hold := hor.resolve_right fun hmem => defCode_ne_insCode _ _ _ _ (List.mem_singleton.1 hmem)
      exact hold.congr (codeRead_congr (hcode'.trans hcode) z.1)
    · rw [hK, hbits, hasCode_congr hnode, List.mem_singleton]
      refine or_congr_right ⟨?_, fun ⟨_, e⟩ => (insCode_injective e).symm⟩
      rintro ⟨rfl, rfl⟩
      exact ⟨hx, rfl⟩

/-- Commands that use no staging register and clear no table leave the table and the tree as they are. -/
theorem runCmds_keeps_tables {b : List Instr} (hb : ∀ i ∈ b, usesStaging i = false ∧ i ≠ .pkclr ∧ i ≠ .upclr)
    (h : runCmds b s = .next t) (ht : t.err = 0) : t.code = s.code ∧ t.node = s.node := by
  induction b generalizing s with
  | nil =>
    cases h
    exact ⟨rfl, rfl⟩
  | cons i b ih =>
    obtain ⟨⟨hstaging, hpk, hup⟩, hb⟩ := List.forall_mem_cons.1 hb
    obtain ⟨u, hu, hut⟩ := (runCmds_cons_eq_next (getLsbD_of_eq_zero (err_zero_before_run h ht) 6)).1 h
    have hdef : ∀ y, i ≠ .pkdef y := by
      rintro y rfl
      cases hstaging
    have hins : ∀ y, i ≠ .upins y := by
      rintro y rfl
      cases hstaging
    obtain ⟨hcode, hnode⟩ := ih hb hut
    exact ⟨hcode.trans (exec_code_of_ne hpk hdef hu), hnode.trans (exec_tree_of_ne hu hup hins).1⟩

theorem loads_other {b : List Instr} (hb : ∀ i ∈ b, usesStaging i = false ∧ i ≠ .pkclr ∧ i ≠ .upclr)
    (h : runCmds b s = .next t) (ht : t.err = 0) : Loads pairs [b] s t := by
  obtain ⟨hcode, hnode⟩ := runCmds_keeps_tables hb h ht
  have hline := line_ne_of_not_usesStaging fun i hi => (hb i hi).1
  refine ⟨fun x _ hor => ?_, fun c y => ?_⟩
  · have hold := hor.resolve_right fun hmem => (hline x.1 x.2).1 (List.mem_singleton.1 hmem)
    exact hold.congr (codeRead_congr hcode x.1)
  · rw [hasCode_congr hnode, List.mem_singleton]
    simp [(hline y c).2]

/-- A run of blocks loads the lines among them, in whatever order they stand. -/
theorem loads_blocks {blocks : List (List Instr)} (hnodup : (pairs.map Prod.fst).Nodup) (hi : BlockInv s)
    (hlen : ∀ x ∈ pairs, 1 ≤ x.2.length ∧ x.2.length ≤ s.cfg.maxLen)
    (hblocks : ∀ b ∈ blocks, (∃ x ∈ pairs, b = defCode x.1 x.2 ∨ b = insCode x.1 x.2) ∨
      ∀ i ∈ b, usesStaging i = false ∧ i ≠ .pkclr ∧ i ≠ .upclr)
    (h : runCmds blocks.flatten s = .next t) (ht : t.err = 0) : Loads pairs blocks s t := by
  induction blocks generalizing s with
  | nil =>
    cases h
    exact .nil
  | cons b blocks ih =>
    obtain ⟨hb, hblocks⟩ := List.forall_mem_cons.1 hblocks
    rw [List.flatten_cons, runCmds_append] at h
    obtain ⟨u, hu, hut⟩ := andThen_eq_next h
    have huerr := err_zero_before_run hut ht
    have hs := err_zero_before_run hu huerr
    obtain ⟨hui, hcfg⟩ := (blockInv_cfg_stepInvariant s.cfg).runCmds ⟨hi, rfl⟩ hu
    refine Loads.cons ?_ (ih hui (by rwa [hcfg]) hblocks hut)
    rcases hb with ⟨x, hx, rfl | rfl⟩ | hb
    · exact loads_defCode hnodup hx hi hs (hlen x hx).1 (hlen x hx).2 hu
    · exact loads_insCode hx hi hs (hlen x hx).2 hu huerr
    · exact loads_other hb hu huerr

end Loads

/-- Settles O36: each block loads what it is the line of, and the tree was empty before. -/
theorem loadingLinesFillBothUnits : Obligations.LoadingLinesFillBothUnits := by
  intro s t pairs blocks hi hn hnodup hlen hblocks hrun ht
  have hloads := loads_blocks hnodup hi hlen hblocks hrun ht
  refine ⟨blockInv_stepInvariant.runCmds hi hrun, fun x hx hmem => hloads.entry x hx (.inr hmem), fun c y => ?_⟩
  rw [hloads.code]
  exact or_iff_right (hi.tree.no_code_of_root_only hn c y)

end Sys2Proof.Machine

namespace Sys2Proof.Machine

/-! # Errors (R200 to R203) -/

/-- All that a word can do to ERR: leave it, or be refused for one cause. A refused PKDEF or UPINS has emptied the staging
register (R202). -/
theorem accept_err {w : CmdWord} {s t : State} (h : accept w s = .next t) :
    t.err = s.err ∨
      ∃ c, (t = raise c s ∧
          ((∃ why, decode w = .illegal why) ∨ decode w = .cmd .upclr ∨ ∃ y, decode w = .cmd (.pksym y))) ∨
        (t = raise c (clearStaging s) ∧ ∃ y, decode w = .cmd (.pkdef y) ∨ decode w = .cmd (.upins y)) := by
  rcases accept_cases w s with ⟨-, e⟩ | ⟨-, ⟨hd, e⟩ | ⟨i, hd, e⟩⟩ <;> rw [e] at h
  · cases h
    exact .inl rfl
  · cases h
    exact .inr ⟨.illcmd, .inl ⟨rfl, .inl hd⟩⟩
  · rcases exec_err h with herr | ⟨c, ⟨rfl, ⟨rfl, -⟩ | ⟨⟨y, rfl⟩, -⟩⟩ | ⟨rfl, ⟨⟨y, rfl⟩, -⟩ | ⟨⟨y, rfl⟩, -⟩⟩⟩
    · exact .inl herr
    · exact .inr ⟨c, .inl ⟨rfl, .inr (.inl hd)⟩⟩
    · exact .inr ⟨c, .inl ⟨rfl, .inr (.inr ⟨y, hd⟩)⟩⟩
    · exact .inr ⟨c, .inr ⟨rfl, y, .inl hd⟩⟩
    · exact .inr ⟨c, .inr ⟨rfl, y, .inr hd⟩⟩

/-- Only the words of UPSTART, UPBYTE and UPEND change UP_STATE (R201). -/
theorem decode_of_upState_ne {w : CmdWord} {s t : State} (h : accept w s = .next t) (hne : t.upState ≠ s.upState) :
    decode w = .cmd .upend ∨ (∃ n, decode w = .cmd (.upstart n)) ∨ ∃ b, decode w = .cmd (.upbyte b) := by
  rcases accept_cases w s with ⟨-, e⟩ | ⟨-, ⟨-, e⟩ | ⟨i, hd, e⟩⟩ <;> rw [e] at h
  · cases h
    exact absurd rfl hne
  · cases h
    exact absurd rfl hne
  · by_contra hother
    simp only [hd, Decoded.cmd.injEq, not_or, not_exists] at hother
    obtain ⟨hend, hstart, hbyte⟩ := hother
    exact hne (exec_upState_of_ne h hstart hbyte hend)

/-- Settles O44: a step that takes nothing or a word keeps every set bit. -/
theorem onlyResetClearsErr : Obligations.OnlyResetClearsErr := by
  intro s t k h hs ht
  rcases step_cases s with ⟨-, e⟩ | ⟨rest, hp, -⟩ | ⟨w, rest, -, e⟩
  · rw [e] at h
    cases h
    rw [hs] at ht
    cases ht
  · exact ⟨rest, hp⟩
  · rw [e] at h
    rw [accept_err_mono h hs] at ht
    cases ht

/-- The bits of the seven causes are 0 to 6 (R35). -/
theorem errBit_le_six (c : ErrCause) : errBit c ≤ 6 := by cases c <;> decide

/-- Settles O45: a refusal sets the bit of its one cause. -/
theorem oneWordSetsAtMostOneErrBit : Obligations.OneWordSetsAtMostOneErrBit := by
  intro w s t h
  rcases accept_err h with herr | ⟨c, ⟨rfl, -⟩ | ⟨rfl, -⟩⟩
  · exact .inl herr
  · exact .inr ⟨errBit c, errBit_le_six c, rfl⟩
  · exact .inr ⟨errBit c, errBit_le_six c, rfl⟩

/-- Settles O46: a word that changes ERR is refused, and a refusal writes ERR and, at most, the staging register. -/
theorem refusedCommandHasNoOtherEffect : Obligations.RefusedCommandHasNoOtherEffect := by
  intro w s t h hne
  rcases accept_err h with herr | ⟨c, ⟨rfl, -⟩ | ⟨rfl, hd⟩⟩
  · exact absurd herr hne
  · exact .inl rfl
  · exact .inr ⟨hd, rfl⟩

/-- A word that changes ERR is refused: UP_STATE stays, and the word is one that can be refused (R201). -/
theorem upState_and_decode_of_err_ne {w : CmdWord} {s t : State} (h : accept w s = .next t) (hne : t.err ≠ s.err) :
    t.upState = s.upState ∧
      ((∃ why, decode w = .illegal why) ∨ decode w = .cmd .upclr ∨
        ∃ y, decode w = .cmd (.pkdef y) ∨ decode w = .cmd (.pksym y) ∨ decode w = .cmd (.upins y)) := by
  rcases accept_err h with herr | ⟨c, ⟨rfl, hill | hclr | ⟨y, hsym⟩⟩ | ⟨rfl, y, hdef | hins⟩⟩
  · exact absurd herr hne
  · exact ⟨rfl, .inl hill⟩
  · exact ⟨rfl, .inr (.inl hclr)⟩
  · exact ⟨rfl, .inr (.inr ⟨y, .inr (.inl hsym)⟩)⟩
  · exact ⟨rfl, .inr (.inr ⟨y, .inl hdef⟩)⟩
  · exact ⟨rfl, .inr (.inr ⟨y, .inr (.inr hins)⟩)⟩

/-- Settles O47: a word that changes ERR leaves UP_STATE, so one that changes UP_STATE leaves ERR. -/
theorem noWordWritesBothErrAndUpState : Obligations.NoWordWritesBothErrAndUpState := by
  intro w s t h
  refine ⟨upState_and_decode_of_err_ne h, fun hne => ⟨?_, decode_of_upState_ne h hne⟩⟩
  by_contra herr
  exact hne (upState_and_decode_of_err_ne h herr).1

end Sys2Proof.Machine

namespace Sys2Proof.Machine

/-! # The reset event and the idle port (R220 to R223) -/

/-- Settles O9: there is nothing at the port to serve. -/
theorem stepWithNothingPresentedStays : Obligations.StepWithNothingPresentedStays := by
  intro s hport
  rw [step, serve, hport]

theorem step_of_reset {s : State} {rest : List PortEvent} (h : s.port = .reset :: rest) :
    step s = .next (State.resetWith s.cfg rest) := by
  rw [step, serve, h]
  rfl

theorem valid_resetWith (c : Config) (p : List PortEvent) (y : Symbol) :
    (codeRead (State.resetWith c p) y).valid = false := by
  rw [codeRead_resetWith]
  rfl

/-- Settles O10: the step leaves `State.resetWith`, whose fields are the values of R221. -/
theorem resetEventGivesTheResetState : Obligations.ResetEventGivesTheResetState := fun s rest hport =>
  ⟨State.resetWith s.cfg rest, step_of_reset hport, rfl, rfl, rfl, rfl, rfl, valid_resetWith s.cfg rest,
    rfl, rfl, rfl, rfl, rfl, rfl, rfl, rfl, rfl, rfl, rfl, rfl, rfl, rfl⟩

/-- Settles O11: the same fields, for the default parameters of R5. -/
theorem resetStateHoldsTheSpecValues : Obligations.ResetStateHoldsTheSpecValues :=
  ⟨rfl, rfl, rfl, rfl, rfl, valid_resetWith Config.standard [],
    rfl, rfl, rfl, rfl, rfl, rfl, rfl, rfl, rfl, rfl, rfl, rfl, rfl, rfl⟩

end Sys2Proof.Machine

namespace Sys2Proof.Machine

/-! # What is unspecified is never observed (R221, V1 to V3)

Two states that differ only in unspecified contents agree in all registers, in their code tables entry by entry, and in
their allocated nodes one by one. Each operation has one relational law: it takes such states to such states again. -/

/-! ## Entries, nodes and states that agree -/

/-- Two entries that differ at most in the len and bits of an invalid one (V1). -/
structure CodeEntry.Agree (e f : CodeEntry) : Prop where
  valid : e.valid = f.valid
  eq_of_valid : e.valid = true → e = f

/-- Two nodes that differ at most in the sym of one that is no leaf (V3). -/
structure Node.Agree (a b : Node) : Prop where
  leaf : a.leaf = b.leaf
  child : ∀ x, a.child x = b.child x
  sym : a.leaf = true → a.sym = b.sym

theorem CodeEntry.Agree.rfl {e : CodeEntry} : e.Agree e := ⟨.refl _, fun _ => .refl _⟩

theorem Node.Agree.rfl {a : Node} : a.Agree a := ⟨.refl _, fun _ => .refl _, fun _ => .refl _⟩

/-- A cleared node is no leaf and has no children, whatever it was before. -/
theorem Node.agree_cleared (a b : Node) : a.cleared.Agree b.cleared :=
  ⟨.refl _, fun x => by rw [child_cleared, child_cleared], nofun⟩

theorem Node.Agree.setChild {a b : Node} (h : a.Agree b) (x : Bool) (p : Handle) :
    (a.setChild x p).Agree (b.setChild x p) where
  leaf := by simpa using h.leaf
  child x' := by simp [h.child x']
  sym := by simpa using h.sym

/-- A node that becomes a leaf gets its Symbol at the same time. -/
theorem Node.Agree.makeLeaf {a b : Node} (h : a.Agree b) (y : Symbol) :
    { a with leaf := true, sym := y }.Agree { b with leaf := true, sym := y } :=
  ⟨.refl _, h.child, fun _ => .refl _⟩

/-- s with another code table and another arena. -/
def withTables (c : Vector CodeEntry 256) (m : Memory) (s : State) : State := { s with code := c, node := m }

theorem sameButUnspecified_iff {s t : State} :
    SameButUnspecified s t ↔ t = withTables t.code t.node s ∧ (∀ y, (codeRead s y).Agree (codeRead t y)) ∧
      ∀ k, k < s.nextFree.toNat → (s.nodeAt k).Agree (t.nodeAt k) where
  mp h := ⟨h.rest, fun y => ⟨h.valid y, h.entry y⟩, fun k hk => ⟨h.leaf k hk, h.child k hk, h.sym k hk⟩⟩
  mpr := fun ⟨hrest, hcode, hnode⟩ =>
    ⟨hrest, fun y => (hcode y).valid, fun y => (hcode y).eq_of_valid, fun k hk => (hnode k hk).leaf,
      fun k hk => (hnode k hk).child, fun k hk => (hnode k hk).sym⟩

namespace SameButUnspecified

variable {s t : State}

theorem exists_tables (h : SameButUnspecified s t) : ∃ c m, t = withTables c m s := ⟨t.code, t.node, h.rest⟩

theorem entries (h : SameButUnspecified s t) (y : Symbol) : (codeRead s y).Agree (codeRead t y) :=
  (sameButUnspecified_iff.1 h).2.1 y

theorem nodes (h : SameButUnspecified s t) {k : Nat} (hk : k < s.nextFree.toNat) : (s.nodeAt k).Agree (t.nodeAt k) :=
  (sameButUnspecified_iff.1 h).2.2 k hk

theorem refl (s : State) : SameButUnspecified s s := sameButUnspecified_iff.2 ⟨rfl, fun _ => .rfl, fun _ _ => .rfl⟩

theorem cfg_eq (h : SameButUnspecified s t) : t.cfg = s.cfg := by rw [h.rest]

theorem nextFree_eq (h : SameButUnspecified s t) : t.nextFree = s.nextFree := by rw [h.rest]

theorem pos_eq (h : SameButUnspecified s t) : t.pos = s.pos := by rw [h.rest]

theorem upState_eq (h : SameButUnspecified s t) : t.upState = s.upState := by rw [h.rest]

theorem observe_eq (h : SameButUnspecified s t) : s.observe = t.observe := by
  rw [h.rest]
  rfl

/-- What writes neither the tables nor NEXT_FREE, and the same to the other registers on both sides, leaves the two
alike. -/
theorem frame {c : Vector CodeEntry 256} {m : Memory} (h : SameButUnspecified s (withTables c m s)) {s' : State}
    (hcode : s'.code = s.code) (hnode : s'.node = s.node) (hfree : s'.nextFree = s.nextFree) :
    SameButUnspecified s' (withTables c m s') := by
  refine sameButUnspecified_iff.2 ⟨rfl, fun y => ?_, fun k hk => ?_⟩
  · rw [codeRead_congr hcode]
    exact h.entries y
  · rw [nodeAt_congr hnode]
    exact h.nodes (hfree ▸ hk)

theorem ite {P : Prop} [Decidable P] {s' t' : State} (h : P → SameButUnspecified s t)
    (h' : ¬ P → SameButUnspecified s' t') : SameButUnspecified (if P then s else s') (if P then t else t') := by
  split
  · exact h ‹_›
  · exact h' ‹_›

/-! ## Operations on the registers -/

theorem clearStaging (h : SameButUnspecified s t) : SameButUnspecified (clearStaging s) (clearStaging t) := by
  obtain ⟨c, m, rfl⟩ := h.exists_tables
  exact h.frame rfl rfl rfl

theorem raise (h : SameButUnspecified s t) (e : ErrCause) : SameButUnspecified (raise e s) (raise e t) := by
  obtain ⟨c, m, rfl⟩ := h.exists_tables
  exact h.frame rfl rfl rfl

theorem stageBit (h : SameButUnspecified s t) (b : Bool) : SameButUnspecified (stageBit b s) (stageBit b t) := by
  obtain ⟨c, m, rfl⟩ := h.exists_tables
  exact ite (fun _ => h.frame rfl rfl rfl) fun _ => h.frame rfl rfl rfl

theorem packBit (h : SameButUnspecified s t) (b : Bool) : SameButUnspecified (packBit b s) (packBit b t) := by
  obtain ⟨c, m, rfl⟩ := h.exists_tables
  exact ite (fun _ => h.frame rfl rfl rfl) fun _ => h.frame rfl rfl rfl

theorem packBits (h : SameButUnspecified s t) (bs : Bits) :
    SameButUnspecified (packBits bs s) (packBits bs t) := by
  induction bs generalizing s t with
  | nil => exact h
  | cons b bs ih => exact ih (h.packBit b)

theorem emitLeaf (h : SameButUnspecified s t) (y : Symbol) : SameButUnspecified (emitLeaf y s) (emitLeaf y t) := by
  obtain ⟨c, m, rfl⟩ := h.exists_tables
  exact ite (fun _ => h.frame rfl rfl rfl) fun _ => h.frame rfl rfl rfl

/-! ## Writes of the code table (R62) -/

theorem codeWrite (h : SameButUnspecified s t) (y : Symbol) (e : CodeEntry) :
    SameButUnspecified (codeWrite y e s) (codeWrite y e t) := by
  obtain ⟨c, m, rfl⟩ := h.exists_tables
  refine sameButUnspecified_iff.2 ⟨rfl, fun z => ?_, fun k hk => h.nodes hk⟩
  rw [codeRead_codeWrite, codeRead_codeWrite]
  split
  · exact .rfl
  · exact h.entries z

/-- Once all entries are invalid, they agree whatever they hold. -/
theorem codeInvalidateAll (h : SameButUnspecified s t) :
    SameButUnspecified (codeInvalidateAll s) (codeInvalidateAll t) := by
  obtain ⟨c, m, rfl⟩ := h.exists_tables
  refine sameButUnspecified_iff.2 ⟨rfl, fun y => ?_, fun k hk => h.nodes hk⟩
  rw [codeRead_codeInvalidateAll, codeRead_codeInvalidateAll]
  exact ⟨rfl, nofun⟩

/-! ## Writes of the arena (R63) -/

theorem nodeModify (h : SameButUnspecified s t) (hs : s.node.wf = true) (ht : t.node.wf = true) (p : Handle)
    {f : Node → Node} (hf : ∀ {a b : Node}, a.Agree b → (f a).Agree (f b)) :
    SameButUnspecified (nodeModify p f s) (nodeModify p f t) := by
  obtain ⟨c, m, rfl⟩ := h.exists_tables
  refine sameButUnspecified_iff.2 ⟨rfl, h.entries, fun k hk => ?_⟩
  rw [nodeAt_nodeModify hs, nodeAt_nodeModify ht]
  split
  · exact hf (h.nodes hk)
  · exact h.nodes hk

/-- A node that becomes allocated agrees on both sides once it is cleared. -/
theorem allocate (h : SameButUnspecified s t) (hs : s.node.wf = true) (ht : t.node.wf = true) (p : Handle)
    (n : BitVec 17) (hn : ∀ k, k < n.toNat → k ≠ p.toNat → k < s.nextFree.toNat) :
    SameButUnspecified (Machine.nodeModify p Node.cleared { s with nextFree := n })
      (Machine.nodeModify p Node.cleared { t with nextFree := n }) := by
  obtain ⟨c, m, rfl⟩ := h.exists_tables
  refine sameButUnspecified_iff.2 ⟨rfl, h.entries, fun k hk => ?_⟩
  rw [nodeAt_nodeModify (s := { s with nextFree := n }) hs,
    nodeAt_nodeModify (s := { withTables c m s with nextFree := n }) ht]
  split
  · exact Node.agree_cleared _ _
  · exact h.nodes (hn k hk ‹_›)

theorem growOne (h : SameButUnspecified s t) (hs : s.node.wf = true) (ht : t.node.wf = true)
    (hroom : s.nextFree.toNat < 65536) (p : Handle) (b : Bool) :
    SameButUnspecified (growOne p b s) (growOne p b t) := by
  have halloc := h.allocate hs ht (s.nextFree.setWidth 16) (s.nextFree + 1) fun k hk hne => by
    rw [nextFree_add_one hroom] at hk
    rw [newHandle_toNat hroom] at hne
    omega
  obtain ⟨c, m, rfl⟩ := h.exists_tables
  exact halloc.nodeModify (Memory.wf_write hs _ _) (Memory.wf_write ht _ _) p fun hab => hab.setChild b _

theorem growPath (h : SameButUnspecified s t) (hs : s.node.wf = true) (ht : t.node.wf = true) (y : Symbol)
    (p : Handle) (bs : Bits) (hroom : s.nextFree.toNat + bs.length ≤ 65536) :
    SameButUnspecified (growPath y p bs s) (growPath y p bs t) := by
  induction bs generalizing s t p with
  | nil => exact h.nodeModify hs ht p fun hab => hab.makeLeaf y
  | cons b bs ih =>
    rw [List.length_cons] at hroom
    have hlt : s.nextFree.toNat < 65536 := by omega
    rw [growPath_cons, growPath_cons, h.nextFree_eq]
    refine ih (h.growOne hs ht hlt p b) (growOne_wf hs p b) (growOne_wf ht p b) _ ?_
    rw [growOne_nextFree, nextFree_add_one hlt]
    omega

/-! ## Reads of the arena -/

/-- An allocated node exists in both arenas. -/
theorem nodeRead_allocated (h : SameButUnspecified s t) (hi : TreeInv s) {p : Handle}
    (hp : p.toNat < s.nextFree.toNat) :
    nodeRead s p = some (s.nodeAt p.toNat) ∧ nodeRead t p = some (t.nodeAt p.toNat) := by
  have hN := Nat.lt_of_lt_of_le hp hi.nextFree_le
  exact ⟨nodeRead_of_lt hN, nodeRead_of_lt (h.cfg_eq ▸ hN)⟩

/-- The descent of UPINS stays on allocated nodes and reads their leaf bits and children only. -/
theorem descend_eq (h : SameButUnspecified s t) (hi : TreeInv s) {p : Handle} (hp : p.toNat < s.nextFree.toNat)
    (c : Bits) : descend t p c = descend s p c := by
  induction c generalizing p with
  | nil => rfl
  | cons b c ih =>
    have hagree := h.nodes hp
    obtain ⟨hread, hread'⟩ := h.nodeRead_allocated hi hp
    rw [descend, descend, hread, hread']
    simp only [← hagree.leaf, ← hagree.child, ih (hi.child_lt _ hp b)]

end SameButUnspecified

/-! ## Outcomes that agree -/

/-- Both outcomes are next states, and these differ only in unspecified contents. -/
def AlikeNext (o o' : Host.Outcome State Fault Refusal) : Prop :=
  ∃ s t, o = .next s ∧ o' = .next t ∧ SameButUnspecified s t

theorem SameButUnspecified.alikeNext {s t : State} (h : SameButUnspecified s t) : AlikeNext (.next s) (.next t) :=
  ⟨s, t, rfl, rfl, h⟩

theorem AlikeNext.ite {P : Prop} [Decidable P] {o o' u u' : Host.Outcome State Fault Refusal}
    (h : P → AlikeNext o u) (h' : ¬ P → AlikeNext o' u') :
    AlikeNext (if P then o else o') (if P then u else u') := by
  split
  · exact h ‹_›
  · exact h' ‹_›

namespace SameButUnspecified

variable {s t : State}

/-! ## The walk (R166) -/

/-- One bit of the walk reads POS and the child it leads to, both allocated, and the sym of a leaf only. -/
theorem walkBit (h : SameButUnspecified s t) (hi : TreeInv s) (x : Bool) :
    AlikeNext (walkBit x s) (walkBit x t) := by
  have hpos := h.nodes hi.pos_lt
  have hlt : ((s.nodeAt s.pos.toNat).child x).toNat < s.nextFree.toNat := hi.child_lt _ hi.pos_lt x
  have hchild := h.nodes hlt
  obtain ⟨hread, hread'⟩ := h.nodeRead_allocated hi hi.pos_lt
  obtain ⟨hcread, hcread'⟩ := h.nodeRead_allocated hi hlt
  rw [Machine.walkBit, Machine.walkBit, h.pos_eq, hread, hread']
  simp only [← hpos.child, hcread, hcread', ← hchild.leaf]
  obtain ⟨c, m, rfl⟩ := h.exists_tables
  have hmoved := h.frame (s' := { s with bitpos := s.bitpos + 1, pos := (s.nodeAt s.pos.toNat).child x }) rfl rfl rfl
  refine .ite (fun _ => alikeNext (h.frame rfl rfl rfl)) fun _ => .ite (fun hleaf => ?_) fun _ => hmoved.alikeNext
  rw [← hchild.sym hleaf]
  exact (hmoved.emitLeaf _).alikeNext

theorem walkBits (h : SameButUnspecified s t) (hi : BlockInv s) (xs : Bits) :
    AlikeNext (walkBits xs s) (walkBits xs t) := by
  induction xs generalizing s t with
  | nil => exact h.alikeNext
  | cons x xs ih =>
    rw [Machine.walkBits, Machine.walkBits, h.upState_eq]
    refine .ite (fun hrun => ?_) fun _ => h.alikeNext
    obtain ⟨s', t', hs', ht', h'⟩ := h.walkBit hi.tree x
    rw [hs', ht']
    exact ih h' (walkBit_inv hi hrun hs')

/-! ## UPINS (R162) -/

theorem insertCode (h : SameButUnspecified s t) (hi : BlockInv s) (ht : t.node.wf = true) (y : Symbol) {c : Bits}
    (hc : c ≠ []) : AlikeNext (insertCode y c s) (insertCode y c t) := by
  obtain ⟨-, -, -, hN⟩ := hi.cfg
  have hroot : root.toNat < s.nextFree.toNat := hi.tree.one_le_nextFree
  rw [Machine.insertCode, Machine.insertCode, h.descend_eq hi.tree hroot]
  rcases hi.tree.descend_root c hc with ⟨hd, -⟩ | ⟨p, d, b, bs, hd, -⟩ <;> rw [hd]
  · exact (h.raise _).alikeNext
  · have hfree : t.nextFree = s.nextFree := by rw [h.rest]
    dsimp only
    rw [h.nextFree_eq, h.cfg_eq]
    exact .ite (fun _ => (h.raise _).alikeNext) fun hroom =>
      (h.growPath hi.tree.canonical ht y p _ (by omega)).alikeNext

theorem execUpins (h : SameButUnspecified s t) (hi : BlockInv s) (ht : t.node.wf = true) (y : Symbol) :
    AlikeNext (execUpins y s) (execUpins y t) := by
  have hclear := h.clearStaging
  obtain ⟨c, m, rfl⟩ := h.exists_tables
  exact .ite (fun _ => (hclear.raise _).alikeNext) fun _ => .ite (fun _ => (hclear.raise _).alikeNext) fun _ =>
    .ite (fun _ => (hclear.raise _).alikeNext) fun hl => hclear.insertCode hi.clearStaging ht y (stagedBits_ne_nil hl)

/-! ## The other commands that touch a table -/

theorem execPkdef (h : SameButUnspecified s t) (y : Symbol) : AlikeNext (execPkdef y s) (execPkdef y t) := by
  have hclear := h.clearStaging
  obtain ⟨c, m, rfl⟩ := h.exists_tables
  exact .ite (fun _ => (hclear.raise _).alikeNext) fun _ => .ite (fun _ => (hclear.raise _).alikeNext) fun _ =>
    (hclear.codeWrite y _).alikeNext

/-- PKSYM reads len and bits of a valid entry only. -/
theorem execPksym (h : SameButUnspecified s t) (y : Symbol) : AlikeNext (execPksym y s) (execPksym y t) := by
  simp only [Machine.execPksym, ← (h.entries y).valid]
  refine .ite (fun hv => ?_) fun _ => (h.raise _).alikeNext
  rw [← (h.entries y).eq_of_valid hv]
  exact (h.packBits _).alikeNext

/-- UPCLR leaves only the root allocated, and clears it. -/
theorem execUpclr (h : SameButUnspecified s t) (hs : s.node.wf = true) (ht : t.node.wf = true) :
    AlikeNext (execUpclr s) (execUpclr t) := by
  obtain ⟨c, m, rfl⟩ := h.exists_tables
  have hpos := h.frame (s' := { s with pos := root }) rfl rfl rfl
  refine .ite (fun _ => (h.raise _).alikeNext) fun _ => (hpos.allocate hs ht root 1 fun k hk hne => ?_).alikeNext
  exact absurd (Nat.lt_one_iff.1 hk) hne

/-! ## Commands, words and steps -/

theorem exec (h : SameButUnspecified s t) (hs : BlockInv s) (ht : BlockInv t) (i : Instr) :
    AlikeNext (exec i s) (exec i t) := by
  cases i with
  | nop => exact h.alikeNext
  | cclr => exact h.clearStaging.alikeNext
  | cbit b => exact (h.stageBit b).alikeNext
  | pkdef y => exact h.execPkdef y
  | pksym y => exact h.execPksym y
  | upclr => exact h.execUpclr hs.tree.canonical ht.tree.canonical
  | upins y => exact h.execUpins hs ht.tree.canonical y
  | upbyte b => exact h.walkBits hs (byteBits b)
  | pkclr =>
    obtain ⟨c, m, rfl⟩ := h.exists_tables
    exact alikeNext (codeInvalidateAll (h.frame rfl rfl rfl))
  | pkflush =>
    obtain ⟨c, m, rfl⟩ := h.exists_tables
    exact .ite (fun _ => h.alikeNext) fun _ => alikeNext (h.frame rfl rfl rfl)
  | upstart n =>
    obtain ⟨c, m, rfl⟩ := h.exists_tables
    exact alikeNext (h.frame rfl rfl rfl)
  | upend =>
    obtain ⟨c, m, rfl⟩ := h.exists_tables
    exact alikeNext (ite (fun _ => h.frame rfl rfl rfl) fun _ => h)

theorem accept (h : SameButUnspecified s t) (hs : BlockInv s) (ht : BlockInv t) (w : CmdWord) :
    AlikeNext (accept w s) (accept w t) := by
  have hfatal : fatal t = fatal s := by
    rw [h.rest]
    rfl
  rw [Machine.accept, Machine.accept, hfatal]
  refine .ite (fun _ => h.alikeNext) fun _ => ?_
  cases decode w with
  | illegal why => exact (h.raise .illcmd).alikeNext
  | cmd i => exact h.exec hs ht i

theorem step (h : SameButUnspecified s t) (hs : BlockInv s) (ht : BlockInv t) : AlikeNext (step s) (step t) := by
  obtain ⟨c, m, rfl⟩ := h.exists_tables
  rcases step_cases s with ⟨hp, e⟩ | ⟨rest, hp, e⟩ | ⟨w, rest, hp, e⟩ <;> rw [e]
  · rw [stepWithNothingPresentedStays (withTables c m s) hp]
    exact h.alikeNext
  · rw [step_of_reset (s := withTables c m s) hp]
    exact (refl _).alikeNext
  · rw [step_of_word (s := withTables c m s) hp]
    exact (h.frame (s' := withPort rest s) rfl rfl rfl).accept (hs.withPort rest) (ht.withPort rest) w

end SameButUnspecified

/-- Settles O57: each operation of a step takes states that differ only in unspecified contents to such states, since it
reads len and bits of valid entries, allocated nodes and the sym of leaves only; and the observation holds nothing else
of the tables. -/
theorem unspecifiedContentsAreNeverObserved : Obligations.UnspecifiedContentsAreNeverObserved := by
  intro s t hs ht h
  obtain ⟨s', t', hs', ht', h'⟩ := h.step hs ht
  exact ⟨s', t', hs', ht', h', h'.observe_eq⟩

end Sys2Proof.Machine
